-- ==== Sys2Proof/Word.lean ====
section
/-! DEFINITION. The two word types of the core and the one rounding the spec names (00_scope.md R8, R9). -/

namespace Sys2Proof

/-- A byte of a memory: bits 7 down to 0 (00_scope.md R9). -/
abbrev Byte := BitVec 8

/-- A 32-bit word: a host register or a bus access of four bytes (10_state.md R40). -/
abbrev Word := BitVec 32

/-- `ceil8(p) = 8 * ceil(p / 8)` (00_scope.md R8). -/
def ceil8 (p : Nat) : Nat := 8 * ((p + 7) / 8)

end Sys2Proof
end

