-- ==== Sys2Proof/Machine/Tree.lean ====
section
/-! DEFINITION. The Huffman tree record and the names of the three byte memories, which both Config and State use. -/

namespace Sys2Proof.Machine

/-- A built tree: the tuple of 41_huffman.md R256, `(count[1..15], symbol[0..used-1], used, left)`. `count` is listed from length 1
on, so `count[len]` of the spec is entry `len - 1` here (10_state.md R65). -/
structure HTree where
  count  : List Nat
  symbol : List Nat
  used   : Nat
  left   : Nat
deriving DecidableEq, Repr, Inhabited

/-- The three byte memories of 20_memory.md R100. -/
inductive Space where
  | inp
  | out
  | dict
deriving DecidableEq, Repr

end Sys2Proof.Machine
end

