-- ==== Sys2Proof/Config.lean ====
section
/-! DEFINITION. The fixed sizes of 00_scope.md R6 and the free values: what 93_implementation_defined.md part 1 treats as `any value`.
IN_MAX and OUT_MAX are the two OPEN parameters; they are fields of State, so that a claim holds for every size (log entry 2). -/

namespace Sys2Proof.Config

/-- DICT_MAX (00_scope.md R6). -/
def dictMax : Nat := 32768

/-- MAXBITS, the longest Huffman code (00_scope.md R6). -/
def maxBits : Nat := 15

/-- The largest value IN_MAX and OUT_MAX may take, 2^24 (00_scope.md R6). -/
def sizeMax : Nat := 16777216

/-- FREE VALUE (93 U3; log entry 1): what byte `i` of a memory holds after the `epoch`-th power-on until something writes it. -/
opaque powerOnByte (epoch : Nat) (sp : Machine.Space) (i : Nat) : Byte

/-- FREE VALUE (93 U4; 20_memory.md R102; log entry 9): what a host read of `OUT[i]` with `i >= OUT_LEN` returns; `draw` is the
counter of State at that moment. -/
opaque staleOut (draw : Nat) (i : Nat) : Byte

/-- FREE VALUE (93 U2; 41_huffman.md R252; log entry 8): the contents of a tree store after a failed build into it. -/
opaque freeTree (draw : Nat) : Machine.HTree

end Sys2Proof.Config
end

