-- ==== Sys2Proof/Syntax.lean ====
section
/-! DEFINITION. The instructions: one constructor per row of spec/opcode_table.json, in the table's order.
A row stands for the decoded symbol (or header, or command word); the extra bits that follow a symbol in the stream (LX, DX,
REP, LEN and the rest) are read by the row's meaning, in the place where the pseudocode reads them. -/

namespace Sys2Proof

/-- The seven formats of 30_encoding.md R152 to R156 and R163: which of them the next bits have is fixed by the core's phase,
never by the bits themselves (R165). -/
inductive Format where
  | hdr      -- the 3-bit block header, R152
  | stored   -- a stored block's body, R153
  | dynhdr   -- a dynamic block's header, R154
  | clsym    -- a code-length symbol, R155
  | llsym    -- a literal/length symbol, R156
  | dsym     -- a distance symbol, R156
  | cmd      -- a host command word, R163
deriving DecidableEq, Repr

/-- The rows of spec/opcode_table.json. -/
inductive Instr where
  | blockStored (bfinal : BitVec 1)      -- BLOCK_STORED, R159
  | blockFixed (bfinal : BitVec 1)       -- BLOCK_FIXED, R159
  | blockDynamic (bfinal : BitVec 1)     -- BLOCK_DYNAMIC, R159
  | blockReserved (bfinal : BitVec 1)    -- BLOCK_RESERVED, R159
  | storedBody                           -- STORED_BODY, R153
  | dynHeader                            -- DYN_HEADER, R154
  | clLen (value : BitVec 4)             -- CL_LEN, R162
  | clCopyPrev                           -- CL_COPY_PREV, R162
  | clZeroShort                          -- CL_ZERO_SHORT, R162
  | clZeroLong                           -- CL_ZERO_LONG, R162
  | lit (byte : Byte)                    -- LIT, R160
  | eob                                  -- EOB, R160
  | len257                               -- LEN_257, R160
  | len258                               -- LEN_258, R160
  | len259                               -- LEN_259, R160
  | len260                               -- LEN_260, R160
  | len261                               -- LEN_261, R160
  | len262                               -- LEN_262, R160
  | len263                               -- LEN_263, R160
  | len264                               -- LEN_264, R160
  | len265                               -- LEN_265, R160
  | len266                               -- LEN_266, R160
  | len267                               -- LEN_267, R160
  | len268                               -- LEN_268, R160
  | len269                               -- LEN_269, R160
  | len270                               -- LEN_270, R160
  | len271                               -- LEN_271, R160
  | len272                               -- LEN_272, R160
  | len273                               -- LEN_273, R160
  | len274                               -- LEN_274, R160
  | len275                               -- LEN_275, R160
  | len276                               -- LEN_276, R160
  | len277                               -- LEN_277, R160
  | len278                               -- LEN_278, R160
  | len279                               -- LEN_279, R160
  | len280                               -- LEN_280, R160
  | len281                               -- LEN_281, R160
  | len282                               -- LEN_282, R160
  | len283                               -- LEN_283, R160
  | len284                               -- LEN_284, R160
  | len285                               -- LEN_285, R160
  | illegalLen286                        -- ILLEGAL_LEN_286, R160
  | illegalLen287                        -- ILLEGAL_LEN_287, R160
  | dist0                                -- DIST_0, R161
  | dist1                                -- DIST_1, R161
  | dist2                                -- DIST_2, R161
  | dist3                                -- DIST_3, R161
  | dist4                                -- DIST_4, R161
  | dist5                                -- DIST_5, R161
  | dist6                                -- DIST_6, R161
  | dist7                                -- DIST_7, R161
  | dist8                                -- DIST_8, R161
  | dist9                                -- DIST_9, R161
  | dist10                               -- DIST_10, R161
  | dist11                               -- DIST_11, R161
  | dist12                               -- DIST_12, R161
  | dist13                               -- DIST_13, R161
  | dist14                               -- DIST_14, R161
  | dist15                               -- DIST_15, R161
  | dist16                               -- DIST_16, R161
  | dist17                               -- DIST_17, R161
  | dist18                               -- DIST_18, R161
  | dist19                               -- DIST_19, R161
  | dist20                               -- DIST_20, R161
  | dist21                               -- DIST_21, R161
  | dist22                               -- DIST_22, R161
  | dist23                               -- DIST_23, R161
  | dist24                               -- DIST_24, R161
  | dist25                               -- DIST_25, R161
  | dist26                               -- DIST_26, R161
  | dist27                               -- DIST_27, R161
  | dist28                               -- DIST_28, R161
  | dist29                               -- DIST_29, R161
  | illegalDist30                        -- ILLEGAL_DIST_30, R161
  | illegalDist31                        -- ILLEGAL_DIST_31, R161
  | nop                                  -- NOP, R163
  | inflate                              -- INFLATE, R163
  | adler32                              -- ADLER32, R163
  | crc32                                -- CRC32, R163
  | reset                                -- RESET, R163
  | illegalCmd (word : Word)             -- ILLEGAL_CMD, R163
deriving DecidableEq, Repr

end Sys2Proof
end

