-- ==== Sys2Proof/Machine/State.lean ====
section
/-! DEFINITION. The state of the core, of its memories and of the host that drives it, as plain data (10_state.md, 20_memory.md). -/

namespace Sys2Proof.Machine

/-- A byte memory: the bytes written since power-on, by strictly rising index. An index that is not listed holds no byte yet;
what reading it gives is `byteAt` (Ops.lean). -/
abbrev Memory := List Host.Cell

/-- The `phase` register (10_state.md R31; 42_blocks.md R299). -/
inductive Phase where
  | idle
  | header
  | stored
  | fixedCodes
  | dynHeader
  | dynCodes
  | done
  | error
deriving DecidableEq, Repr

/-- The commands that are accepted and recorded in STATUS.LASTOP (10_state.md R42; 45_commands.md R451). -/
inductive Command where
  | inflate
  | adler32
  | crc32
deriving DecidableEq, Repr

/-- The errors of 60_exceptions.md R500, codes 1 to 15 in order. -/
inductive Err where
  | unexpectedEndOfInput
  | invalidBlockType
  | invalidStoredBlockLength
  | invalidHuffmanTree
  | invalidCodeLengths
  | invalidRepeatCode
  | tooManyCodeLengths
  | invalidCode
  | invalidLengthSymbol
  | invalidDistanceSymbol
  | distanceTooFar
  | needPresetDictionary
  | outputOverflow
  | illegalCommand
  | checksumRange
deriving DecidableEq, Repr

/-- Where the core stands inside an element: the transient values of R324 (HLIT, HDIST and the index `i`) and of R357 (`length`),
which "do not outlive the element that uses them" (10_state.md R31). `none` between elements (log entry 5). -/
inductive Inner where
  | none
  | lengths (hlit hdist i : Nat)
  | distance (length : Nat)
deriving DecidableEq, Repr

/-- The width of a host access in bytes (20_memory.md R106, R107). -/
inductive Width where
  | b1
  | b2
  | b4
deriving DecidableEq, Repr

/-- What the host does next (20_memory.md R105 to R107, R121; 30_encoding.md R175; log entry 3). -/
inductive HostAct where
  | write (addr : Word) (n : Width) (v : Word)  -- MemWrite(addr, n, v)
  | read (addr : Word) (n : Width)              -- MemRead(addr, n)
  | waitIdle                                    -- `wait BUSY=0`: poll STATUS until BUSY reads 0
  | letCore                                     -- no access: the core takes its next element, if it has one
  | powerOn                                     -- the platform's power-on reset (70_reset_and_hazards.md R600)
deriving DecidableEq, Repr

/-- Everything the machine holds. Comments name the register or rule each field stands for. -/
structure State where
  -- parameters of the model (00_scope.md R6)
  inMax      : BitVec 25
  outMax     : BitVec 25
  -- memories (20_memory.md R100)
  inMem      : Memory
  outMem     : Memory
  dictMem    : Memory
  -- STATUS (10_state.md R42; STATE is read from `phase`)
  busy       : Bool
  err        : Bool
  ok         : Bool
  lastOp     : Option Command
  -- ERRCODE (10_state.md R43): the error whose CODE and CLASS it shows, or none
  error      : Option Err
  -- CTRL.DICT_REQ (10_state.md R44)
  dictReq    : Bool
  -- INT_STATUS and INT_ENABLE (10_state.md R52, R53)
  intDone    : Bool
  intErr     : Bool
  doneEn     : Bool
  errEn      : Bool
  -- IN_START, IN_LEN, DICT_LEN, OUT_LEN (10_state.md R45, R46, R50, R49)
  inStart    : BitVec 24
  inLen      : BitVec 25
  dictLen    : BitVec 17
  outLen     : BitVec 25
  -- BITPOS, the program counter (10_state.md R32, R48)
  bitpos     : BitVec 28
  -- BLKINFO (10_state.md R51): `final`, `btype`, `blkcnt`
  bfinal     : BitVec 1
  btype      : BitVec 2
  blkcnt     : BitVec 24
  -- CK_SRC, CK_OFF, CK_LEN, ADLER_SEED, CRC_SEED, CK_RESULT (10_state.md R54 to R59)
  ckSrc      : BitVec 2
  ckOff      : Word
  ckLen      : Word
  adlerSeed  : Word
  crcSeed    : Word
  ckResult   : Word
  -- internal registers (10_state.md R31, R65)
  phase      : Phase
  litSel     : Bool
  distSel    : Bool
  litTree    : HTree
  distTree   : HTree
  clenTree   : HTree
  lens       : List (BitVec 4)
  -- the model's own: the transient values of the element in progress (log entry 5)
  inner      : Inner
  -- the host agent, the model's own form of it (log entry 3): accesses to come, and the values its reads returned
  host       : List HostAct
  hostGot    : List Word
  -- the model's own counters for free values (log entries 9 and 17)
  draw       : Nat
  epoch      : Nat
deriving DecidableEq, Repr

/-- Why a step can stop. None is raised from a state a run reaches. -/
inductive Fault where
  /-- Raised by the meanings of CL_* and DIST_* in a state that stands outside the element those symbols belong to
  (`inner`); the fetch never runs them there. The spec gives such a symbol no effect. Safe: the model only stops. -/
  | symbolOutsideElement
  /-- Raised by the symbol reads when a tree's table holds a number that is no symbol of its alphabet; no built tree does
  (41_huffman.md R254, R263). Safe: the model only stops. -/
  | corruptTree
  /-- Raised by the fetch when BUSY is 1 with no command recorded in LASTOP; acceptance sets both (45_commands.md R451).
  Safe: the model only stops. -/
  | busyWithoutCommand
deriving DecidableEq, Repr

/-- Why an action has no meaning here. -/
inductive Refusal where
  /-- Raised by exec's arm of an instruction that has no meaning yet. Safe: the model only stops. -/
  | notModelled (mnemonic : String)
  /-- Raised by the host's bus write when it would change a byte of IN or DICT while BUSY is 1: "a model gives the write no
  move: it refuses the host action" (70_reset_and_hazards.md R621(a); 93 U5). It errs toward proving, as 93 U5 says of it:
  a claim says nothing of a run with such a write. Unsafe in that sense only. -/
  | inputWriteWhileBusy
deriving DecidableEq, Repr

/-- The tree of no codes (41_huffman.md R255), which the tree stores hold at reset (log entry 7: DESIGN CHOICE). -/
def HTree.noCodes : HTree := { count := List.replicate 15 0, symbol := [], used := 0, left := 32768 }

/-- The machine right after power-on reset (70_reset_and_hazards.md R601), for any sizes of IN and OUT (00_scope.md R6). The tree
stores and `lens` are unspecified there: the values are the model's (log entry 7). -/
def State.resetWith (inMax outMax : BitVec 25) : State where
  inMax := inMax
  outMax := outMax
  inMem := []
  outMem := []
  dictMem := []
  busy := false
  err := false
  ok := false
  lastOp := none
  error := none
  dictReq := false
  intDone := false
  intErr := false
  doneEn := false
  errEn := false
  inStart := 0#24
  inLen := 0#25
  dictLen := 0#17
  outLen := 0#25
  bitpos := 0#28
  bfinal := 0#1
  btype := 0#2
  blkcnt := 0#24
  ckSrc := 0#2
  ckOff := 0#32
  ckLen := 0#32
  adlerSeed := 1#32
  crcSeed := 0#32
  ckResult := 0#32
  phase := .idle
  litSel := false
  distSel := false
  litTree := HTree.noCodes
  distTree := HTree.noCodes
  clenTree := HTree.noCodes
  lens := List.replicate 320 0#4
  inner := .none
  host := []
  hostGot := []
  draw := 0
  epoch := 0

/-- The machine right after reset, with the largest memories the parameters allow (log entry 2: DESIGN CHOICE). -/
def State.reset : State := State.resetWith 0x1000000#25 0x1000000#25

end Sys2Proof.Machine
end

