-- ==== Sys2Proof/Machine/Ops.lean ====
section
/-! DEFINITION. The named operations over memory and registers: byte memories, OutAppend and the history, acceptance of a command,
the end of a command in error (`raise`, the core's one exception entry) and without error (`complete`), the end of a block, RESET and
power-on. There is no return from an error (60_exceptions.md R523): the next command starts from its own start state. -/

namespace Sys2Proof.Machine

/-! ### Byte memories -/

/-- The byte written at index `i` since power-on, if any. -/
def Memory.read : Memory → Nat → Option Byte
  | [], _ => none
  | (a, b) :: m, i => if a = i then some b else Memory.read m i

/-- The memory with byte `v` at index `i`; the canonical form (strictly rising indexes) is kept. -/
def Memory.write : Memory → Nat → Byte → Memory
  | [], i, v => [(i, v)]
  | (a, b) :: m, i, v =>
    if i < a then (i, v) :: (a, b) :: m
    else if i = a then (i, v) :: m
    else (a, b) :: Memory.write m i v

/-- The canonical form: indexes strictly rise. An unlisted index holds no byte since power-on, so no entry can repeat it. -/
abbrev Memory.wf (m : Memory) : Prop := m.Pairwise fun c d => c.1 < d.1

/-- The memory of a space (20_memory.md R100). -/
def State.mem (s : State) : Space → Memory
  | .inp => s.inMem
  | .out => s.outMem
  | .dict => s.dictMem

/-- `IN[i]`, `OUT[i]` and `DICT[i]` (00_scope.md R11): the byte written last, or the power-on byte, a free value (log entry 1). -/
def byteAt (s : State) (sp : Space) (i : Nat) : Byte :=
  match Memory.read (s.mem sp) i with
  | some b => b
  | none => Config.powerOnByte s.epoch sp i

/-- `OutAppend(b)`, the core's only write to OUT (00_scope.md R11; 20_memory.md R102). -/
def outAppend (b : Byte) (s : State) : State :=
  { s with outMem := Memory.write s.outMem s.outLen.toNat b, outLen := s.outLen + 1#25 }

/-- `HLEN = DICT_LEN + OUT_LEN`, the length of the history (43_symbols_window.md R350). -/
def State.hlen (s : State) : Nat := s.dictLen.toNat + s.outLen.toNat

/-- `Hist(i)`: the dictionary followed by the output (43_symbols_window.md R350). -/
def hist (s : State) (i : Nat) : Byte :=
  if i < s.dictLen.toNat then byteAt s .dict i else byteAt s .out (i - s.dictLen.toNat)

/-- The copy of a back-reference, byte by byte, each byte appended before the next is read (43_symbols_window.md R358). -/
def copyLoop : Nat → Nat → State → State
  | 0, _, s => s
  | n + 1, distance, s => copyLoop n distance (outAppend (hist s (s.hlen - distance)) s)

/-- The copy of a stored block: `n` bytes of IN from index `b` on (42_blocks.md R306). -/
def storedLoop : Nat → Nat → State → State
  | 0, _, s => s
  | n + 1, b, s => storedLoop n (b + 1) (outAppend (byteAt s .inp b) s)

/-! ### Acceptance and the ends of a command -/

/-- Acceptance of INFLATE, ADLER32 or CRC32 (45_commands.md R451). Accepting twice is accepting once. -/
def accept (op : Command) (s : State) : State :=
  { s with err := false, ok := false, error := none, lastOp := some op, busy := true }

/-- What every error entry writes: ERRCODE, ERR, OK, BUSY and INT_STATUS.ERR (60_exceptions.md R520). -/
def raiseCommand (e : Err) (s : State) : State :=
  { s with error := some e, err := true, ok := false, busy := false, intErr := true }

/-- TAKING AN EXCEPTION: `raise E` in an INFLATE element (60_exceptions.md R520), which also moves `phase` to ERROR. The element is
over, so its transient values are gone (10_state.md R31). -/
def raise (e : Err) (s : State) : State :=
  { raiseCommand e s with phase := .error, inner := .none }

/-- Completion without error (60_exceptions.md R521). -/
def complete (s : State) : State :=
  { s with ok := true, err := false, busy := false, intDone := true }

/-- End of block (42_blocks.md R302). -/
def endOfBlock (s : State) : State :=
  if s.bfinal = 1#1 then complete { s with blkcnt := s.blkcnt + 1#24, phase := .done }
  else { s with blkcnt := s.blkcnt + 1#24, phase := .header }

/-- RESET (45_commands.md R457; 70_reset_and_hazards.md R600): every register and internal register to its reset value; memories,
`lens` and the tree stores keep their contents, and so do the host's side and the model's counters. -/
def resetRegisters (s : State) : State :=
  { State.resetWith s.inMax s.outMax with
    inMem := s.inMem
    outMem := s.outMem
    dictMem := s.dictMem
    litTree := s.litTree
    distTree := s.distTree
    clenTree := s.clenTree
    lens := s.lens
    host := s.host
    hostGot := s.hostGot
    draw := s.draw
    epoch := s.epoch }

/-- Power-on reset by the platform (70_reset_and_hazards.md R600): the reset values, and memories whose contents are unspecified
anew (log entry 17). -/
def powerOn (s : State) : State :=
  { State.resetWith s.inMax s.outMax with
    host := s.host
    hostGot := s.hostGot
    draw := s.draw
    epoch := s.epoch + 1 }

/-! ### The result of a part of an element -/

/-- What a part of an element comes to: a value and the state it leaves, or the error it raises with the state at that moment
(60_exceptions.md R520: reads made before the check and writes to internal registers stand), or a stop of the model. -/
inductive Res (α : Type) where
  | val (a : α) (s : State)
  | err (e : Err) (s : State)
  | stop (f : Fault)
deriving Repr

/-- One part after another: `raise` ends the element, and no later part of it runs (00_scope.md R12; 60_exceptions.md R510). -/
def Res.bind {α β : Type} (r : Res α) (k : α → State → Res β) : Res β :=
  match r with
  | .val a s => k a s
  | .err e s => .err e s
  | .stop f => .stop f

/-- The end of an INFLATE element: its state, or the error entered (60_exceptions.md R520). -/
def finish (r : Res Unit) : Host.Outcome State Fault Refusal :=
  match r with
  | .val _ s => .next s
  | .err e s => .next (raise e s)
  | .stop f => .fault f

end Sys2Proof.Machine
end

