-- ==== Sys2Proof/Machine/Operands.lean ====
section
/-! DEFINITION. Every operand form of the stream: the Bit Reader (40_bit_reader.md), the lookup of a Huffman symbol
(41_huffman.md R260), the constant tables of 42_blocks.md R321 and 43_symbols_window.md R361, R362, and the checksum region
(44_checksums.md R420). -/

namespace Sys2Proof.Machine

/-! ### The Bit Reader -/

/-- `InBit(p)`: bit `p mod 8` of byte `p >> 3` of IN (40_bit_reader.md R200). -/
def inBit (s : State) (p : Nat) : Nat := ((byteAt s .inp (p / 8)).toNat >>> (p % 8)) % 2

/-- The `n` bits at position `p` as a number, first bit least significant (40_bit_reader.md R201). -/
def bitsAt (s : State) : Nat → Nat → Nat
  | _, 0 => 0
  | p, n + 1 => inBit s p + 2 * bitsAt s (p + 1) n

/-- The state with the input cursor at `p` (00_scope.md R12). -/
def setCursor (p : Nat) (s : State) : State := { s with bitpos := BitVec.ofNat 28 p }

/-- `readBits(n)` (40_bit_reader.md R201); a read past `8 * IN_LEN` fails and leaves the cursor (R202). -/
def readBits (n : Nat) (s : State) : Res Nat :=
  if 8 * s.inLen.toNat < s.bitpos.toNat + n then .err .unexpectedEndOfInput s
  else .val (bitsAt s s.bitpos.toNat n) (setCursor (s.bitpos.toNat + n) s)

/-- `alignToByte()` (40_bit_reader.md R204). -/
def alignToByte (s : State) : State := setCursor (ceil8 s.bitpos.toNat) s

/-! ### Lookup of a symbol -/

/-- The number an index outside `symbol[]` reads as: no symbol of any alphabet. No lookup in a built tree has such an index
(41_huffman.md R263). -/
def noSymbol : Nat := 511

/-- The loop of `decodeSymbol` over `count[len]`, `len` rising (41_huffman.md R260). `code` is even when a bit is read into it, so
`code + bit` is `code OR bit`: the first bit read is the code's most significant (R262). -/
def decodeLoop (symbol : List Nat) : List Nat → Nat → Nat → Nat → State → Res Nat
  | [], _, _, _, s => .err .invalidCode s
  | count :: rest, code, first, index, s =>
    (readBits 1 s).bind fun bit s =>
    if code + bit < first + count then .val (symbol.getD (index + (code + bit - first)) noSymbol) s
    else decodeLoop symbol rest (2 * (code + bit)) (2 * (first + count)) (index + count) s

/-- `decodeSymbol(T)` (41_huffman.md R260). -/
def decodeSymbol (t : HTree) (s : State) : Res Nat := decodeLoop t.symbol t.count 0 0 0 s

/-- `decodeSymbol(T)` for an alphabet of `limit` symbols: a number outside it is none of the tree's (log entry 14). -/
def symbolBelow (limit : Nat) (t : HTree) (s : State) : Res Nat :=
  (decodeSymbol t s).bind fun sym s => if sym < limit then .val sym s else .stop .corruptTree

/-! ### Constant tables -/

/-- ORDER (42_blocks.md R321). -/
def order : List Nat := [16, 17, 18, 0, 8, 7, 9, 6, 10, 5, 11, 4, 12, 3, 13, 2, 14, 1, 15]

/-- LBASE, the source's `lengths` (43_symbols_window.md R361). -/
def lbase : List Nat :=
  [3, 4, 5, 6, 7, 8, 9, 10, 11, 13, 15, 17, 19, 23, 27, 31, 35, 43, 51, 59, 67, 83, 99, 115, 131, 163, 195, 227, 258]

/-- LEXT, the source's `extra` (43_symbols_window.md R361). -/
def lext : List Nat := [0, 0, 0, 0, 0, 0, 0, 0, 1, 1, 1, 1, 2, 2, 2, 2, 3, 3, 3, 3, 4, 4, 4, 4, 5, 5, 5, 5, 0]

/-- DBASE, the source's `dists` (43_symbols_window.md R362). -/
def dbase : List Nat :=
  [1, 2, 3, 4, 5, 7, 9, 13, 17, 25, 33, 49, 65, 97, 129, 193, 257, 385, 513, 769, 1025, 1537, 2049, 3073, 4097, 6145, 8193,
   12289, 16385, 24577]

/-- DEXT, the source's `dext` (43_symbols_window.md R362). -/
def dext : List Nat :=
  [0, 0, 0, 0, 1, 1, 2, 2, 3, 3, 4, 4, 5, 5, 6, 6, 7, 7, 8, 8, 9, 9, 10, 10, 11, 11, 12, 12, 13, 13]

/-! ### The checksum region -/

/-- The bytes `M[off .. off + n - 1]` in ascending index order (44_checksums.md R421). -/
def bytesAt (s : State) (sp : Space) : Nat → Nat → List Byte
  | _, 0 => []
  | off, n + 1 => byteAt s sp off :: bytesAt s sp (off + 1) n

/-- The memory CK_SRC selects and its valid length; source 3 is reserved (44_checksums.md R420). -/
def checksumSource (s : State) : Option (Space × Nat) :=
  if s.ckSrc = 0#2 then some (.inp, s.inLen.toNat)
  else if s.ckSrc = 1#2 then some (.out, s.outLen.toNat)
  else if s.ckSrc = 2#2 then some (.dict, s.dictLen.toNat)
  else none

/-- The region's bytes, or none where the check fails; the sum is of unbounded integers (44_checksums.md R420). -/
def checksumRegion (s : State) : Option (List Byte) :=
  match checksumSource s with
  | some (sp, v) => if v < s.ckOff.toNat + s.ckLen.toNat then none else some (bytesAt s sp s.ckOff.toNat s.ckLen.toNat)
  | none => none

end Sys2Proof.Machine
end

