-- ==== Sys2Proof/Machine/Checksums.lean ====
section
/-! DEFINITION. The two checksum functions of 44_checksums.md R400 to R412. -/

namespace Sys2Proof.Machine

/-- The modulus of Adler-32 (44_checksums.md R400, R403). -/
def adlerMod : Nat := 65521

/-- The byte loop of Adler-32 on `a` and `b` (44_checksums.md R400). -/
def adlerLoop : List Byte → Nat → Nat → Nat × Nat
  | [], a, b => (a, b)
  | x :: xs, a, b => adlerLoop xs ((a + x.toNat) % adlerMod) ((b + (a + x.toNat) % adlerMod) % adlerMod)

/-- `adler32(seed, x)` (44_checksums.md R400, R401). -/
def adler32 (seed : Word) (x : List Byte) : Word :=
  let ab := adlerLoop x (seed.toNat % 65536 % adlerMod) (seed.toNat / 65536 % adlerMod)
  BitVec.ofNat 32 (ab.2 * 65536 + ab.1)

/-- One round of the loop that generates CRCTAB (44_checksums.md R411). -/
def crcRound (c : Word) : Word := if c.getLsbD 0 then (c >>> 1) ^^^ 0xEDB88320#32 else c >>> 1

/-- `CRCTAB[k]` (44_checksums.md R411). -/
def crcTab (k : Byte) : Word :=
  crcRound (crcRound (crcRound (crcRound (crcRound (crcRound (crcRound (crcRound (k.setWidth 32))))))))

/-- The byte loop of CRC-32 (44_checksums.md R410). -/
def crcLoop : List Byte → Word → Word
  | [], c => c
  | x :: xs, c => crcLoop xs (crcTab ((c ^^^ x.setWidth 32).setWidth 8) ^^^ (c >>> 8))

/-- `crc32(seed, x)` (44_checksums.md R410). -/
def crc32 (seed : Word) (x : List Byte) : Word := crcLoop x (seed ^^^ 0xFFFFFFFF#32) ^^^ 0xFFFFFFFF#32

end Sys2Proof.Machine
end

