-- ==== Sys2Proof/Machine/Commands.lean ====
section
/-! DEFINITION. The host commands (45_commands.md R450 to R458). An accepted command takes two moves: acceptance at the CMD write
(R451; Bus.lean) and then its element. Each meaning below is the whole command as its rule writes it, acceptance included; on the
state the CMD write has accepted, accepting again changes nothing (log entry 11). -/

namespace Sys2Proof.Machine

/-- NOP (45_commands.md R453). -/
def execNop (s : State) : Host.Outcome State Fault Refusal := .next s

/-- INFLATE's start: the start registers (45_commands.md R452). -/
def startInflate (s : State) : State :=
  { setCursor (8 * s.inStart.toNat) s with
    outLen := 0#25, bfinal := 0#1, btype := 0#2, blkcnt := 0#24, litSel := false, distSel := false, phase := .header,
    inner := .none }

/-- INFLATE: accepted, then its start element, which fails when a dictionary is required and none is loaded (45_commands.md R452,
R454; 43_symbols_window.md R367). The elements that follow are chosen by `phase` (Fetch.lean). -/
def execInflate (s : State) : Host.Outcome State Fault Refusal :=
  let t := startInflate (accept .inflate s)
  finish (if t.dictReq = true ∧ t.dictLen = 0#17 then .err .needPresetDictionary t else .val () t)

/-- A checksum command: accepted, its region read, its result written, complete (45_commands.md R455, R456); an error leaves
CK_RESULT (10_state.md R59; 60_exceptions.md R524). -/
def checksumCommand (op : Command) (f : List Byte → Word) (s : State) : Host.Outcome State Fault Refusal :=
  match checksumRegion (accept op s) with
  | none => .next (raiseCommand .checksumRange (accept op s))
  | some x => .next (complete { accept op s with ckResult := f x })

/-- ADLER32 (45_commands.md R455). -/
def execAdler32 (s : State) : Host.Outcome State Fault Refusal := checksumCommand .adler32 (adler32 s.adlerSeed) s

/-- CRC32 (45_commands.md R456). -/
def execCrc32 (s : State) : Host.Outcome State Fault Refusal := checksumCommand .crc32 (crc32 s.crcSeed) s

/-- RESET, legal at any time (45_commands.md R457). -/
def execReset (s : State) : Host.Outcome State Fault Refusal := .next (resetRegisters s)

/-- A word that names no command: `IllegalCommand` while idle, ignored while busy (45_commands.md R450, R458). It is not accepted. -/
def execIllegalCmd (_word : Word) (s : State) : Host.Outcome State Fault Refusal :=
  if s.busy then .next s else .next (raiseCommand .illegalCommand s)

end Sys2Proof.Machine
end

