-- ==== Sys2Proof/Machine/Huffman.lean ====
section
/-! DEFINITION. Construction of a canonical tree from code lengths, the two fixed trees, and the canonical code of a symbol
(41_huffman.md R250 to R257, R270; 30_encoding.md R170). -/

namespace Sys2Proof.Machine

/-- `count[len]`: the number of symbols of length `len` (41_huffman.md R251). -/
def countOf (L : List Nat) (len : Nat) : Nat := L.countP fun l => l == len

/-- `count[1..15]` (41_huffman.md R251). -/
def countsOf (L : List Nat) : List Nat := (List.range' 1 15).map (countOf L)

/-- The capacity loop of 41_huffman.md R250 over `count[1..15]`: the final `left`, or none as soon as it would be negative (R252). -/
def leftLoop : List Nat → Nat → Option Nat
  | [], left => some left
  | count :: rest, left => if 2 * left < count then none else leftLoop rest (2 * left - count)

/-- The symbols of `L`, numbered from `s` on, whose length is `len`, in ascending order. -/
def symbolsOf (len : Nat) : List Nat → Nat → List Nat
  | [], _ => []
  | l :: L, s => if l = len then s :: symbolsOf len L (s + 1) else symbolsOf len L (s + 1)

/-- `symbol[0..used-1]`: by ascending length and, within a length, by ascending symbol value (41_huffman.md R254). The table that
R250's placement loop fills is the same one (stated as an obligation). -/
def symbolTable (L : List Nat) : List Nat := (List.range' 1 15).flatMap fun len => symbolsOf len L 0

/-- `offs[1..15]` of 41_huffman.md R250, listed from length 1 on: where each length's symbols begin, from `at0` on. -/
def offsetsFrom (at0 : Nat) : List Nat → List Nat
  | [] => []
  | count :: rest => at0 :: offsetsFrom (at0 + count) rest

/-- R250's placement loop, word for word: symbol `s` goes to `symbol[offs[L[s]]]`, and that offset moves on. The machine uses
`symbolTable`; this loop is here to be compared with it. -/
def placeLoop : List Nat → Nat → List Nat → List Nat → List Nat
  | [], _, _, symbol => symbol
  | l :: L, s, offs, symbol =>
    if l = 0 then placeLoop L (s + 1) offs symbol
    else placeLoop L (s + 1) (offs.set (l - 1) (offs.getD (l - 1) 0 + 1)) (symbol.set (offs.getD (l - 1) 0) s)

/-- `buildCanonicalTree(L)` (41_huffman.md R250, R256); none stands for `InvalidHuffmanTree`. -/
def buildCanonicalTree (L : List Nat) : Option HTree :=
  match leftLoop (countsOf L) 1 with
  | none => none
  | some left =>
    some { count := countsOf L, symbol := symbolTable L, used := L.length - countOf L 0, left := left }

/-- The lengths of the fixed literal/length tree (41_huffman.md R270). -/
def fixedLitLengths : List Nat :=
  List.replicate 144 8 ++ List.replicate 112 9 ++ List.replicate 24 7 ++ List.replicate 8 8

/-- The lengths of the fixed distance tree (41_huffman.md R270). -/
def fixedDistLengths : List Nat := List.replicate 30 5

/-- FIXED_LIT (41_huffman.md R270). The build does not fail, so the other branch is never the tree's value. -/
def fixedLit : HTree := (buildCanonicalTree fixedLitLengths).getD HTree.noCodes

/-- FIXED_DIST (41_huffman.md R270). -/
def fixedDist : HTree := (buildCanonicalTree fixedDistLengths).getD HTree.noCodes

/-- `first_len` of 41_huffman.md R253, for `len` from 1. -/
def firstCode (L : List Nat) : Nat → Nat
  | 0 => 0
  | 1 => 0
  | len + 1 => 2 * (firstCode L len + countOf L len)

/-- The code of symbol `s`: its `first_len` plus the number of smaller symbols of the same length (41_huffman.md R253). -/
def canonicalCode (L : List Nat) (s : Nat) : Nat :=
  firstCode L (L.getD s 0) + countOf (L.take s) (L.getD s 0)

/-- The `n` low bits of a code, most significant first: the order a code is sent in (41_huffman.md R262). -/
def codeBits : Nat → Nat → List Bool
  | 0, _ => []
  | n + 1, c => (c / 2 ^ n % 2 == 1) :: codeBits n c

/-- The bits of symbol `s` in the canonical code of lengths `L` (41_huffman.md R253, R262). -/
def symbolBits (L : List Nat) (s : Nat) : List Bool := codeBits (L.getD s 0) (canonicalCode L s)

/-- The literal/length tree in use (43_symbols_window.md R352; 10_state.md R31). -/
def litTreeInUse (s : State) : HTree := if s.litSel then s.litTree else fixedLit

/-- The distance tree in use (43_symbols_window.md R357; 10_state.md R31). -/
def distTreeInUse (s : State) : HTree := if s.distSel then s.distTree else fixedDist

/-- The next literal/length symbol, 0..287 (43_symbols_window.md R352). -/
def litSymbol (s : State) : Res Nat := symbolBelow 288 (litTreeInUse s) s

/-- The next distance symbol, 0..31 (43_symbols_window.md R357). -/
def distSymbol (s : State) : Res Nat := symbolBelow 32 (distTreeInUse s) s

/-- The next code-length symbol, 0..18 (42_blocks.md R324). -/
def clSymbol (s : State) : Res Nat := symbolBelow 19 s.clenTree s

end Sys2Proof.Machine
end

