-- ==== Sys2Proof/Machine/Lengths.lean ====
section
/-! DEFINITION. The code-length symbols of a dynamic header, CL_LEN to CL_ZERO_LONG, and the loop that decodes HLIT + HDIST lengths
(42_blocks.md R324 to R328). A symbol is read past its code; its meaning reads the repeat count. -/

namespace Sys2Proof.Machine

/-- `lens[i + j] <- v` for `j` in `0 .. r-1` (42_blocks.md R324). -/
def setRun : Nat → Nat → BitVec 4 → List (BitVec 4) → List (BitVec 4)
  | 0, _, _, lens => lens
  | r + 1, i, v, lens => setRun r (i + 1) v (lens.set i v)

/-- The tail of a code-length symbol: `r` lengths of value `v` at the index, or `TooManyCodeLengths` with none written
(42_blocks.md R324, R328). The loop of R324 never reaches a CL_LEN past the end; a state that stands there fails the same way
(log entry 16). -/
def putLengths (v : BitVec 4) (r : Nat) (s : State) : Res Unit :=
  match s.inner with
  | .lengths hlit hdist i =>
    if hlit + hdist < i + r then .err .tooManyCodeLengths s
    else .val () { s with lens := setRun r i v s.lens, inner := .lengths hlit hdist (i + r) }
  | .none => .stop .symbolOutsideElement
  | .distance _ => .stop .symbolOutsideElement

/-- Symbol 16: repeat the previous length 3 to 6 times; first of all is an error before its extra bits (42_blocks.md R325). -/
def copyPrevious (s : State) : Res Unit :=
  match s.inner with
  | .lengths _ _ i =>
    if i = 0 then .err .invalidRepeatCode s
    else (readBits 2 s).bind fun rep s => putLengths (s.lens.getD (i - 1) 0#4) (3 + rep) s
  | .none => .stop .symbolOutsideElement
  | .distance _ => .stop .symbolOutsideElement

/-- A run of zeros: `base` plus `extra` bits of repeat count (42_blocks.md R326, R327). -/
def zeroRun (base extra : Nat) (s : State) : Res Unit :=
  match s.inner with
  | .lengths _ _ _ => (readBits extra s).bind fun rep s => putLengths 0#4 (base + rep) s
  | .none => .stop .symbolOutsideElement
  | .distance _ => .stop .symbolOutsideElement

/-- CL_LEN (42_blocks.md R324). -/
def execClLen (value : BitVec 4) (s : State) : Host.Outcome State Fault Refusal := finish (putLengths value 1 s)

/-- CL_COPY_PREV (42_blocks.md R325). -/
def execClCopyPrev (s : State) : Host.Outcome State Fault Refusal := finish (copyPrevious s)

/-- CL_ZERO_SHORT (42_blocks.md R326). -/
def execClZeroShort (s : State) : Host.Outcome State Fault Refusal := finish (zeroRun 3 3 s)

/-- CL_ZERO_LONG (42_blocks.md R327). -/
def execClZeroLong (s : State) : Host.Outcome State Fault Refusal := finish (zeroRun 11 7 s)

/-- What one code-length symbol does inside the loop (42_blocks.md R324). -/
def lengthSymbol (sym : Nat) (s : State) : Res Unit :=
  if sym ≤ 15 then putLengths (BitVec.ofNat 4 sym) 1 s
  else if sym = 16 then copyPrevious s
  else if sym = 17 then zeroRun 3 3 s
  else zeroRun 11 7 s

/-- `while i < N` of 42_blocks.md R324. Each symbol adds at least one length, so a fuel of the lengths still to come is enough. -/
def lengthsLoop : Nat → State → Res Unit
  | 0, s => .val () s
  | fuel + 1, s =>
    match s.inner with
    | .lengths hlit hdist i =>
      if i < hlit + hdist then
        ((clSymbol s).bind lengthSymbol).bind fun _ s => lengthsLoop fuel s
      else .val () s
    | .none => .stop .symbolOutsideElement
    | .distance _ => .stop .symbolOutsideElement

end Sys2Proof.Machine
end

