-- ==== Sys2Proof/Machine/Blocks.lean ====
section
/-! DEFINITION. The block-level elements: the four block headers (their three bits are read), the stored body and the dynamic header
(42_blocks.md R300 to R331). -/

namespace Sys2Proof.Machine

/-- BFINAL and BTYPE latched (42_blocks.md R300). -/
def latchHeader (bfinal : BitVec 1) (btype : BitVec 2) (s : State) : State := { s with bfinal := bfinal, btype := btype }

/-- BLOCK_STORED (42_blocks.md R300). -/
def execBlockStored (bfinal : BitVec 1) (s : State) : Host.Outcome State Fault Refusal :=
  .next { latchHeader bfinal 0#2 s with phase := .stored }

/-- BLOCK_FIXED (42_blocks.md R300, R310). -/
def execBlockFixed (bfinal : BitVec 1) (s : State) : Host.Outcome State Fault Refusal :=
  .next { latchHeader bfinal 1#2 s with litSel := false, distSel := false, phase := .fixedCodes }

/-- BLOCK_DYNAMIC (42_blocks.md R300). -/
def execBlockDynamic (bfinal : BitVec 1) (s : State) : Host.Outcome State Fault Refusal :=
  .next { latchHeader bfinal 2#2 s with phase := .dynHeader }

/-- BLOCK_RESERVED: `InvalidBlockType`, with the header latched (42_blocks.md R300, R301). -/
def execBlockReserved (bfinal : BitVec 1) (s : State) : Host.Outcome State Fault Refusal :=
  finish (.err .invalidBlockType (latchHeader bfinal 3#2 s))

/-- The copy of a stored block and its two checks, the input's before the output's (42_blocks.md R306). -/
def storedCopy (len : Nat) (s : State) : Res Unit :=
  let b := s.bitpos.toNat / 8
  if s.inLen.toNat < b + len then .err .unexpectedEndOfInput s
  else if s.outMax.toNat < s.outLen.toNat + len then .err .outputOverflow s
  else .val () (setCursor (s.bitpos.toNat + 8 * len) (storedLoop len b s))

/-- The stored body (42_blocks.md R303 to R307). -/
def storedBody (s : State) : Res Unit :=
  (readBits 16 (alignToByte s)).bind fun len s =>
  (readBits 16 s).bind fun nlen s =>
  if len ≠ nlen ^^^ 0xFFFF then .err .invalidStoredBlockLength s
  else (storedCopy len s).bind fun _ s => .val () (endOfBlock s)

/-- STORED_BODY (42_blocks.md R303). -/
def execStoredBody (s : State) : Host.Outcome State Fault Refusal := finish (storedBody s)

/-- The code-length code lengths, three bits for each symbol of ORDER that is sent; the others stay 0 (42_blocks.md R321). -/
def readClen : List Nat → List Nat → State → Res (List Nat)
  | [], clen, s => .val clen s
  | sym :: rest, clen, s => (readBits 3 s).bind fun len s => readClen rest (clen.set sym len) s

/-- The dynamic tree check (42_blocks.md R330). -/
def checkTree (t : HTree) (s : State) : Res Unit :=
  if 0 < t.left ∧ 1 < t.used then .err .invalidCodeLengths s else .val () s

/-- `lit_tree <- buildCanonicalTree(L)`; after a failed build the store is unspecified (41_huffman.md R252; log entry 8). -/
def buildLitTree (L : List Nat) (s : State) : Res Unit :=
  match buildCanonicalTree L with
  | none => .err .invalidHuffmanTree { s with litTree := Config.freeTree s.draw }
  | some t => checkTree t { s with litTree := t }

/-- `dist_tree <- buildCanonicalTree(L)`; after a failed build the store is unspecified (41_huffman.md R252; log entry 8). -/
def buildDistTree (L : List Nat) (s : State) : Res Unit :=
  match buildCanonicalTree L with
  | none => .err .invalidHuffmanTree { s with distTree := Config.freeTree s.draw }
  | some t => checkTree t { s with distTree := t }

/-- `clen_tree <- buildCanonicalTree(clen)` and nothing checked of it (42_blocks.md R323; log entry 8 for a failed build). -/
def buildClenTree (clen : List Nat) (s : State) : Res Unit :=
  match buildCanonicalTree clen with
  | none => .err .invalidHuffmanTree { s with clenTree := Config.freeTree s.draw }
  | some t => .val () { s with clenTree := t }

/-- The lengths `lens[from .. from + n - 1]` as numbers (42_blocks.md R329). -/
def lensSlice (start n : Nat) (s : State) : List Nat := ((s.lens.drop start).take n).map BitVec.toNat

/-- The end of a dynamic header: both trees built and checked, literal/length first, and the symbol loop entered (42_blocks.md R320,
R329). -/
def dynTrees (s : State) : Res Unit :=
  match s.inner with
  | .lengths hlit hdist _ =>
    (buildLitTree (lensSlice 0 hlit s) s).bind fun _ s =>
    (buildDistTree (lensSlice hlit hdist s) s).bind fun _ s =>
    .val () { s with litSel := true, distSel := true, phase := .dynCodes, inner := .none }
  | .none => .stop .symbolOutsideElement
  | .distance _ => .stop .symbolOutsideElement

/-- The start of a dynamic header: the counts, the code-length code and its tree (42_blocks.md R320 to R323). -/
def dynCounts (s : State) : Res Unit :=
  (readBits 5 s).bind fun hlit5 s =>
  (readBits 5 s).bind fun hdist5 s =>
  (readBits 4 s).bind fun hclen4 s =>
  (readClen (order.take (hclen4 + 4)) (List.replicate 19 0) s).bind fun clen s =>
  (buildClenTree clen s).bind fun _ s =>
  .val () { s with inner := .lengths (hlit5 + 257) (hdist5 + 1) 0 }

/-- The lengths still to come in a dynamic header (42_blocks.md R324). -/
def lengthsToCome (s : State) : Nat :=
  match s.inner with
  | .lengths hlit hdist i => hlit + hdist - i
  | .none => 0
  | .distance _ => 0

/-- The whole dynamic header, one element (42_blocks.md R320; 10_state.md R34). -/
def dynHeader (s : State) : Res Unit :=
  (dynCounts s).bind fun _ s =>
  (lengthsLoop (lengthsToCome s) s).bind fun _ s =>
  dynTrees s

/-- DYN_HEADER (42_blocks.md R320). -/
def execDynHeader (s : State) : Host.Outcome State Fault Refusal := finish (dynHeader s)

end Sys2Proof.Machine
end

