-- ==== Sys2Proof/WellFormed.lean ====
section
/-! DEFINITION. Which terms of Instr are instructions. Every operand is a bit field of its exact width, so the one check left is
that ILLEGAL_CMD carries a word that names no command (30_encoding.md R163, R164). -/

namespace Sys2Proof

/-- The five words that name a command (30_encoding.md R163): NOP, INFLATE, ADLER32, CRC32, RESET. -/
def commandWords : List Word := [0x00000000#32, 0x00000001#32, 0x00000002#32, 0x00000003#32, 0x000000FF#32]

/-- An instruction the formats of 30_encoding.md can carry. -/
def Instr.wellFormed : Instr → Bool
  | .illegalCmd w => !(commandWords.contains w)
  | _ => true

end Sys2Proof
end

