-- ==== Sys2Proof/Decode.lean ====
section
/-! DEFINITION. From the bits of a format to the instruction, and back (30_encoding.md R152 to R164). A Huffman-coded format is
decoded from its symbol: the code itself depends on a tree and is read by `decodeSymbol` (41_huffman.md R260). -/

namespace Sys2Proof

/-- Why a number is no instruction of its format. -/
inductive Reject where
  | headerOver3Bits       -- HDR: h is a 3-bit value (R152)
  | bodyHasNoOpcode       -- STORED, DYNHDR: the only element of their phase, so their opcode has no bits (R153, R154)
  | noCodeLengthSymbol    -- CLSYM: symbols are 0..18 (R162)
  | noLitLenSymbol        -- LLSYM: symbols are 0..287 (R160)
  | noDistanceSymbol      -- DSYM: symbols are 0..31 (R161)
  | commandOver32Bits     -- CMD: a word has 32 bits (R163)
deriving DecidableEq, Repr

/-- Literal/length symbols 257 to 287 in order (30_encoding.md R160). -/
def lengthInstrs : List Instr :=
  [.len257, .len258, .len259, .len260, .len261, .len262, .len263, .len264,
   .len265, .len266, .len267, .len268, .len269, .len270, .len271, .len272,
   .len273, .len274, .len275, .len276, .len277, .len278, .len279, .len280,
   .len281, .len282, .len283, .len284, .len285, .illegalLen286, .illegalLen287]

/-- Distance symbols 0 to 31 in order (30_encoding.md R161). -/
def distanceInstrs : List Instr :=
  [.dist0, .dist1, .dist2, .dist3, .dist4, .dist5, .dist6, .dist7,
   .dist8, .dist9, .dist10, .dist11, .dist12, .dist13, .dist14, .dist15,
   .dist16, .dist17, .dist18, .dist19, .dist20, .dist21, .dist22, .dist23,
   .dist24, .dist25, .dist26, .dist27, .dist28, .dist29, .illegalDist30, .illegalDist31]

/-- HDR: `h = BFINAL + 2 * BTYPE` (30_encoding.md R152, R159). -/
def decodeHdr (h : Nat) : Except Reject Instr :=
  if 8 ≤ h then .error .headerOver3Bits
  else if h / 2 = 0 then .ok (.blockStored (BitVec.ofNat 1 h))
  else if h / 2 = 1 then .ok (.blockFixed (BitVec.ofNat 1 h))
  else if h / 2 = 2 then .ok (.blockDynamic (BitVec.ofNat 1 h))
  else .ok (.blockReserved (BitVec.ofNat 1 h))

/-- CLSYM: the code-length symbol (30_encoding.md R162). -/
def decodeClsym (sym : Nat) : Except Reject Instr :=
  if sym ≤ 15 then .ok (.clLen (BitVec.ofNat 4 sym))
  else if sym = 16 then .ok .clCopyPrev
  else if sym = 17 then .ok .clZeroShort
  else if sym = 18 then .ok .clZeroLong
  else .error .noCodeLengthSymbol

/-- LLSYM: the literal/length symbol (30_encoding.md R160). -/
def decodeLlsym (sym : Nat) : Except Reject Instr :=
  if sym ≤ 255 then .ok (.lit (BitVec.ofNat 8 sym))
  else if sym = 256 then .ok .eob
  else match lengthInstrs[sym - 257]? with
    | some i => .ok i
    | none => .error .noLitLenSymbol

/-- DSYM: the distance symbol (30_encoding.md R161). -/
def decodeDsym (sym : Nat) : Except Reject Instr :=
  match distanceInstrs[sym]? with
  | some i => .ok i
  | none => .error .noDistanceSymbol

/-- CMD: total on words, every word that names no command is ILLEGAL_CMD (30_encoding.md R163; 45_commands.md R450, R458). -/
def decodeCmd (w : Word) : Instr :=
  if w = 0x00000000#32 then .nop
  else if w = 0x00000001#32 then .inflate
  else if w = 0x00000002#32 then .adler32
  else if w = 0x00000003#32 then .crc32
  else if w = 0x000000FF#32 then .reset
  else .illegalCmd w

/-- The instruction whose opcode bits are `w` in format `f`; total, and rejecting by name. STORED_BODY and DYN_HEADER have no
opcode bits: they are selected by their phase, so only the empty opcode 0 selects them. -/
def decode (f : Format) (w : Nat) : Except Reject Instr :=
  match f with
  | .hdr => decodeHdr w
  | .stored => if w = 0 then .ok .storedBody else .error .bodyHasNoOpcode
  | .dynhdr => if w = 0 then .ok .dynHeader else .error .bodyHasNoOpcode
  | .clsym => decodeClsym w
  | .llsym => decodeLlsym w
  | .dsym => decodeDsym w
  | .cmd => if w < 2 ^ 32 then .ok (decodeCmd (BitVec.ofNat 32 w)) else .error .commandOver32Bits

/-- The format an instruction is written in (the table's column `format`). -/
def Instr.format : Instr → Format
  | .blockStored _ | .blockFixed _ | .blockDynamic _ | .blockReserved _ => .hdr
  | .storedBody => .stored
  | .dynHeader => .dynhdr
  | .clLen _ | .clCopyPrev | .clZeroShort | .clZeroLong => .clsym
  | .nop | .inflate | .adler32 | .crc32 | .reset | .illegalCmd _ => .cmd
  | .lit _ | .eob => .llsym
  | .len257 | .len258 | .len259 | .len260 | .len261 | .len262 | .len263 | .len264 | .len265 | .len266
  | .len267 | .len268 | .len269 | .len270 | .len271 | .len272 | .len273 | .len274 | .len275 | .len276
  | .len277 | .len278 | .len279 | .len280 | .len281 | .len282 | .len283 | .len284 | .len285 | .illegalLen286 | .illegalLen287 => .llsym
  | .dist0 | .dist1 | .dist2 | .dist3 | .dist4 | .dist5 | .dist6 | .dist7 | .dist8 | .dist9 | .dist10 | .dist11
  | .dist12 | .dist13 | .dist14 | .dist15 | .dist16 | .dist17 | .dist18 | .dist19 | .dist20 | .dist21
  | .dist22 | .dist23 | .dist24 | .dist25 | .dist26 | .dist27 | .dist28 | .dist29 | .illegalDist30 | .illegalDist31 => .dsym

/-- The opcode bits of an instruction in its format, as a number (the table's columns `match` and `fields`). -/
def encode : Instr → Nat
  | .blockStored f => f.toNat
  | .blockFixed f => f.toNat + 2
  | .blockDynamic f => f.toNat + 4
  | .blockReserved f => f.toNat + 6
  | .storedBody => 0
  | .dynHeader => 0
  | .clLen v => v.toNat
  | .clCopyPrev => 16
  | .clZeroShort => 17
  | .clZeroLong => 18
  | .lit b => b.toNat
  | .eob => 256
  | .len257 => 257
  | .len258 => 258
  | .len259 => 259
  | .len260 => 260
  | .len261 => 261
  | .len262 => 262
  | .len263 => 263
  | .len264 => 264
  | .len265 => 265
  | .len266 => 266
  | .len267 => 267
  | .len268 => 268
  | .len269 => 269
  | .len270 => 270
  | .len271 => 271
  | .len272 => 272
  | .len273 => 273
  | .len274 => 274
  | .len275 => 275
  | .len276 => 276
  | .len277 => 277
  | .len278 => 278
  | .len279 => 279
  | .len280 => 280
  | .len281 => 281
  | .len282 => 282
  | .len283 => 283
  | .len284 => 284
  | .len285 => 285
  | .illegalLen286 => 286
  | .illegalLen287 => 287
  | .dist0 => 0
  | .dist1 => 1
  | .dist2 => 2
  | .dist3 => 3
  | .dist4 => 4
  | .dist5 => 5
  | .dist6 => 6
  | .dist7 => 7
  | .dist8 => 8
  | .dist9 => 9
  | .dist10 => 10
  | .dist11 => 11
  | .dist12 => 12
  | .dist13 => 13
  | .dist14 => 14
  | .dist15 => 15
  | .dist16 => 16
  | .dist17 => 17
  | .dist18 => 18
  | .dist19 => 19
  | .dist20 => 20
  | .dist21 => 21
  | .dist22 => 22
  | .dist23 => 23
  | .dist24 => 24
  | .dist25 => 25
  | .dist26 => 26
  | .dist27 => 27
  | .dist28 => 28
  | .dist29 => 29
  | .illegalDist30 => 30
  | .illegalDist31 => 31
  | .nop => 0x00000000
  | .inflate => 0x00000001
  | .adler32 => 0x00000002
  | .crc32 => 0x00000003
  | .reset => 0x000000FF
  | .illegalCmd w => w.toNat

/-- The number of opcode bits a format has (the table's column `width`; the two bodies have none of their own). -/
def Format.width : Format → Nat
  | .hdr => 3
  | .stored => 0
  | .dynhdr => 0
  | .clsym => 5
  | .llsym => 9
  | .dsym => 5
  | .cmd => 32

/-- The format the host's table word stands for: the opcode table numbers symbols, not stream bits, so a word alone names a row
only together with a format, and the word's length is the one clue to it (log entry 6: DESIGN CHOICE). Words of 17 bits or more
are CMD, of 9 to 16 bits LLSYM, of 1 to 3 bits HDR, of 4 to 7 bits CLSYM where the symbol is one and DSYM otherwise. A word of 8
bits is HDR when it is the `match` of an HDR row (0, 2, 4, 6), CLSYM for 16, 17, 18, and DSYM otherwise. -/
def tableFormat (nbits w : Nat) : Format :=
  if 17 ≤ nbits then .cmd
  else if 9 ≤ nbits then .llsym
  else if nbits ≤ 3 then .hdr
  else if nbits ≤ 7 then (if w ≤ 18 then .clsym else .dsym)
  else if w = 0 ∨ w = 2 ∨ w = 4 ∨ w = 6 then .hdr
  else if w = 16 ∨ w = 17 ∨ w = 18 then .clsym
  else .dsym

/-- The instruction the decoder reads from a table word of `nbits` bits (log entry 6). -/
def decodeTableWord (nbits w : Nat) : Option Instr :=
  match decode (tableFormat nbits w) w with
  | .ok i => some i
  | .error _ => none

end Sys2Proof
end

