-- ==== Sys2Proof/Machine/Flags.lean ====
section
/-! DEFINITION. The words the host reads in the registers, field by field, the IRQ line, and what a write of each register stores
(10_state.md R40 to R60; 60_exceptions.md R500, R501, R530; 70_reset_and_hazards.md R620). -/

namespace Sys2Proof.Machine

/-- ERRCODE.CODE of an error (60_exceptions.md R500). -/
def Err.code : Err → BitVec 8
  | .unexpectedEndOfInput => 1#8
  | .invalidBlockType => 2#8
  | .invalidStoredBlockLength => 3#8
  | .invalidHuffmanTree => 4#8
  | .invalidCodeLengths => 5#8
  | .invalidRepeatCode => 6#8
  | .tooManyCodeLengths => 7#8
  | .invalidCode => 8#8
  | .invalidLengthSymbol => 9#8
  | .invalidDistanceSymbol => 10#8
  | .distanceTooFar => 11#8
  | .needPresetDictionary => 12#8
  | .outputOverflow => 13#8
  | .illegalCommand => 14#8
  | .checksumRange => 15#8

/-- ERRCODE.CLASS of an error: 1 StructuralError, 2 HuffmanTreeError, 3 BackReferenceError, 4 UnsupportedFeature, 5 IOError
(60_exceptions.md R500, R501). -/
def Err.errClass : Err → BitVec 3
  | .unexpectedEndOfInput => 5#3
  | .invalidBlockType => 4#3
  | .invalidStoredBlockLength => 1#3
  | .invalidHuffmanTree => 2#3
  | .invalidCodeLengths => 2#3
  | .invalidRepeatCode => 1#3
  | .tooManyCodeLengths => 1#3
  | .invalidCode => 1#3
  | .invalidLengthSymbol => 1#3
  | .invalidDistanceSymbol => 1#3
  | .distanceTooFar => 3#3
  | .needPresetDictionary => 4#3
  | .outputOverflow => 5#3
  | .illegalCommand => 4#3
  | .checksumRange => 5#3

/-- STATUS.STATE, from `phase` (10_state.md R42). -/
def stateField : Phase → BitVec 3
  | .idle => 0#3
  | .header => 1#3
  | .stored => 2#3
  | .fixedCodes => 3#3
  | .dynHeader => 4#3
  | .dynCodes => 4#3
  | .done => 5#3
  | .error => 6#3

/-- The OP of a command, as STATUS.LASTOP shows it; 0 before any command is accepted (10_state.md R42). -/
def lastOpField : Option Command → BitVec 8
  | none => 0x00#8
  | some .inflate => 0x01#8
  | some .adler32 => 0x02#8
  | some .crc32 => 0x03#8

/-- STATUS (10_state.md R42). -/
def statusWord (s : State) : Word :=
  (0#16 ++ lastOpField s.lastOp ++ 0#2 ++ BitVec.ofBool s.ok ++ BitVec.ofBool s.err ++ stateField s.phase ++ BitVec.ofBool s.busy : BitVec 32)

/-- ERRCODE (10_state.md R43). -/
def errcodeWord (s : State) : Word :=
  match s.error with
  | none => 0#32
  | some e => (0#21 ++ e.errClass ++ e.code : BitVec 32)

/-- CTRL (10_state.md R44). -/
def ctrlWord (s : State) : Word := (0#31 ++ BitVec.ofBool s.dictReq : BitVec 32)

/-- INT_STATUS (10_state.md R52). -/
def intStatusWord (s : State) : Word := (0#30 ++ BitVec.ofBool s.intErr ++ BitVec.ofBool s.intDone : BitVec 32)

/-- INT_ENABLE (10_state.md R53). -/
def intEnableWord (s : State) : Word := (0#30 ++ BitVec.ofBool s.errEn ++ BitVec.ofBool s.doneEn : BitVec 32)

/-- BLKINFO (10_state.md R51). -/
def blkinfoWord (s : State) : Word := (s.blkcnt ++ 0#5 ++ s.btype ++ s.bfinal : BitVec 32)

/-- IN_CONSUMED: `ceil(BITPOS / 8)` (10_state.md R47). -/
def inConsumedWord (s : State) : Word := BitVec.ofNat 32 ((s.bitpos.toNat + 7) / 8)

/-- The interrupt line (60_exceptions.md R530). -/
def irq (s : State) : Bool := (s.intDone && s.doneEn) || (s.intErr && s.errEn)

/-- A 32-bit read of the register at a byte offset that is a multiple of 4; reserved offsets read 0 (10_state.md R40, R60). -/
def regRead (s : State) (off : Nat) : Word :=
  if off = 0x04 then statusWord s
  else if off = 0x08 then errcodeWord s
  else if off = 0x0C then ctrlWord s
  else if off = 0x10 then intStatusWord s
  else if off = 0x14 then intEnableWord s
  else if off = 0x18 then s.inStart.setWidth 32
  else if off = 0x1C then s.inLen.setWidth 32
  else if off = 0x20 then s.dictLen.setWidth 32
  else if off = 0x24 then s.outLen.setWidth 32
  else if off = 0x28 then s.bitpos.setWidth 32
  else if off = 0x2C then inConsumedWord s
  else if off = 0x30 then blkinfoWord s
  else if off = 0x34 then s.ckSrc.setWidth 32
  else if off = 0x38 then s.ckOff
  else if off = 0x3C then s.ckLen
  else if off = 0x40 then s.adlerSeed
  else if off = 0x44 then s.crcSeed
  else if off = 0x48 then s.ckResult
  else 0#32

/-- The write of a 1 to a bit of INT_STATUS clears it (10_state.md R52). -/
def clearInterrupts (v : Word) (s : State) : State :=
  { s with intDone := s.intDone && !v.getLsbD 0, intErr := s.intErr && !v.getLsbD 1 }

/-- A 32-bit write of `v` to the RW or WARL register at an offset, while idle (10_state.md R44 to R46, R50, R53 to R58); every other
offset is RO or reserved and ignores it (R40, R60). CMD and INT_STATUS are not here. -/
def configWrite (off : Nat) (v : Word) (s : State) : State :=
  if off = 0x0C then { s with dictReq := v.getLsbD 0 }
  else if off = 0x14 then { s with doneEn := v.getLsbD 0, errEn := v.getLsbD 1 }
  else if off = 0x18 then { s with inStart := v.setWidth 24 }
  else if off = 0x1C then { s with inLen := BitVec.ofNat 25 (min v.toNat s.inMax.toNat) }
  else if off = 0x20 then { s with dictLen := BitVec.ofNat 17 (min v.toNat Config.dictMax) }
  else if off = 0x34 then { s with ckSrc := v.setWidth 2 }
  else if off = 0x38 then { s with ckOff := v }
  else if off = 0x3C then { s with ckLen := v }
  else if off = 0x40 then { s with adlerSeed := v }
  else if off = 0x44 then { s with crcSeed := v }
  else s

/-- A 32-bit write to a register other than CMD (70_reset_and_hazards.md R620): INT_STATUS is honoured at all times, the rest only
while idle. -/
def regWrite (off : Nat) (v : Word) (s : State) : State :=
  if off = 0x10 then clearInterrupts v s
  else if s.busy then s
  else configWrite off v s

end Sys2Proof.Machine
end

