-- ==== Sys2Proof/Machine/Bus.lean ====
section
/-! DEFINITION. The host bus: the address map, little-endian reads and writes of 1, 2 or 4 bytes, and the issue of a command
(20_memory.md R105 to R107, R114; 45_commands.md R450, R451; 70_reset_and_hazards.md R620, R621). -/

namespace Sys2Proof.Machine

/-- What stands at a bus address (20_memory.md R105). -/
inductive Region where
  | registers
  | byteOf (sp : Space) (i : Nat)
  | unmapped
deriving DecidableEq, Repr

/-- The address map (20_memory.md R105). -/
def regionOf (s : State) (a : Nat) : Region :=
  if a < 0x100 then .registers
  else if 0x00010000 ≤ a ∧ a < 0x00010000 + Config.dictMax then .byteOf .dict (a - 0x00010000)
  else if 0x01000000 ≤ a ∧ a < 0x01000000 + s.inMax.toNat then .byteOf .inp (a - 0x01000000)
  else if 0x02000000 ≤ a ∧ a < 0x02000000 + s.outMax.toNat then .byteOf .out (a - 0x02000000)
  else .unmapped

/-- The bytes of an access (20_memory.md R106). -/
def Width.bytes : Width → Nat
  | .b1 => 1
  | .b2 => 2
  | .b4 => 4

/-- One byte of a host read outside the register region: unmapped bytes read 0, and so does a register byte, which only an aligned
32-bit access reaches (20_memory.md R105, R107). OUT at or above OUT_LEN is a free value (R102; log entry 9). -/
def busByte (s : State) (a : Nat) : Byte :=
  match regionOf s a with
  | .byteOf .out i => if i < s.outLen.toNat then byteAt s .out i else Config.staleOut s.draw i
  | .byteOf .inp i => byteAt s .inp i
  | .byteOf .dict i => byteAt s .dict i
  | .registers => 0#8
  | .unmapped => 0#8

/-- The little-endian sum of `n` bytes from address `a` on (20_memory.md R106). -/
def busBytes (s : State) : Nat → Nat → Nat
  | _, 0 => 0
  | a, n + 1 => (busByte s a).toNat + 256 * busBytes s (a + 1) n

/-- `MemRead(a, n)` (20_memory.md R106, R107). -/
def memRead (s : State) (a : Word) (n : Width) : Word :=
  if a.toNat < 0x100 then
    (if n = .b4 ∧ a.toNat % 4 = 0 then regRead s a.toNat else 0#32)
  else BitVec.ofNat 32 (busBytes s a.toNat n.bytes)

/-- One byte of a host write: IN and DICT take it, everything else ignores it (20_memory.md R102, R105). -/
def busPut (a : Nat) (b : Byte) (s : State) : State :=
  match regionOf s a with
  | .byteOf .inp i => { s with inMem := Memory.write s.inMem i b }
  | .byteOf .dict i => { s with dictMem := Memory.write s.dictMem i b }
  | .byteOf .out _ => s
  | .registers => s
  | .unmapped => s

/-- The bytes of `v`, least significant first, to `n` addresses from `a` on (20_memory.md R106). -/
def busPuts : Nat → Nat → Nat → State → State
  | _, 0, _, s => s
  | a, n + 1, v, s => busPuts (a + 1) n (v / 256) (busPut a (BitVec.ofNat 8 v) s)

/-- Whether an access of `n` bytes from `a` on meets a byte of IN or DICT. -/
def touchesInput (s : State) : Nat → Nat → Bool
  | _, 0 => false
  | a, n + 1 =>
    (match regionOf s a with
      | .byteOf .inp _ => true
      | .byteOf .dict _ => true
      | .byteOf .out _ => false
      | .registers => false
      | .unmapped => false) || touchesInput s (a + 1) n

/-- What the machine does next: run an instruction on a state, a move that is already made, or a stop of the model. -/
inductive Move where
  | run (i : Instr) (s : State)
  | made (s : State)
  | fault (f : Fault)
  | refused (r : Refusal)
deriving DecidableEq, Repr

/-- A host write of `w` to CMD (45_commands.md R450): while busy only RESET is taken; INFLATE, ADLER32 and CRC32 are accepted (R451),
and their element is the core's next move; NOP, RESET and an illegal word run at once. -/
def issue (w : Word) (s : State) : Move :=
  if s.busy then (if w = 0x000000FF#32 then .run .reset s else .made s)
  else
    let i := decodeCmd w
    if i = .inflate then .made (accept .inflate s)
    else if i = .adler32 then .made (accept .adler32 s)
    else if i = .crc32 then .made (accept .crc32 s)
    else .run i s

/-- `MemWrite(a, n, v)` (20_memory.md R106, R107; 70_reset_and_hazards.md R620, R621). -/
def memWrite (a : Word) (n : Width) (v : Word) (s : State) : Move :=
  if a.toNat < 0x100 then
    (if n = .b4 ∧ a.toNat % 4 = 0 then
      (if a.toNat = 0 then issue v s else .made (regWrite a.toNat v s))
     else .made s)
  else if s.busy ∧ touchesInput s a.toNat n.bytes then .refused .inputWriteWhileBusy
  else .made (busPuts a.toNat n.bytes v.toNat s)

end Sys2Proof.Machine
end

