-- ==== Sys2Proof/Machine/Distances.lean ====
section
/-! DEFINITION. The distance symbols, DIST_0 to DIST_29 and the two illegal ones (43_symbols_window.md R356 to R362): the part of a
back-reference that follows the distance code. The length stands in `inner`. -/

namespace Sys2Proof.Machine

/-- The checks and the copy of a back-reference, the distance's check before the output's (43_symbols_window.md R357, R358, R360,
R366). -/
def copyMatch (length distance : Nat) (s : State) : Res Unit :=
  if s.hlen < distance then .err .distanceTooFar s
  else if s.outMax.toNat < s.outLen.toNat + length then .err .outputOverflow s
  else .val () { copyLoop length distance s with inner := .none }

/-- A back-reference from its distance symbol on (43_symbols_window.md R357): symbols 30 and 31 fail before any extra bits (R356). -/
def distanceSymbol (dsym : Nat) (s : State) : Res Unit :=
  match s.inner with
  | .distance length =>
    if 30 ≤ dsym then .err .invalidDistanceSymbol s
    else (readBits (dext.getD dsym 0) s).bind fun dx s => copyMatch length (dbase.getD dsym 0 + dx) s
  | .none => .stop .symbolOutsideElement
  | .lengths _ _ _ => .stop .symbolOutsideElement

/-- DIST_0: distance 1 (43_symbols_window.md R357, R362). -/
def execDist0 (s : State) : Host.Outcome State Fault Refusal := finish (distanceSymbol 0 s)

/-- DIST_1: distance 2 (43_symbols_window.md R357, R362). -/
def execDist1 (s : State) : Host.Outcome State Fault Refusal := finish (distanceSymbol 1 s)

/-- DIST_2: distance 3 (43_symbols_window.md R357, R362). -/
def execDist2 (s : State) : Host.Outcome State Fault Refusal := finish (distanceSymbol 2 s)

/-- DIST_3: distance 4 (43_symbols_window.md R357, R362). -/
def execDist3 (s : State) : Host.Outcome State Fault Refusal := finish (distanceSymbol 3 s)

/-- DIST_4: distance 5 to 6 (43_symbols_window.md R357, R362). -/
def execDist4 (s : State) : Host.Outcome State Fault Refusal := finish (distanceSymbol 4 s)

/-- DIST_5: distance 7 to 8 (43_symbols_window.md R357, R362). -/
def execDist5 (s : State) : Host.Outcome State Fault Refusal := finish (distanceSymbol 5 s)

/-- DIST_6: distance 9 to 12 (43_symbols_window.md R357, R362). -/
def execDist6 (s : State) : Host.Outcome State Fault Refusal := finish (distanceSymbol 6 s)

/-- DIST_7: distance 13 to 16 (43_symbols_window.md R357, R362). -/
def execDist7 (s : State) : Host.Outcome State Fault Refusal := finish (distanceSymbol 7 s)

/-- DIST_8: distance 17 to 24 (43_symbols_window.md R357, R362). -/
def execDist8 (s : State) : Host.Outcome State Fault Refusal := finish (distanceSymbol 8 s)

/-- DIST_9: distance 25 to 32 (43_symbols_window.md R357, R362). -/
def execDist9 (s : State) : Host.Outcome State Fault Refusal := finish (distanceSymbol 9 s)

/-- DIST_10: distance 33 to 48 (43_symbols_window.md R357, R362). -/
def execDist10 (s : State) : Host.Outcome State Fault Refusal := finish (distanceSymbol 10 s)

/-- DIST_11: distance 49 to 64 (43_symbols_window.md R357, R362). -/
def execDist11 (s : State) : Host.Outcome State Fault Refusal := finish (distanceSymbol 11 s)

/-- DIST_12: distance 65 to 96 (43_symbols_window.md R357, R362). -/
def execDist12 (s : State) : Host.Outcome State Fault Refusal := finish (distanceSymbol 12 s)

/-- DIST_13: distance 97 to 128 (43_symbols_window.md R357, R362). -/
def execDist13 (s : State) : Host.Outcome State Fault Refusal := finish (distanceSymbol 13 s)

/-- DIST_14: distance 129 to 192 (43_symbols_window.md R357, R362). -/
def execDist14 (s : State) : Host.Outcome State Fault Refusal := finish (distanceSymbol 14 s)

/-- DIST_15: distance 193 to 256 (43_symbols_window.md R357, R362). -/
def execDist15 (s : State) : Host.Outcome State Fault Refusal := finish (distanceSymbol 15 s)

/-- DIST_16: distance 257 to 384 (43_symbols_window.md R357, R362). -/
def execDist16 (s : State) : Host.Outcome State Fault Refusal := finish (distanceSymbol 16 s)

/-- DIST_17: distance 385 to 512 (43_symbols_window.md R357, R362). -/
def execDist17 (s : State) : Host.Outcome State Fault Refusal := finish (distanceSymbol 17 s)

/-- DIST_18: distance 513 to 768 (43_symbols_window.md R357, R362). -/
def execDist18 (s : State) : Host.Outcome State Fault Refusal := finish (distanceSymbol 18 s)

/-- DIST_19: distance 769 to 1024 (43_symbols_window.md R357, R362). -/
def execDist19 (s : State) : Host.Outcome State Fault Refusal := finish (distanceSymbol 19 s)

/-- DIST_20: distance 1025 to 1536 (43_symbols_window.md R357, R362). -/
def execDist20 (s : State) : Host.Outcome State Fault Refusal := finish (distanceSymbol 20 s)

/-- DIST_21: distance 1537 to 2048 (43_symbols_window.md R357, R362). -/
def execDist21 (s : State) : Host.Outcome State Fault Refusal := finish (distanceSymbol 21 s)

/-- DIST_22: distance 2049 to 3072 (43_symbols_window.md R357, R362). -/
def execDist22 (s : State) : Host.Outcome State Fault Refusal := finish (distanceSymbol 22 s)

/-- DIST_23: distance 3073 to 4096 (43_symbols_window.md R357, R362). -/
def execDist23 (s : State) : Host.Outcome State Fault Refusal := finish (distanceSymbol 23 s)

/-- DIST_24: distance 4097 to 6144 (43_symbols_window.md R357, R362). -/
def execDist24 (s : State) : Host.Outcome State Fault Refusal := finish (distanceSymbol 24 s)

/-- DIST_25: distance 6145 to 8192 (43_symbols_window.md R357, R362). -/
def execDist25 (s : State) : Host.Outcome State Fault Refusal := finish (distanceSymbol 25 s)

/-- DIST_26: distance 8193 to 12288 (43_symbols_window.md R357, R362). -/
def execDist26 (s : State) : Host.Outcome State Fault Refusal := finish (distanceSymbol 26 s)

/-- DIST_27: distance 12289 to 16384 (43_symbols_window.md R357, R362). -/
def execDist27 (s : State) : Host.Outcome State Fault Refusal := finish (distanceSymbol 27 s)

/-- DIST_28: distance 16385 to 24576 (43_symbols_window.md R357, R362). -/
def execDist28 (s : State) : Host.Outcome State Fault Refusal := finish (distanceSymbol 28 s)

/-- DIST_29: distance 24577 to 32768 (43_symbols_window.md R357, R362). -/
def execDist29 (s : State) : Host.Outcome State Fault Refusal := finish (distanceSymbol 29 s)

/-- ILLEGAL_DIST_30: `InvalidDistanceSymbol` (43_symbols_window.md R356). -/
def execIllegalDist30 (s : State) : Host.Outcome State Fault Refusal := finish (distanceSymbol 30 s)

/-- ILLEGAL_DIST_31: `InvalidDistanceSymbol` (43_symbols_window.md R356). -/
def execIllegalDist31 (s : State) : Host.Outcome State Fault Refusal := finish (distanceSymbol 31 s)

end Sys2Proof.Machine
end

