-- ==== Sys2Proof/Machine/Symbols.lean ====
section
/-! DEFINITION. The literal/length symbols: LIT, EOB, LEN_257 to LEN_285 and the two illegal ones (43_symbols_window.md R352 to R357).
A symbol is read past its code. -/

namespace Sys2Proof.Machine

/-- A literal (43_symbols_window.md R353). -/
def literal (byte : Byte) (s : State) : Res Unit :=
  if s.outMax.toNat < s.outLen.toNat + 1 then .err .outputOverflow s else .val () (outAppend byte s)

/-- LIT (43_symbols_window.md R353). -/
def execLit (byte : Byte) (s : State) : Host.Outcome State Fault Refusal := finish (literal byte s)

/-- EOB: the end of block (43_symbols_window.md R354; 42_blocks.md R302). -/
def execEob (s : State) : Host.Outcome State Fault Refusal := finish (.val () (endOfBlock s))

/-- The length of a back-reference: `LBASE[k] + readBits(LEXT[k])`, which the rest of the element uses (43_symbols_window.md R357). -/
def lengthPart (sym : Nat) (s : State) : Res Unit :=
  (readBits (lext.getD (sym - 257) 0) s).bind fun lx s =>
  .val () { s with inner := .distance (lbase.getD (sym - 257) 0 + lx) }

/-- A whole back-reference, one element: length, distance and copy (43_symbols_window.md R357; 10_state.md R34). -/
def backReference (sym : Nat) (s : State) : Res Unit :=
  (lengthPart sym s).bind fun _ s => (distSymbol s).bind distanceSymbol

/-- LEN_257: a back-reference of length 3 (43_symbols_window.md R357, R361). -/
def execLen257 (s : State) : Host.Outcome State Fault Refusal := finish (backReference 257 s)

/-- LEN_258: a back-reference of length 4 (43_symbols_window.md R357, R361). -/
def execLen258 (s : State) : Host.Outcome State Fault Refusal := finish (backReference 258 s)

/-- LEN_259: a back-reference of length 5 (43_symbols_window.md R357, R361). -/
def execLen259 (s : State) : Host.Outcome State Fault Refusal := finish (backReference 259 s)

/-- LEN_260: a back-reference of length 6 (43_symbols_window.md R357, R361). -/
def execLen260 (s : State) : Host.Outcome State Fault Refusal := finish (backReference 260 s)

/-- LEN_261: a back-reference of length 7 (43_symbols_window.md R357, R361). -/
def execLen261 (s : State) : Host.Outcome State Fault Refusal := finish (backReference 261 s)

/-- LEN_262: a back-reference of length 8 (43_symbols_window.md R357, R361). -/
def execLen262 (s : State) : Host.Outcome State Fault Refusal := finish (backReference 262 s)

/-- LEN_263: a back-reference of length 9 (43_symbols_window.md R357, R361). -/
def execLen263 (s : State) : Host.Outcome State Fault Refusal := finish (backReference 263 s)

/-- LEN_264: a back-reference of length 10 (43_symbols_window.md R357, R361). -/
def execLen264 (s : State) : Host.Outcome State Fault Refusal := finish (backReference 264 s)

/-- LEN_265: a back-reference of length 11 to 12 (43_symbols_window.md R357, R361). -/
def execLen265 (s : State) : Host.Outcome State Fault Refusal := finish (backReference 265 s)

/-- LEN_266: a back-reference of length 13 to 14 (43_symbols_window.md R357, R361). -/
def execLen266 (s : State) : Host.Outcome State Fault Refusal := finish (backReference 266 s)

/-- LEN_267: a back-reference of length 15 to 16 (43_symbols_window.md R357, R361). -/
def execLen267 (s : State) : Host.Outcome State Fault Refusal := finish (backReference 267 s)

/-- LEN_268: a back-reference of length 17 to 18 (43_symbols_window.md R357, R361). -/
def execLen268 (s : State) : Host.Outcome State Fault Refusal := finish (backReference 268 s)

/-- LEN_269: a back-reference of length 19 to 22 (43_symbols_window.md R357, R361). -/
def execLen269 (s : State) : Host.Outcome State Fault Refusal := finish (backReference 269 s)

/-- LEN_270: a back-reference of length 23 to 26 (43_symbols_window.md R357, R361). -/
def execLen270 (s : State) : Host.Outcome State Fault Refusal := finish (backReference 270 s)

/-- LEN_271: a back-reference of length 27 to 30 (43_symbols_window.md R357, R361). -/
def execLen271 (s : State) : Host.Outcome State Fault Refusal := finish (backReference 271 s)

/-- LEN_272: a back-reference of length 31 to 34 (43_symbols_window.md R357, R361). -/
def execLen272 (s : State) : Host.Outcome State Fault Refusal := finish (backReference 272 s)

/-- LEN_273: a back-reference of length 35 to 42 (43_symbols_window.md R357, R361). -/
def execLen273 (s : State) : Host.Outcome State Fault Refusal := finish (backReference 273 s)

/-- LEN_274: a back-reference of length 43 to 50 (43_symbols_window.md R357, R361). -/
def execLen274 (s : State) : Host.Outcome State Fault Refusal := finish (backReference 274 s)

/-- LEN_275: a back-reference of length 51 to 58 (43_symbols_window.md R357, R361). -/
def execLen275 (s : State) : Host.Outcome State Fault Refusal := finish (backReference 275 s)

/-- LEN_276: a back-reference of length 59 to 66 (43_symbols_window.md R357, R361). -/
def execLen276 (s : State) : Host.Outcome State Fault Refusal := finish (backReference 276 s)

/-- LEN_277: a back-reference of length 67 to 82 (43_symbols_window.md R357, R361). -/
def execLen277 (s : State) : Host.Outcome State Fault Refusal := finish (backReference 277 s)

/-- LEN_278: a back-reference of length 83 to 98 (43_symbols_window.md R357, R361). -/
def execLen278 (s : State) : Host.Outcome State Fault Refusal := finish (backReference 278 s)

/-- LEN_279: a back-reference of length 99 to 114 (43_symbols_window.md R357, R361). -/
def execLen279 (s : State) : Host.Outcome State Fault Refusal := finish (backReference 279 s)

/-- LEN_280: a back-reference of length 115 to 130 (43_symbols_window.md R357, R361). -/
def execLen280 (s : State) : Host.Outcome State Fault Refusal := finish (backReference 280 s)

/-- LEN_281: a back-reference of length 131 to 162 (43_symbols_window.md R357, R361). -/
def execLen281 (s : State) : Host.Outcome State Fault Refusal := finish (backReference 281 s)

/-- LEN_282: a back-reference of length 163 to 194 (43_symbols_window.md R357, R361). -/
def execLen282 (s : State) : Host.Outcome State Fault Refusal := finish (backReference 282 s)

/-- LEN_283: a back-reference of length 195 to 226 (43_symbols_window.md R357, R361). -/
def execLen283 (s : State) : Host.Outcome State Fault Refusal := finish (backReference 283 s)

/-- LEN_284: a back-reference of length 227 to 258 (43_symbols_window.md R357, R361). -/
def execLen284 (s : State) : Host.Outcome State Fault Refusal := finish (backReference 284 s)

/-- LEN_285: a back-reference of length 258 (43_symbols_window.md R357, R361). -/
def execLen285 (s : State) : Host.Outcome State Fault Refusal := finish (backReference 285 s)

/-- ILLEGAL_LEN_286: `InvalidLengthSymbol` before any extra bits (43_symbols_window.md R355). -/
def execIllegalLen286 (s : State) : Host.Outcome State Fault Refusal := finish (.err .invalidLengthSymbol s)

/-- ILLEGAL_LEN_287: `InvalidLengthSymbol` before any extra bits (43_symbols_window.md R355). -/
def execIllegalLen287 (s : State) : Host.Outcome State Fault Refusal := finish (.err .invalidLengthSymbol s)

end Sys2Proof.Machine
end

