-- ==== Sys2Proof/Machine/Fetch.lean ====
section
/-! DEFINITION. Who moves next and what it runs: the core's next element by `phase` (45_commands.md R454; 42_blocks.md R299) with its
opcode bits read, or the host's next access (20_memory.md R121). -/

namespace Sys2Proof.Machine

/-- A symbol or header that has been read, as the instruction to run; an error on the way ends the element (60_exceptions.md R520). -/
def decoded (f : Format) (r : Res Nat) : Move :=
  match r with
  | .err e s => .made (raise e s)
  | .stop x => .fault x
  | .val w s =>
    match decode f w with
    | .ok i => .run i s
    | .error _ => .fault .corruptTree

/-- The three header bits as `h`, BFINAL read before BTYPE (42_blocks.md R300; 30_encoding.md R152). -/
def headerBits (s : State) : Res Nat :=
  (readBits 1 s).bind fun f s => (readBits 2 s).bind fun t s => .val (f + 2 * t) s

/-- A part of an element as a move. -/
def part (r : Res Unit) : Move :=
  match r with
  | .val _ s => .made s
  | .err e s => .made (raise e s)
  | .stop f => .fault f

/-- The next INFLATE element (45_commands.md R454): in IDLE, DONE and ERROR it is the start of an INFLATE just accepted (R452). -/
def inflateMove (s : State) : Move :=
  match s.phase with
  | .idle | .done | .error => .run .inflate s
  | .header => decoded .hdr (headerBits s)
  | .stored => decoded .stored (.val 0 s)
  | .dynHeader => decoded .dynhdr (.val 0 s)
  | .fixedCodes | .dynCodes => decoded .llsym (litSymbol s)

/-- The core's next move while BUSY is 1. No state between elements stands inside one; a state that does goes on from there, symbol by
symbol, before the host moves (log entry 5). -/
def coreMove (s : State) : Move :=
  match s.inner with
  | .lengths hlit hdist i => if i < hlit + hdist then decoded .clsym (clSymbol s) else part (dynTrees s)
  | .distance _ => decoded .dsym (distSymbol s)
  | .none =>
    match s.lastOp with
    | some .inflate => inflateMove s
    | some .adler32 => .run .adler32 s
    | some .crc32 => .run .crc32 s
    | none => .fault .busyWithoutCommand

/-- The state a move of the core or a host write starts from: the counter of free draws has advanced (log entry 9). -/
def tick (s : State) : State := { s with draw := s.draw + 1 }

/-- The core's turn: its next element if a command runs; an idle core takes no step (60_exceptions.md R564; log entry 4). -/
def coreTurn (s : State) : Move := if s.busy then coreMove (tick s) else .made s

/-- The next move: the element in progress first; then the host's queue; with an empty queue the core (20_memory.md R121;
70_reset_and_hazards.md R640; log entry 3). -/
def nextMove (s : State) : Move :=
  if s.busy ∧ s.inner ≠ .none then coreMove (tick s)
  else
    match s.host with
    | [] => coreTurn s
    | .letCore :: rest => coreTurn { s with host := rest }
    | .waitIdle :: rest => if s.busy then coreTurn s else .made { s with host := rest }
    | .read a n :: rest => .made { s with host := rest, hostGot := s.hostGot ++ [memRead s a n] }
    | .write a n v :: rest => memWrite a n v (tick { s with host := rest })
    | .powerOn :: rest => .made (powerOn (tick { s with host := rest }))

end Sys2Proof.Machine
end

