-- ==== Sys2Proof/Machine/Assembler.lean ====
section
/-! DEFINITION. The assembler notation for stream programs (30_encoding.md R175, R176): fields packed in read order from bit 0 up, the
last byte padded with zero bits. It writes streams; no step of the machine uses it but `withFetchWord`. -/

namespace Sys2Proof.Machine

/-- A field `NAME:n`: `n` bits of `v`, the first bit least significant (30_encoding.md R151). -/
def fieldBits : Nat → Nat → List Bool
  | 0, _ => []
  | n + 1, v => (v % 2 == 1) :: fieldBits n (v / 2)

/-- The byte whose bits, from bit 0 up, are the list's first eight, a missing bit being 0. -/
def packByte (bits : List Bool) : Byte :=
  BitVec.ofNat 8 ((bits.take 8).foldr (fun b v => b.toNat + 2 * v) 0)

/-- `n` bytes packed from bit 0 up (30_encoding.md R175). -/
def packBytes : Nat → List Bool → List Byte
  | 0, _ => []
  | n + 1, bits => packByte bits :: packBytes n (bits.drop 8)

/-- The byte sequence of a bit sequence (30_encoding.md R175). -/
def pack (bits : List Bool) : List Byte := packBytes ((bits.length + 7) / 8) bits

/-- The statements of 30_encoding.md R175. The `c` lengths of a dynamic block's header are given in ORDER. -/
inductive Stmt where
  | blockStored (final : Bool) (data : List Byte)             -- BLOCK final=f type=stored len=n [bytes]
  | blockFixed (final : Bool)                                 -- BLOCK final=f type=fixed
  | blockDynamic (final : Bool) (hlit hdist : Nat) (cl : List Nat)  -- BLOCK final=f type=dynamic hlit hdist hclen cl
  | cl (v : Nat)                                              -- CL v
  | cl16 (r : Nat)                                            -- CL16 r
  | cl17 (r : Nat)                                            -- CL17 r
  | cl18 (r : Nat)                                            -- CL18 r
  | lit (b : Byte)                                            -- LIT b
  | matchLenDist (len dist : Nat)                             -- MATCH len=l dist=d
  | eob                                                       -- EOB
  | raw (v n : Nat)                                           -- RAW v:n
deriving DecidableEq, Repr

/-- The position of the largest base that is at most `v` in a rising table (30_encoding.md R175, R176). -/
def baseIndex (bases : List Nat) (v : Nat) : Nat := bases.countP (fun b => b ≤ v) - 1

/-- The assembler between statements: the bits so far and the codes of the block in progress. -/
structure Asm where
  bits      : List Bool   -- the stream so far
  clen      : List Nat    -- the code-length code's lengths, by symbol
  lens      : List Nat    -- the code lengths sent so far in a dynamic block
  litLens   : List Nat    -- the literal/length code of a fixed block; of a dynamic one, `lens` gives it
  distLens  : List Nat
  hlit      : Nat         -- 0 in a fixed block
deriving DecidableEq, Repr

/-- The literal/length code lengths in use. -/
def Asm.lit (a : Asm) : List Nat := if a.hlit = 0 then a.litLens else a.lens.take a.hlit

/-- The distance code lengths in use. -/
def Asm.dist (a : Asm) : List Nat := if a.hlit = 0 then a.distLens else a.lens.drop a.hlit

/-- Bits put after the stream so far. -/
def Asm.put (a : Asm) (bits : List Bool) : Asm := { a with bits := a.bits ++ bits }

/-- The code-length code's 19 lengths from those sent in ORDER (42_blocks.md R321). -/
def clenOf (cl : List Nat) : List Nat := (order.zip cl).foldl (fun acc p => acc.set p.1 p.2) (List.replicate 19 0)

/-- The code lengths one CL statement sends, after those `sent` (42_blocks.md R324 to R327). -/
def clLengths (sent : List Nat) : Stmt → List Nat
  | .cl v => [v]
  | .cl16 r => List.replicate r (sent.getLastD 0)
  | .cl17 r => List.replicate r 0
  | .cl18 r => List.replicate r 0
  | .blockStored _ _ | .blockFixed _ | .blockDynamic _ _ _ _ | .lit _ | .matchLenDist _ _ | .eob | .raw _ _ => []

/-- The bits of one CL statement under the code-length code `clen`: the symbol's code and its REP field (30_encoding.md R175). -/
def clBits (clen : List Nat) : Stmt → List Bool
  | .cl v => symbolBits clen v
  | .cl16 r => symbolBits clen 16 ++ fieldBits 2 (r - 3)
  | .cl17 r => symbolBits clen 17 ++ fieldBits 3 (r - 3)
  | .cl18 r => symbolBits clen 18 ++ fieldBits 7 (r - 11)
  | .blockStored _ _ | .blockFixed _ | .blockDynamic _ _ _ _ | .lit _ | .matchLenDist _ _ | .eob | .raw _ _ => []

/-- The fields of a dynamic header before its CLSYM elements: HLIT5, HDIST5, HCLEN4 and the CLL fields (30_encoding.md R154, R175). -/
def dynCountBits (hlit hdist : Nat) (cl : List Nat) : List Bool :=
  fieldBits 5 (hlit - 257) ++ fieldBits 5 (hdist - 1) ++ fieldBits 4 (cl.length - 4) ++ cl.flatMap fun v => fieldBits 3 v

/-- One statement (30_encoding.md R175). -/
def Asm.stmt (a : Asm) : Stmt → Asm
  | .blockStored f data =>
    let hdr := a.bits ++ fieldBits 3 f.toNat
    { a with bits := hdr ++ List.replicate (ceil8 hdr.length - hdr.length) false ++ fieldBits 16 data.length
        ++ fieldBits 16 (data.length ^^^ 0xFFFF) ++ data.flatMap fun b => fieldBits 8 b.toNat }
  | .blockFixed f =>
    { (a.put (fieldBits 3 (f.toNat + 2))) with hlit := 0, litLens := fixedLitLengths, distLens := fixedDistLengths }
  | .blockDynamic f hlit hdist cl =>
    { (a.put (fieldBits 3 (f.toNat + 4) ++ dynCountBits hlit hdist cl)) with clen := clenOf cl, lens := [], hlit := hlit }
  | .cl v => { (a.put (clBits a.clen (.cl v))) with lens := a.lens ++ clLengths a.lens (.cl v) }
  | .cl16 r => { (a.put (clBits a.clen (.cl16 r))) with lens := a.lens ++ clLengths a.lens (.cl16 r) }
  | .cl17 r => { (a.put (clBits a.clen (.cl17 r))) with lens := a.lens ++ clLengths a.lens (.cl17 r) }
  | .cl18 r => { (a.put (clBits a.clen (.cl18 r))) with lens := a.lens ++ clLengths a.lens (.cl18 r) }
  | .lit b => a.put (symbolBits a.lit b.toNat)
  | .matchLenDist l d =>
    let k := baseIndex lbase l
    let j := baseIndex dbase d
    a.put (symbolBits a.lit (257 + k) ++ fieldBits (lext.getD k 0) (l - lbase.getD k 0)
      ++ symbolBits a.dist j ++ fieldBits (dext.getD j 0) (d - dbase.getD j 0))
  | .eob => a.put (symbolBits a.lit 256)
  | .raw v n => a.put (fieldBits n v)

/-- A stream program as its bytes (30_encoding.md R175). -/
def assemble (prog : List Stmt) : List Byte :=
  pack (prog.foldl Asm.stmt { bits := [], clen := [], lens := [], litLens := [], distLens := [], hlit := 0 }).bits

end Sys2Proof.Machine
end

