-- ==== Sys2Proof/Machine/Place.lean ====
section
/-! DEFINITION. Where the next instruction is fetched from, format by format: the state in which the very next step runs the row of
one table word (log entry 6). Nothing of the machine's own behaviour is here. -/

namespace Sys2Proof.Machine

/-- Bytes written one after another from index `i` on. -/
def Memory.writeAll : Nat → List Byte → Memory → Memory
  | _, [], m => m
  | i, b :: bs, m => Memory.writeAll (i + 1) bs (Memory.write m i b)

/-- An INFLATE under way, the core's turn, between two elements. -/
def underWay (s : State) : State := { accept .inflate s with host := [], inner := .none }

/-- A stream of the given opcode bits, then zeros, at the start of IN; the cursor on its first bit. -/
def placeStream (bits : List Bool) (s : State) : State :=
  { s with
    inMem := Memory.writeAll 0 (packBytes 12 bits) s.inMem
    inLen := 12#25
    bitpos := 0#28 }

/-- The state whose next step runs the instruction of opcode `w` in format `f`. The two inner formats stand inside their element,
with a complete or incomplete code of five bits for every symbol. -/
def placeWord (f : Format) (w : Nat) (s : State) : State :=
  match f with
  | .hdr => { placeStream (fieldBits 3 w) (underWay s) with phase := .header }
  | .stored => { placeStream [] (underWay s) with phase := .stored }
  | .dynhdr => { placeStream [] (underWay s) with phase := .dynHeader }
  | .clsym =>
    { placeStream (codeBits 5 w) (underWay s) with
      phase := .dynHeader
      clenTree := (buildCanonicalTree (List.replicate 19 5)).getD HTree.noCodes
      inner := .lengths 257 1 1 }
  | .llsym =>
    { placeStream (symbolBits fixedLitLengths w) (underWay s) with phase := .fixedCodes, litSel := false, distSel := false }
  | .dsym =>
    { placeStream (codeBits 5 w) (underWay s) with
      phase := .dynCodes
      distSel := true
      distTree := (buildCanonicalTree (List.replicate 32 5)).getD HTree.noCodes
      inner := .distance 3 }
  | .cmd =>
    match decodeCmd (BitVec.ofNat 32 w) with
    | .inflate => { accept .inflate s with host := [], phase := .idle, inner := .none }
    | .adler32 => { accept .adler32 s with host := [], inner := .none }
    | .crc32 => { accept .crc32 s with host := [], inner := .none }
    | _ => { s with host := [.write 0#32 .b4 (BitVec.ofNat 32 w)], busy := false }

end Sys2Proof.Machine
end

