-- ==== Sys2Proof/Machine/Step.lean ====
section
/-! DEFINITION. One step: one element of the core, or one access of the host (10_state.md R34; 20_memory.md R121). -/

namespace Sys2Proof.Machine

/-- One step of the machine (log entry 3). -/
def step (s : State) : Host.Outcome State Fault Refusal :=
  match nextMove s with
  | .run i s' => exec i s'
  | .made s' => .next s'
  | .fault f => .fault f
  | .refused r => .refused r

/-- The state whose next step runs the instruction of a table word (log entry 6). -/
def State.withFetchWord (s : State) (nbits w : Nat) : State := placeWord (tableFormat nbits w) w s

end Sys2Proof.Machine
end

