-- ==== Sys2Proof/Safety.lean ====
section
/-! DEFINITION. What holds of every state a run reaches, in the terms claims use. Each part is a predicate on one state; `State.Inv`
is all of them. -/

namespace Sys2Proof.Machine

/-- The parameters are in range (00_scope.md R6). -/
abbrev State.sizesOk (s : State) : Prop :=
  1 ≤ s.inMax.toNat ∧ s.inMax.toNat ≤ Config.sizeMax ∧ 1 ≤ s.outMax.toNat ∧ s.outMax.toNat ≤ Config.sizeMax

/-- The three memories are in canonical form. -/
abbrev State.memoriesOk (s : State) : Prop := s.inMem.wf ∧ s.outMem.wf ∧ s.dictMem.wf

/-- Every listed byte of a memory lies below `n`. -/
abbrev Memory.below (n : Nat) (m : Memory) : Prop := ∀ c ∈ m, c.1 < n

/-- Lengths and memories keep to their sizes (10_state.md R31, R46, R49, R50; 20_memory.md R100). -/
abbrev State.boundsOk (s : State) : Prop :=
  s.inLen.toNat ≤ s.inMax.toNat ∧ s.dictLen.toNat ≤ Config.dictMax ∧ s.outLen.toNat ≤ s.outMax.toNat ∧ s.lens.length = 320 ∧
  Memory.below s.inMax.toNat s.inMem ∧ Memory.below s.outMax.toNat s.outMem ∧ Memory.below Config.dictMax s.dictMem

/-- The flags tell how the last command ended (10_state.md R42, R43; 45_commands.md R451, R459). -/
abbrev State.flagsOk (s : State) : Prop :=
  (s.busy = true → s.ok = false ∧ s.err = false ∧ s.lastOp ≠ none) ∧
  (s.busy = false → s.lastOp ≠ none → s.ok = true ∨ s.err = true) ∧
  ¬(s.ok = true ∧ s.err = true) ∧
  s.err = s.error.isSome

/-- An INFLATE is past its start and not over (42_blocks.md R299). -/
def State.running (s : State) : Bool :=
  match s.phase with
  | .header | .stored | .fixedCodes | .dynHeader | .dynCodes => true
  | .idle | .done | .error => false

/-- A tree that `buildCanonicalTree` made of at most `n` lengths (10_state.md R65). -/
def HTree.builtFrom (n : Nat) (t : HTree) : Prop :=
  ∃ L : List Nat, L.length ≤ n ∧ (∀ l ∈ L, l ≤ 15) ∧ buildCanonicalTree L = some t

/-- The engine runs only under an INFLATE, and each symbol loop has its trees (42_blocks.md R310, R329; 10_state.md R31, R65). -/
abbrev State.engineOk (s : State) : Prop :=
  (s.running = true → s.busy = true ∧ s.lastOp = some .inflate) ∧
  (s.phase = .fixedCodes → s.litSel = false ∧ s.distSel = false) ∧
  (s.phase = .dynCodes → s.litSel = true ∧ s.distSel = true ∧ s.litTree.builtFrom 288 ∧ s.distTree.builtFrom 32)

/-- The cursor invariant (40_bit_reader.md R205): where the stream begins past the input, only the first header is ever tried. -/
abbrev State.cursorOk (s : State) : Prop :=
  s.running = true →
    if s.inStart.toNat ≤ s.inLen.toNat then 8 * s.inStart.toNat ≤ s.bitpos.toNat ∧ s.bitpos.toNat ≤ 8 * s.inLen.toNat
    else s.phase = .header ∧ s.bitpos.toNat = 8 * s.inStart.toNat

/-- All of it, and the state stands between two elements (10_state.md R31, R34). -/
abbrev State.Inv (s : State) : Prop :=
  s.sizesOk ∧ s.memoriesOk ∧ s.boundsOk ∧ s.flagsOk ∧ s.engineOk ∧ s.cursorOk ∧ s.inner = .none

/-- `n` more bits of input are there (40_bit_reader.md R202). -/
abbrev State.hasBits (s : State) (n : Nat) : Prop := s.bitpos.toNat + n ≤ 8 * s.inLen.toNat

/-- The stream at the cursor begins with these bits, first bit first (00_scope.md R14). -/
abbrev State.streamHas (s : State) (bits : List Bool) : Prop :=
  s.hasBits bits.length ∧ ∀ k, k < bits.length → (inBit s (s.bitpos.toNat + k) == 1) = bits.getD k false

/-- The core moves next, from between two elements: a command runs and the host has nothing queued (10_state.md R34). -/
abbrev State.coreTurn (s : State) : Prop := s.busy = true ∧ s.inner = .none ∧ s.host = []

/-- The lengths `L` are code lengths, each 0..15, and build the tree `t` (41_huffman.md R250). -/
abbrev HTree.codes (L : List Nat) (t : HTree) : Prop := (∀ l ∈ L, l ≤ 15) ∧ buildCanonicalTree L = some t

/-- Symbol `sym` has a code under the lengths `L`, and the stream at the cursor begins with it (41_huffman.md R253, R262). -/
abbrev State.streamCodes (s : State) (L : List Nat) (sym : Nat) : Prop :=
  sym < L.length ∧ 0 < L.getD sym 0 ∧ s.streamHas (symbolBits L sym)

/-- The two states differ only in bytes that the core never reads: IN from IN_LEN on, OUT from OUT_LEN on, DICT from DICT_LEN on
(70_reset_and_hazards.md R601; 93 U3, U4, U16). -/
abbrev State.sameValid (s t : State) : Prop :=
  t = { s with inMem := t.inMem, outMem := t.outMem, dictMem := t.dictMem, epoch := t.epoch } ∧
  (∀ i, i < s.inLen.toNat → byteAt t .inp i = byteAt s .inp i) ∧
  (∀ i, i < s.outLen.toNat → byteAt t .out i = byteAt s .out i) ∧
  (∀ i, i < s.dictLen.toNat → byteAt t .dict i = byteAt s .dict i)

/-- The code lengths that a sequence of CL statements sends after those already `sent` (42_blocks.md R324). -/
def clSent : List Stmt → List Nat → List Nat
  | [], sent => sent
  | st :: rest, sent => clSent rest (sent ++ clLengths sent st)

/-- One CL statement that the format can carry after the lengths `sent`: its symbol has a code and its count is in range
(30_encoding.md R155; 42_blocks.md R325). -/
def clOk (clen sent : List Nat) : Stmt → Bool
  | .cl v => v ≤ 15 && 0 < clen.getD v 0
  | .cl16 r => 3 ≤ r && r ≤ 6 && !sent.isEmpty && 0 < clen.getD 16 0
  | .cl17 r => 3 ≤ r && r ≤ 10 && 0 < clen.getD 17 0
  | .cl18 r => 11 ≤ r && r ≤ 138 && 0 < clen.getD 18 0
  | .blockStored _ _ | .blockFixed _ | .blockDynamic _ _ _ _ | .lit _ | .matchLenDist _ _ | .eob | .raw _ _ => false

/-- A sequence of CL statements that the format can carry. -/
def clProgOk (clen : List Nat) : List Stmt → List Nat → Bool
  | [], _ => true
  | st :: rest, sent => clOk clen sent st && clProgOk clen rest (sent ++ clLengths sent st)

/-- The fixed-width fields of a dynamic header, each in its range (42_blocks.md R320 to R322). -/
abbrev countsInRange (hlit hdist : Nat) (cl : List Nat) : Prop :=
  257 ≤ hlit ∧ hlit ≤ 288 ∧ 1 ≤ hdist ∧ hdist ≤ 32 ∧ 4 ≤ cl.length ∧ cl.length ≤ 19 ∧ ∀ v ∈ cl, v ≤ 7

/-- The bits of a whole dynamic header (30_encoding.md R154, R175). -/
def dynHeaderBits (hlit hdist : Nat) (cl : List Nat) (prog : List Stmt) : List Bool :=
  dynCountBits hlit hdist cl ++ prog.flatMap (clBits (clenOf cl))

/-- The error a tree of a dynamic block with lengths `L` raises when it is built and checked, if any (42_blocks.md R329, R330). -/
def dynTreeError (L : List Nat) : Option Err :=
  match buildCanonicalTree L with
  | none => some .invalidHuffmanTree
  | some t => if 0 < t.left ∧ 1 < t.used then some .invalidCodeLengths else none

end Sys2Proof.Machine
end

