-- ==== Sys2Proof/Certificates/Slice0/Obligations.lean ====
section
/-! DEFINITION. What is to be proved of the core. Every hypothesis is on the state and the operands alone; a witness of each set of
hypotheses stands in Sys2Proof/Tests/Slice0.lean. Where a conclusion writes `draw`, that is the model's own counter (log entry 9). -/

section

open Sys2Proof Sys2Proof.Machine

/-! ### Encoding -/

/-- Decoding the encoding of a well-formed instruction gives it back (30_encoding.md R152 to R163). -/
def Obligations.DecodeEncode : Prop :=
  ∀ i : Instr, i.wellFormed = true → decode i.format (encode i) = .ok i

/-- What decodes to an instruction is that instruction's encoding: no two opcodes of a format share an instruction, and no
ILLEGAL_CMD hides a command (30_encoding.md R159 to R164). -/
def Obligations.EncodeDecode : Prop :=
  ∀ (f : Format) (w : Nat) (i : Instr), decode f w = .ok i → i.format = f ∧ encode i = w ∧ i.wellFormed = true

/-- Host commands: the upper 24 bits must be 0 and the low byte is the opcode (30_encoding.md R163). -/
def Obligations.CommandWords : Prop :=
  ∀ w : Word, decode .cmd w.toNat = .ok (
    if w.extractLsb' 8 24 ≠ 0#24 then .illegalCmd w
    else if w.extractLsb' 0 8 = 0x00#8 then .nop
    else if w.extractLsb' 0 8 = 0x01#8 then .inflate
    else if w.extractLsb' 0 8 = 0x02#8 then .adler32
    else if w.extractLsb' 0 8 = 0x03#8 then .crc32
    else if w.extractLsb' 0 8 = 0xFF#8 then .reset
    else .illegalCmd w)

/-- Words written out from the spec's encodings, one or more of each format (30_encoding.md R159 to R163). -/
def Obligations.SampleWords : Prop :=
  decode .hdr 0b001 = .ok (.blockStored 1#1) ∧ decode .hdr 0b010 = .ok (.blockFixed 0#1) ∧
  decode .hdr 0b101 = .ok (.blockDynamic 1#1) ∧ decode .hdr 0b110 = .ok (.blockReserved 0#1) ∧
  decode .clsym 15 = .ok (.clLen 15#4) ∧ decode .clsym 16 = .ok .clCopyPrev ∧ decode .clsym 17 = .ok .clZeroShort ∧
  decode .clsym 18 = .ok .clZeroLong ∧ decode .llsym 97 = .ok (.lit 0x61#8) ∧ decode .llsym 256 = .ok .eob ∧
  decode .llsym 257 = .ok .len257 ∧ decode .llsym 285 = .ok .len285 ∧ decode .llsym 286 = .ok .illegalLen286 ∧
  decode .dsym 0 = .ok .dist0 ∧ decode .dsym 29 = .ok .dist29 ∧ decode .dsym 31 = .ok .illegalDist31 ∧
  decode .cmd 0x000000FF = .ok .reset ∧ decode .cmd 0x00000101 = .ok (.illegalCmd 0x00000101#32)

/-! ### Huffman codes -/

/-- The canonical-tree property (41_huffman.md R264). -/
def Obligations.CanonicalTree : Prop :=
  ∀ (L : List Nat) (t : HTree) (s : State) (sym : Nat), t.codes L → s.streamCodes L sym →
    decodeSymbol t s = .val sym { s with bitpos := BitVec.ofNat 28 (s.bitpos.toNat + L.getD sym 0) }

/-- The converse: a symbol that is returned has a code, and that code is what the stream held (41_huffman.md R253, R260, R263). -/
def Obligations.DecodedIsCanonical : Prop :=
  ∀ (L : List Nat) (t : HTree) (s u : State) (sym : Nat), t.codes L → decodeSymbol t s = .val sym u →
    s.streamCodes L sym ∧ u = { s with bitpos := BitVec.ofNat 28 (s.bitpos.toNat + L.getD sym 0) }

/-- Bits that begin with no code of the tree are never a symbol: 15 bits are read, then `InvalidCode`; where the input ends first,
`UnexpectedEndOfInput` at its end (41_huffman.md R261, R266; 60_exceptions.md R510). -/
def Obligations.NoCodeFails : Prop :=
  ∀ (L : List Nat) (t : HTree) (s : State), t.codes L → s.bitpos.toNat ≤ 8 * s.inLen.toNat → (∀ sym, ¬s.streamCodes L sym) →
    (s.hasBits 15 → decodeSymbol t s = .err .invalidCode { s with bitpos := BitVec.ofNat 28 (s.bitpos.toNat + 15) }) ∧
    (¬s.hasBits 15 →
      decodeSymbol t s = .err .unexpectedEndOfInput { s with bitpos := BitVec.ofNat 28 (8 * s.inLen.toNat) })

/-- The codes of the two fixed trees, first bit first, and that the first is complete and the second is not (30_encoding.md R170). -/
def Obligations.FixedCodes : Prop :=
  (∀ sym, sym < 24 → symbolBits fixedLitLengths (256 + sym) = codeBits 7 (0x00 + sym)) ∧
  (∀ sym, sym < 144 → symbolBits fixedLitLengths sym = codeBits 8 (0x30 + sym)) ∧
  (∀ sym, sym < 8 → symbolBits fixedLitLengths (280 + sym) = codeBits 8 (0xC0 + sym)) ∧
  (∀ sym, sym < 112 → symbolBits fixedLitLengths (144 + sym) = codeBits 9 (0x190 + sym)) ∧
  (∀ sym, sym < 30 → symbolBits fixedDistLengths sym = codeBits 5 (0x00 + sym)) ∧
  buildCanonicalTree fixedLitLengths = some fixedLit ∧ fixedLit.left = 0 ∧ fixedLit.used = 288 ∧
  buildCanonicalTree fixedDistLengths = some fixedDist ∧ fixedDist.left = 2048 ∧ fixedDist.used = 30

/-- The build fails just when `left`, in its closed form, is negative at some length (41_huffman.md R252). -/
def Obligations.OverSubscribed : Prop :=
  ∀ L : List Nat, (∀ l ∈ L, l ≤ 15) →
    (buildCanonicalTree L = none ↔
      ∃ len, 1 ≤ len ∧ len ≤ 15 ∧ 2 ^ len < ((List.range' 1 len).map fun l => countOf L l * 2 ^ (len - l)).sum)

/-- A built tree: `count` per length, `symbol[]` the used symbols by ascending length and then value, `used` their number and `left`
the codes of length 15 still free (41_huffman.md R251, R254, R256). -/
def Obligations.BuiltTree : Prop :=
  ∀ (L : List Nat) (t : HTree), t.codes L →
    t.count.length = 15 ∧
    (∀ len, 1 ≤ len → len ≤ 15 → t.count.getD (len - 1) 0 = (L.filter fun l => l == len).length) ∧
    (∀ sym, sym ∈ t.symbol ↔ sym < L.length ∧ 0 < L.getD sym 0) ∧
    (t.symbol.Pairwise fun a b => L.getD a 0 < L.getD b 0 ∨ (L.getD a 0 = L.getD b 0 ∧ a < b)) ∧
    t.used = t.symbol.length ∧
    t.left + ((List.range' 1 15).map fun len => countOf L len * 2 ^ (15 - len)).sum = 2 ^ 15

/-- The placement loop of `buildCanonicalTree`, run word for word from the offsets of its counts, fills `symbol[]` with the table the
machine holds, whatever the array held before (41_huffman.md R250, R254). -/
def Obligations.PlacementLoop : Prop :=
  ∀ (L : List Nat) (t : HTree) (before : List Nat), t.codes L → before.length = t.used →
    placeLoop L 0 (offsetsFrom 0 t.count) before = t.symbol

/-! ### The Bit Reader -/

/-- `readBits(n)`: the next `n` bits, first bit least significant, and the cursor moved by `n`; or, where the input is too short, a
failure that leaves the cursor (40_bit_reader.md R200, R201, R202). -/
def Obligations.ReadBits : Prop :=
  ∀ (n : Nat) (s : State), n ≤ 16 →
    (s.bitpos.toNat + n ≤ 8 * s.inLen.toNat →
      ∃ v u, readBits n s = .val v u ∧ v < 2 ^ n ∧
        (∀ k, k < n →
          v.testBit k = (byteAt s .inp ((s.bitpos.toNat + k) / 8)).getLsbD ((s.bitpos.toNat + k) % 8)) ∧
        u.bitpos.toNat = s.bitpos.toNat + n ∧ u = { s with bitpos := u.bitpos }) ∧
    (8 * s.inLen.toNat < s.bitpos.toNat + n → readBits n s = .err .unexpectedEndOfInput s)

/-- `alignToByte()`: to the next byte boundary, less than 8 bits on, and nothing else (40_bit_reader.md R204, R205). -/
def Obligations.AlignToByte : Prop :=
  ∀ s : State, s.bitpos.toNat ≤ 8 * s.inLen.toNat →
    ∃ q : BitVec 28, alignToByte s = { s with bitpos := q } ∧ q.toNat % 8 = 0 ∧ s.bitpos.toNat ≤ q.toNat ∧
      q.toNat < s.bitpos.toNat + 8 ∧ q.toNat ≤ 8 * s.inLen.toNat

/-! ### Blocks -/

/-- The block header element: BFINAL, then BTYPE, both latched only when both reads succeed, and the phase the type gives, or
`InvalidBlockType`; where an input bit is missing, `UnexpectedEndOfInput` with the cursor as the failed read leaves it (42_blocks.md
R300, R301, R310; 40_bit_reader.md R202; 60_exceptions.md R520, R522). The counter `draw` is the model's (log entry 9). -/
def Obligations.HeaderStep : Prop :=
  ∀ s : State, s.coreTurn → s.lastOp = some .inflate → s.phase = .header →
    let p := s.bitpos.toNat
    let ty := BitVec.ofNat 2 (inBit s (p + 1) + 2 * inBit s (p + 2))
    let u := { s with draw := s.draw + 1, bitpos := BitVec.ofNat 28 (p + 3), bfinal := BitVec.ofNat 1 (inBit s p), btype := ty }
    (s.hasBits 3 → step s = .next (
      if ty = 0#2 then { u with phase := .stored }
      else if ty = 1#2 then { u with litSel := false, distSel := false, phase := .fixedCodes }
      else if ty = 2#2 then { u with phase := .dynHeader }
      else raise .invalidBlockType u)) ∧
    (s.hasBits 1 → ¬s.hasBits 3 → step s =
      .next (raise .unexpectedEndOfInput { s with draw := s.draw + 1, bitpos := BitVec.ofNat 28 (p + 1) })) ∧
    (¬s.hasBits 1 → step s = .next (raise .unexpectedEndOfInput { s with draw := s.draw + 1 }))

/-- BLOCK_STORED, BLOCK_FIXED, BLOCK_DYNAMIC and BLOCK_RESERVED, in full, in every state (42_blocks.md R300, R301). -/
def Obligations.BlockHeaders : Prop :=
  ∀ (f : BitVec 1) (s : State),
    exec (.blockStored f) s = .next { s with bfinal := f, btype := 0#2, phase := .stored } ∧
    exec (.blockFixed f) s =
      .next { s with bfinal := f, btype := 1#2, litSel := false, distSel := false, phase := .fixedCodes } ∧
    exec (.blockDynamic f) s = .next { s with bfinal := f, btype := 2#2, phase := .dynHeader } ∧
    exec (.blockReserved f) s =
      .next { s with bfinal := f, btype := 3#2, phase := .error, inner := .none, error := some .invalidBlockType, err := true,
                     ok := false, busy := false, intErr := true }

/-- STORED_BODY completes: LEN and its complement in the four bytes after the boundary, then LEN bytes copied, then the end of
block; nothing else changes (42_blocks.md R303 to R307). -/
def Obligations.StoredBody : Prop :=
  ∀ (s : State) (b len : Nat), b = (s.bitpos.toNat + 7) / 8 →
    len = (byteAt s .inp b).toNat + 256 * (byteAt s .inp (b + 1)).toNat →
    len = ((byteAt s .inp (b + 2)).toNat + 256 * (byteAt s .inp (b + 3)).toNat) ^^^ 0xFFFF →
    b + 4 + len ≤ s.inLen.toNat → s.outLen.toNat + len ≤ s.outMax.toNat →
    ∃ t, exec .storedBody s = .next t ∧
      t.bitpos.toNat = 8 * (b + 4 + len) ∧ t.outLen.toNat = s.outLen.toNat + len ∧
      (∀ k, k < len → byteAt t .out (s.outLen.toNat + k) = byteAt s .inp (b + 4 + k)) ∧
      (∀ a, a < s.outLen.toNat ∨ s.outLen.toNat + len ≤ a → byteAt t .out a = byteAt s .out a) ∧
      t = (if s.bfinal = 1#1 then
          { s with bitpos := t.bitpos, outMem := t.outMem, outLen := t.outLen, blkcnt := s.blkcnt + 1#24, phase := .done,
                   ok := true, err := false, busy := false, intDone := true }
        else
          { s with bitpos := t.bitpos, outMem := t.outMem, outLen := t.outLen, blkcnt := s.blkcnt + 1#24, phase := .header })

/-- The stored body's checks in their order, each with the cursor where it was found: LEN, NLEN, the complement, the data, the output
(42_blocks.md R304 to R306; 60_exceptions.md R510, R522). -/
def Obligations.StoredErrors : Prop :=
  ∀ (s : State) (b len nlen : Nat), s.bitpos.toNat ≤ 8 * s.inLen.toNat → b = (s.bitpos.toNat + 7) / 8 →
    len = (byteAt s .inp b).toNat + 256 * (byteAt s .inp (b + 1)).toNat →
    nlen = (byteAt s .inp (b + 2)).toNat + 256 * (byteAt s .inp (b + 3)).toNat →
    let at_ := fun n : Nat => { s with bitpos := BitVec.ofNat 28 (8 * n) }
    (s.inLen.toNat < b + 2 → exec .storedBody s = .next (raise .unexpectedEndOfInput (at_ b))) ∧
    (b + 2 ≤ s.inLen.toNat → s.inLen.toNat < b + 4 →
      exec .storedBody s = .next (raise .unexpectedEndOfInput (at_ (b + 2)))) ∧
    (b + 4 ≤ s.inLen.toNat → len ≠ nlen ^^^ 0xFFFF →
      exec .storedBody s = .next (raise .invalidStoredBlockLength (at_ (b + 4)))) ∧
    (b + 4 ≤ s.inLen.toNat → len = nlen ^^^ 0xFFFF → s.inLen.toNat < b + 4 + len →
      exec .storedBody s = .next (raise .unexpectedEndOfInput (at_ (b + 4)))) ∧
    (len = nlen ^^^ 0xFFFF → b + 4 + len ≤ s.inLen.toNat → s.outMax.toNat < s.outLen.toNat + len →
      exec .storedBody s = .next (raise .outputOverflow (at_ (b + 4))))

/-- EOB, in full, in every state: the block counted, then the next header or completion (43_symbols_window.md R354; 42_blocks.md
R302; 60_exceptions.md R521). -/
def Obligations.EndOfBlock : Prop :=
  ∀ s : State,
    (s.bfinal = 0#1 → exec .eob s = .next { s with blkcnt := s.blkcnt + 1#24, phase := .header }) ∧
    (s.bfinal = 1#1 → exec .eob s =
      .next { s with blkcnt := s.blkcnt + 1#24, phase := .done, ok := true, err := false, busy := false, intDone := true })

/-- CL_LEN completes: one code length at the index (42_blocks.md R324). -/
def Obligations.ClLen : Prop :=
  ∀ (v : BitVec 4) (s : State) (hlit hdist i : Nat), s.inner = .lengths hlit hdist i → i < hlit + hdist →
    exec (.clLen v) s = .next { s with lens := s.lens.set i v, inner := .lengths hlit hdist (i + 1) }

/-- CL_COPY_PREV, CL_ZERO_SHORT and CL_ZERO_LONG complete: a run of the previous length or of zeros, its count read from the extra
bits (42_blocks.md R324 to R327). That the other entries keep their values, those at or above HLIT + HDIST too, is the model's choice
(log entry 22). -/
def Obligations.ClRuns : Prop :=
  ∀ (s : State) (hlit hdist i : Nat) (instr : Instr) (v : BitVec 4) (base extra r : Nat), s.inner = .lengths hlit hdist i →
    (instr = .clCopyPrev ∧ i ≠ 0 ∧ v = s.lens.getD (i - 1) 0#4 ∧ base = 3 ∧ extra = 2 ∨
      instr = .clZeroShort ∧ v = 0#4 ∧ base = 3 ∧ extra = 3 ∨
      instr = .clZeroLong ∧ v = 0#4 ∧ base = 11 ∧ extra = 7) →
    s.hasBits extra → r = base + bitsAt s s.bitpos.toNat extra → i + r ≤ hlit + hdist →
    ∃ t, exec instr s = .next t ∧ t.lens.length = s.lens.length ∧
      (∀ j, j < s.lens.length → t.lens.getD j 0#4 = if i ≤ j ∧ j < i + r then v else s.lens.getD j 0#4) ∧
      t = { s with bitpos := BitVec.ofNat 28 (s.bitpos.toNat + extra), lens := t.lens, inner := .lengths hlit hdist (i + r) }

/-- What the repeat symbols check: a first symbol 16 before its extra bits, then the extra bits, then the end of the lengths
(42_blocks.md R325, R328; 60_exceptions.md R510, R522). -/
def Obligations.ClErrors : Prop :=
  ∀ (s : State) (hlit hdist i : Nat), s.inner = .lengths hlit hdist i →
    (i = 0 → exec .clCopyPrev s = .next (raise .invalidRepeatCode s)) ∧
    (∀ (instr : Instr) (base extra : Nat),
      (instr = .clCopyPrev ∧ i ≠ 0 ∧ base = 3 ∧ extra = 2 ∨
        instr = .clZeroShort ∧ base = 3 ∧ extra = 3 ∨
        instr = .clZeroLong ∧ base = 11 ∧ extra = 7) →
      (¬s.hasBits extra → exec instr s = .next (raise .unexpectedEndOfInput s)) ∧
      (s.hasBits extra → hlit + hdist < i + (base + bitsAt s s.bitpos.toNat extra) →
        exec instr s =
          .next (raise .tooManyCodeLengths { s with bitpos := BitVec.ofNat 28 (s.bitpos.toNat + extra) })))

/-- DYN_HEADER completes on every header the format can carry whose three trees build and whose two block trees pass the check: the
counts, the code lengths of any sequence of CL_LEN, CL_COPY_PREV, CL_ZERO_SHORT and CL_ZERO_LONG, and both trees (42_blocks.md R320 to
R330; 30_encoding.md R154, R155). That `lens` at or above HLIT + HDIST keeps its entries is the model's choice (log entry 22; 93 U6). -/
def Obligations.DynHeader : Prop :=
  ∀ (s : State) (hlit hdist : Nat) (cl : List Nat) (prog : List Stmt) (clen lit dist : HTree),
    countsInRange hlit hdist cl → s.lens.length = 320 →
    buildCanonicalTree (clenOf cl) = some clen →
    clProgOk (clenOf cl) prog [] = true → (clSent prog []).length = hlit + hdist →
    buildCanonicalTree ((clSent prog []).take hlit) = some lit → ¬(0 < lit.left ∧ 1 < lit.used) →
    buildCanonicalTree ((clSent prog []).drop hlit) = some dist → ¬(0 < dist.left ∧ 1 < dist.used) →
    s.streamHas (dynHeaderBits hlit hdist cl prog) →
    ∃ t, exec .dynHeader s = .next t ∧
      (t.lens.take (hlit + hdist)).map BitVec.toNat = clSent prog [] ∧
      t.lens.drop (hlit + hdist) = s.lens.drop (hlit + hdist) ∧
      t = { s with bitpos := BitVec.ofNat 28 (s.bitpos.toNat + (dynHeaderBits hlit hdist cl prog).length), lens := t.lens,
                   clenTree := clen, litTree := lit, distTree := dist, litSel := true, distSel := true, phase := .dynCodes,
                   inner := .none }

/-- The checks of a dynamic block's two trees, the literal/length tree first: over-subscribed lengths, then an incomplete code of more
than one symbol; the cursor is past the last code-length symbol (42_blocks.md R329, R330; 60_exceptions.md R522). -/
def Obligations.DynTreeErrors : Prop :=
  ∀ (s : State) (hlit hdist : Nat) (cl : List Nat) (prog : List Stmt) (clen : HTree) (e : Err),
    countsInRange hlit hdist cl → s.lens.length = 320 →
    buildCanonicalTree (clenOf cl) = some clen →
    clProgOk (clenOf cl) prog [] = true → (clSent prog []).length = hlit + hdist →
    s.streamHas (dynHeaderBits hlit hdist cl prog) →
    (dynTreeError ((clSent prog []).take hlit) = some e ∨
      dynTreeError ((clSent prog []).take hlit) = none ∧ dynTreeError ((clSent prog []).drop hlit) = some e) →
    ∃ t, exec .dynHeader s = .next t ∧
      t = { s with bitpos := BitVec.ofNat 28 (s.bitpos.toNat + (dynHeaderBits hlit hdist cl prog).length), lens := t.lens,
                   clenTree := clen, litTree := t.litTree, distTree := t.distTree, phase := .error, inner := .none,
                   error := some e, err := true, ok := false, busy := false, intErr := true }

/-- An over-subscribed code-length code fails before any code-length symbol is read (42_blocks.md R323; 60_exceptions.md R522). -/
def Obligations.ClenTreeError : Prop :=
  ∀ (s : State) (hlit hdist : Nat) (cl : List Nat), countsInRange hlit hdist cl →
    buildCanonicalTree (clenOf cl) = none → s.streamHas (dynCountBits hlit hdist cl) →
    ∃ t, exec .dynHeader s = .next t ∧
      t = { s with bitpos := BitVec.ofNat 28 (s.bitpos.toNat + (dynCountBits hlit hdist cl).length), clenTree := t.clenTree,
                   phase := .error, inner := .none, error := some .invalidHuffmanTree, err := true, ok := false, busy := false,
                   intErr := true }

/-- Inside DYN_HEADER a code-length symbol has the meaning its instruction has, and inside LEN_257 to LEN_285 a distance symbol has
(30_encoding.md R161, R162). -/
def Obligations.PartsAreShared : Prop :=
  ∀ (s : State) (sym : Nat) (i : Instr),
    (decode .clsym sym = .ok i → exec i s = finish (lengthSymbol sym s)) ∧
    (decode .dsym sym = .ok i → exec i s = finish (distanceSymbol sym s))

/-! ### Symbols and the window -/

/-- LIT: the byte appended, or `OutputOverflow` with nothing written; nothing else changes (43_symbols_window.md R353, R366). -/
def Obligations.Literal : Prop :=
  ∀ (b : Byte) (s : State),
    (s.outLen.toNat + 1 ≤ s.outMax.toNat →
      ∃ t, exec (.lit b) s = .next t ∧ t.outLen.toNat = s.outLen.toNat + 1 ∧
        byteAt t .out s.outLen.toNat = b ∧ (∀ a, a ≠ s.outLen.toNat → byteAt t .out a = byteAt s .out a) ∧
        t = { s with outMem := t.outMem, outLen := t.outLen }) ∧
    (s.outMax.toNat < s.outLen.toNat + 1 → exec (.lit b) s = .next (raise .outputOverflow s))

/-- LEN_257 to LEN_285 complete: the length's extra bits, the distance code and its extra bits, then the copy, in which byte `j` is
byte `j mod distance` of the `distance` bytes before it; nothing else changes (43_symbols_window.md R357, R358, R361, R362). -/
def Obligations.BackReference : Prop :=
  ∀ (s : State) (k lx d dx length distance : Nat) (i : Instr) (L : List Nat),
    k < 29 → lengthInstrs[k]? = some i → lx < 2 ^ lext.getD k 0 → (distTreeInUse s).codes L →
    d < L.length → d < 30 → 0 < L.getD d 0 → dx < 2 ^ dext.getD d 0 →
    s.streamHas (fieldBits (lext.getD k 0) lx ++ symbolBits L d ++ fieldBits (dext.getD d 0) dx) →
    L.length ≤ 32 → length = lbase.getD k 0 + lx → distance = dbase.getD d 0 + dx →
    distance ≤ s.hlen → s.outLen.toNat + length ≤ s.outMax.toNat →
    ∃ t, exec i s = .next t ∧ t.outLen.toNat = s.outLen.toNat + length ∧
      (∀ j, j < length → byteAt t .out (s.outLen.toNat + j) = hist s (s.hlen - distance + j % distance)) ∧
      (∀ a, a < s.outLen.toNat ∨ s.outLen.toNat + length ≤ a → byteAt t .out a = byteAt s .out a) ∧
      t = { s with bitpos := BitVec.ofNat 28 (s.bitpos.toNat + (lext.getD k 0 + L.getD d 0 + dext.getD d 0)),
                   outMem := t.outMem, outLen := t.outLen, inner := .none }

/-- Every check of a back-reference, in order, each with the cursor where it was found: the length's extra bits past the input; a
distance code past the input, or 15 bits that begin with no code; distance symbols 30 and 31; the distance's extra bits past the input;
a distance past the history; the output limit (43_symbols_window.md R356, R357, R360, R366; 41_huffman.md R261; 60_exceptions.md R510,
R522). -/
def Obligations.BackReferenceErrors : Prop :=
  ∀ (s : State) (k lx : Nat) (i : Instr) (L : List Nat),
    k < 29 → lengthInstrs[k]? = some i → lx < 2 ^ lext.getD k 0 → (distTreeInUse s).codes L → L.length ≤ 32 →
    s.bitpos.toNat ≤ 8 * s.inLen.toNat →
    let past := fun n : Nat => { s with bitpos := BitVec.ofNat 28 (s.bitpos.toNat + n) }
    (¬s.hasBits (lext.getD k 0) → exec i s = .next (raise .unexpectedEndOfInput s)) ∧
    (s.streamHas (fieldBits (lext.getD k 0) lx) → (∀ d, ¬(past (lext.getD k 0)).streamCodes L d) →
      (s.hasBits (lext.getD k 0 + 15) → exec i s = .next (raise .invalidCode (past (lext.getD k 0 + 15)))) ∧
      (¬s.hasBits (lext.getD k 0 + 15) →
        exec i s = .next (raise .unexpectedEndOfInput { s with bitpos := BitVec.ofNat 28 (8 * s.inLen.toNat) }))) ∧
    ∀ d dx length distance : Nat,
      d < L.length → 0 < L.getD d 0 → dx < 2 ^ dext.getD d 0 →
      length = lbase.getD k 0 + lx → distance = dbase.getD d 0 + dx →
      let code := fieldBits (lext.getD k 0) lx ++ symbolBits L d
      (30 ≤ d → s.streamHas code → exec i s = .next (raise .invalidDistanceSymbol (past code.length))) ∧
      (d < 30 → s.streamHas code → ¬s.hasBits (code.length + dext.getD d 0) →
        exec i s = .next (raise .unexpectedEndOfInput (past code.length))) ∧
      (d < 30 → s.streamHas (code ++ fieldBits (dext.getD d 0) dx) → s.hlen < distance →
        exec i s = .next (raise .distanceTooFar (past (code.length + dext.getD d 0)))) ∧
      (d < 30 → s.streamHas (code ++ fieldBits (dext.getD d 0) dx) → distance ≤ s.hlen →
        s.outMax.toNat < s.outLen.toNat + length →
        exec i s = .next (raise .outputOverflow (past (code.length + dext.getD d 0))))

/-- DIST_0 to DIST_29 complete, after a length: the extra bits and the copy; and their three errors (43_symbols_window.md R357, R358,
R360, R362, R366). -/
def Obligations.DistanceSymbols : Prop :=
  ∀ (s : State) (d length distance : Nat) (i : Instr), d < 30 → distanceInstrs[d]? = some i → s.inner = .distance length →
    distance = dbase.getD d 0 + bitsAt s s.bitpos.toNat (dext.getD d 0) →
    let u := { s with bitpos := BitVec.ofNat 28 (s.bitpos.toNat + dext.getD d 0) }
    (s.hasBits (dext.getD d 0) → distance ≤ s.hlen → s.outLen.toNat + length ≤ s.outMax.toNat →
      ∃ t, exec i s = .next t ∧ t.outLen.toNat = s.outLen.toNat + length ∧
        (∀ j, j < length → byteAt t .out (s.outLen.toNat + j) = hist s (s.hlen - distance + j % distance)) ∧
        (∀ a, a < s.outLen.toNat ∨ s.outLen.toNat + length ≤ a → byteAt t .out a = byteAt s .out a) ∧
        t = { u with outMem := t.outMem, outLen := t.outLen, inner := .none }) ∧
    (¬s.hasBits (dext.getD d 0) → exec i s = .next (raise .unexpectedEndOfInput s)) ∧
    (s.hasBits (dext.getD d 0) → s.hlen < distance → exec i s = .next (raise .distanceTooFar u)) ∧
    (s.hasBits (dext.getD d 0) → distance ≤ s.hlen → s.outMax.toNat < s.outLen.toNat + length →
      exec i s = .next (raise .outputOverflow u))

/-- The illegal symbols fail as soon as they are decoded, no bit read after their code: 286 and 287 in every state, 30 and 31 after a
length (43_symbols_window.md R355, R356). -/
def Obligations.IllegalSymbols : Prop :=
  ∀ s : State,
    exec .illegalLen286 s = .next (raise .invalidLengthSymbol s) ∧
    exec .illegalLen287 s = .next (raise .invalidLengthSymbol s) ∧
    (∀ length, s.inner = .distance length →
      exec .illegalDist30 s = .next (raise .invalidDistanceSymbol s) ∧
      exec .illegalDist31 s = .next (raise .invalidDistanceSymbol s))

/-- The length and distance tables: no gaps, the one overlap at 258, and their ranges (43_symbols_window.md R363). -/
def Obligations.Tables : Prop :=
  (∀ k, k < 27 → lbase.getD (k + 1) 0 = lbase.getD k 0 + 2 ^ lext.getD k 0) ∧
  (lbase.getD 27 0 + 31 = 258 ∧ lbase.getD 28 0 = 258) ∧
  (∀ d, d < 29 → dbase.getD (d + 1) 0 = dbase.getD d 0 + 2 ^ dext.getD d 0) ∧
  (∀ k, k < 29 → 3 ≤ lbase.getD k 0 ∧ lbase.getD k 0 + 2 ^ lext.getD k 0 - 1 ≤ 258 ∧ lext.getD k 0 ≤ 5) ∧
  (∀ d, d < 30 → 1 ≤ dbase.getD d 0 ∧ dbase.getD d 0 + 2 ^ dext.getD d 0 - 1 ≤ 32768 ∧ dext.getD d 0 ≤ 13)

/-- The symbol element: the step runs the instruction of the symbol whose code the stream holds, in the tree the block uses, past that
code (43_symbols_window.md R352; 41_huffman.md R260). -/
def Obligations.SymbolStep : Prop :=
  ∀ (s : State) (L : List Nat) (sym : Nat) (i : Instr), s.coreTurn → s.lastOp = some .inflate →
    (s.phase = .fixedCodes ∨ s.phase = .dynCodes) → (litTreeInUse s).codes L → L.length ≤ 288 → s.streamCodes L sym →
    decode .llsym sym = .ok i →
    step s = exec i { s with draw := s.draw + 1, bitpos := BitVec.ofNat 28 (s.bitpos.toNat + L.getD sym 0) }

/-! ### The step -/

/-- A step runs the decoded instruction: where the core moves next and the opcode bits of its element decode to `i`, the step is
`exec` of `i`, past those bits; and so it goes on inside an element (45_commands.md R454, R455, R456; 10_state.md R34). -/
def Obligations.StepRunsDecoded : Prop :=
  ∀ (s : State) (i : Instr) (w : Nat) (u : State),
    (s.coreTurn → s.lastOp = some .inflate → s.phase = .header → headerBits (tick s) = .val w u → decode .hdr w = .ok i →
      step s = exec i u) ∧
    (s.coreTurn → s.lastOp = some .inflate → s.phase = .fixedCodes ∨ s.phase = .dynCodes → litSymbol (tick s) = .val w u →
      decode .llsym w = .ok i → step s = exec i u) ∧
    (s.coreTurn → s.lastOp = some .inflate → s.phase = .stored → step s = exec .storedBody (tick s)) ∧
    (s.coreTurn → s.lastOp = some .inflate → s.phase = .dynHeader → step s = exec .dynHeader (tick s)) ∧
    (s.coreTurn → s.lastOp = some .inflate → s.running = false → step s = exec .inflate (tick s)) ∧
    (s.coreTurn → s.lastOp = some .adler32 → step s = exec .adler32 (tick s)) ∧
    (s.coreTurn → s.lastOp = some .crc32 → step s = exec .crc32 (tick s)) ∧
    (∀ hlit hdist k, s.busy = true → s.inner = .lengths hlit hdist k → k < hlit + hdist → clSymbol (tick s) = .val w u →
      decode .clsym w = .ok i → step s = exec i u) ∧
    (∀ length, s.busy = true → s.inner = .distance length → distSymbol (tick s) = .val w u → decode .dsym w = .ok i →
      step s = exec i u)

/-- No instruction writes IN or DICT, a size, the host's side or a counter of the model; and only RESET writes a register that the host
sets (20_memory.md R101, R103; 10_state.md R46). -/
def Obligations.InputsKept : Prop :=
  ∀ (i : Instr) (s t : State), exec i s = .next t →
    (t.inMem = s.inMem ∧ t.dictMem = s.dictMem ∧ t.inMax = s.inMax ∧ t.outMax = s.outMax ∧ t.host = s.host ∧
      t.hostGot = s.hostGot ∧ t.draw = s.draw ∧ t.epoch = s.epoch) ∧
    (i ≠ .reset →
      t.inStart = s.inStart ∧ t.inLen = s.inLen ∧ t.dictLen = s.dictLen ∧ t.dictReq = s.dictReq ∧ t.doneEn = s.doneEn ∧
      t.errEn = s.errEn ∧ t.ckSrc = s.ckSrc ∧ t.ckOff = s.ckOff ∧ t.ckLen = s.ckLen ∧ t.adlerSeed = s.adlerSeed ∧
      t.crcSeed = s.crcSeed)

/-- OUT is append-only: but for INFLATE's start and RESET, OUT_LEN never decreases, never passes OUT_MAX, and no byte below it changes
(10_state.md R49; 43_symbols_window.md R366). -/
def Obligations.AppendOnly : Prop :=
  ∀ (i : Instr) (s t : State), i ≠ .inflate → i ≠ .reset → s.outLen.toNat ≤ s.outMax.toNat → exec i s = .next t →
    s.outLen.toNat ≤ t.outLen.toNat ∧ t.outLen.toNat ≤ t.outMax.toNat ∧
    ∀ a, a < s.outLen.toNat → byteAt t .out a = byteAt s .out a

/-- Error entry: an instruction that raises `e` leaves exactly the registers the entry writes, the cursor, the internal registers its
element had written, and for a stream element the phase ERROR; memory, OUT_LEN and CK_RESULT are as they were (60_exceptions.md R520,
R524). INFLATE's own start is `InflateStart`. -/
def Obligations.ErrorEntry : Prop :=
  ∀ (i : Instr) (s t : State) (e : Err), i ≠ .inflate → s.error = none → exec i s = .next t → t.error = some e →
    t = { s with error := some e, err := true, ok := false, busy := false, intErr := true, phase := t.phase, lastOp := t.lastOp,
                 inner := t.inner, bitpos := t.bitpos, bfinal := t.bfinal, btype := t.btype, lens := t.lens,
                 litTree := t.litTree, distTree := t.distTree, clenTree := t.clenTree } ∧
    (i.format ≠ .cmd → t.phase = .error ∧ t.lastOp = s.lastOp) ∧
    (i.format = .cmd → t.phase = s.phase ∧ t.bitpos = s.bitpos ∧ t.bfinal = s.bfinal ∧ t.btype = s.btype ∧ t.lens = s.lens ∧
      t.litTree = s.litTree ∧ t.distTree = s.distTree ∧ t.clenTree = s.clenTree)

/-- Every INFLATE element after the start moves the cursor on, or fails (42_blocks.md R332). -/
def Obligations.Progress : Prop :=
  ∀ s t : State, s.Inv → s.running = true → s.host = [] → step s = .next t →
    t.err = true ∨ s.bitpos.toNat < t.bitpos.toNat

/-- INFLATE cannot hang: from its acceptance, or from any later point, it ends in DONE without error or in ERROR with one, within
`8 * (IN_LEN - IN_START) + 2` elements (42_blocks.md R332; 60_exceptions.md R521). -/
def Obligations.InflateEnds : Prop :=
  ∀ s : State, s.Inv → s.coreTurn → s.lastOp = some .inflate →
    ∃ (k : Nat) (t : State), k ≤ 8 * (s.inLen.toNat - s.inStart.toNat) + 2 ∧ Host.Core.run core k s = .next t ∧
      t.busy = false ∧ (t.phase = .done ∧ t.ok = true ∧ t.err = false ∨ t.phase = .error ∧ t.ok = false ∧ t.err = true)

/-- What no rule gives a value is unobservable through the core: two states that differ only in bytes at or above IN_LEN, OUT_LEN and
DICT_LEN take the same step, to states that differ in nothing else (70_reset_and_hazards.md R601; 20_memory.md R101, R102). -/
def Obligations.UnspecifiedUnseen : Prop :=
  ∀ s s' t : State, s.sameValid s' → s.host = [] → step s = .next t → ∃ t', step s' = .next t' ∧ t.sameValid t'

/-! ### Invariants -/

/-- Every step keeps the invariant (60_exceptions.md R520, R521; 45_commands.md R451; 40_bit_reader.md R205; 10_state.md R65). -/
def Obligations.InvStep : Prop :=
  ∀ s t : State, s.Inv → step s = .next t → t.Inv

/-- The invariant holds after reset, for every size of IN and OUT (70_reset_and_hazards.md R601; 00_scope.md R6). -/
def Obligations.InvReset : Prop :=
  (∀ a b : BitVec 25, 1 ≤ a.toNat → a.toNat ≤ 2 ^ 24 → 1 ≤ b.toNat → b.toNat ≤ 2 ^ 24 → (State.resetWith a b).Inv) ∧
  State.reset.Inv

/-- Every step keeps the memories in their canonical form, from every state that has them so. -/
def Obligations.MemoriesStep : Prop :=
  ∀ s t : State, s.memoriesOk → step s = .next t → t.memoriesOk

/-- From a state of the invariant no step faults, and a step is refused just when the host's next access would write a byte of IN or
DICT while BUSY is 1 (70_reset_and_hazards.md R621; 93 U5). That one such byte refuses the whole access, at a window's edge too, is the
model's choice (log entry 10). -/
def Obligations.StopsOnlyOnInputWrite : Prop :=
  ∀ s : State, s.Inv →
    (∀ f, step s ≠ .fault f) ∧
    (∀ r, step s = .refused r ↔
      r = .inputWriteWhileBusy ∧ s.busy = true ∧
        ∃ (a v : Word) (n : Width) (rest : List HostAct), s.host = .write a n v :: rest ∧ 0x100 ≤ a.toNat ∧
          ∃ k j, k < n.bytes ∧
            (regionOf s (a.toNat + k) = .byteOf .inp j ∨ regionOf s (a.toNat + k) = .byteOf .dict j))

/-! ### Checksums -/

/-- The result of one Adler-32, passed as the seed of the next, continues the sum (44_checksums.md R401). -/
def Obligations.AdlerChain : Prop :=
  ∀ (seed : Word) (x y : List Byte), adler32 (adler32 seed x) y = adler32 seed (x ++ y)

/-- Reducing once at the end gives the same as reducing after every byte (44_checksums.md R400, R402). -/
def Obligations.AdlerSums : Prop :=
  ∀ (seed : Word) (x : List Byte),
    let ab := x.foldl (fun (ab : Nat × Nat) c => (ab.1 + c.toNat, ab.2 + (ab.1 + c.toNat))) (seed.toNat % 65536, seed.toNat / 65536)
    (adler32 seed x).toNat = ab.2 % 65521 * 65536 + ab.1 % 65521

/-- CRC chaining (44_checksums.md R412). -/
def Obligations.CrcChain : Prop :=
  ∀ (seed : Word) (x y : List Byte), crc32 (crc32 seed x) y = crc32 seed (x ++ y)

/-- The check values: of the source, and of "ABCD" and "123456789" (44_checksums.md R422, R400, R410, R411). -/
def Obligations.CheckValues : Prop :=
  adler32 1#32 [] = 1#32 ∧ crc32 0#32 [] = 0#32 ∧
  adler32 1#32 [0x41#8, 0x42#8, 0x43#8, 0x44#8] = 0x0298010B#32 ∧
  crc32 0#32 [0x31#8, 0x32#8, 0x33#8, 0x34#8, 0x35#8, 0x36#8, 0x37#8, 0x38#8, 0x39#8] = 0xCBF43926#32 ∧
  crcTab 0#8 = 0x00000000#32 ∧ crcTab 1#8 = 0x77073096#32 ∧ crcTab 2#8 = 0xEE0E612C#32 ∧ crcTab 8#8 = 0x0EDB8832#32 ∧
  crcTab 128#8 = 0xEDB88320#32 ∧ crcTab 255#8 = 0x2D02EF8D#32

/-- ADLER32 and CRC32 complete on a region within the valid length of the memory CK_SRC selects: the checksum of its bytes in
ascending order, and the flags of an accepted command that ended well (45_commands.md R455, R456; 44_checksums.md R420, R421). -/
def Obligations.ChecksumCommands : Prop :=
  ∀ (s : State) (sp : Space) (valid : Nat),
    (s.ckSrc = 0#2 ∧ sp = .inp ∧ valid = s.inLen.toNat ∨ s.ckSrc = 1#2 ∧ sp = .out ∧ valid = s.outLen.toNat ∨
      s.ckSrc = 2#2 ∧ sp = .dict ∧ valid = s.dictLen.toNat) →
    s.ckOff.toNat + s.ckLen.toNat ≤ valid →
    let x := (List.range s.ckLen.toNat).map fun k => byteAt s sp (s.ckOff.toNat + k)
    let t := { s with err := false, ok := true, error := none, busy := false, intDone := true }
    exec .adler32 s = .next { t with lastOp := some .adler32, ckResult := adler32 s.adlerSeed x } ∧
    exec .crc32 s = .next { t with lastOp := some .crc32, ckResult := crc32 s.crcSeed x }

/-- A reserved source, or a region past the valid length in unbounded integers, is `ChecksumRange`; CK_RESULT, STATUS.STATE, BITPOS,
OUT_LEN and BLKINFO keep their values (44_checksums.md R420; 60_exceptions.md R520, R524). -/
def Obligations.ChecksumRange : Prop :=
  ∀ s : State,
    (s.ckSrc = 3#2 ∨ s.ckSrc = 0#2 ∧ s.inLen.toNat < s.ckOff.toNat + s.ckLen.toNat ∨
      s.ckSrc = 1#2 ∧ s.outLen.toNat < s.ckOff.toNat + s.ckLen.toNat ∨
      s.ckSrc = 2#2 ∧ s.dictLen.toNat < s.ckOff.toNat + s.ckLen.toNat) →
    let t := { s with error := some .checksumRange, err := true, ok := false, busy := false, intErr := true }
    exec .adler32 s = .next { t with lastOp := some .adler32 } ∧ exec .crc32 s = .next { t with lastOp := some .crc32 }

/-! ### Commands -/

/-- NOP changes nothing (45_commands.md R453). -/
def Obligations.NopChangesNothing : Prop := ∀ s : State, exec .nop s = .next s

/-- INFLATE accepted and started: every register its start sets; or `NeedPresetDictionary`, before any bit is read (45_commands.md
R451, R452, R454; 43_symbols_window.md R367; 60_exceptions.md R520). That the meaning holds the acceptance as well as the start is the
model's choice (log entry 11). -/
def Obligations.InflateStart : Prop :=
  ∀ s : State,
    let t := { s with lastOp := some .inflate, bitpos := BitVec.ofNat 28 (8 * s.inStart.toNat), outLen := 0#25, bfinal := 0#1,
                      btype := 0#2, blkcnt := 0#24, litSel := false, distSel := false, inner := .none, ok := false }
    (s.dictReq = false ∨ s.dictLen ≠ 0#17 →
      exec .inflate s = .next { t with err := false, error := none, busy := true, phase := .header }) ∧
    (s.dictReq = true → s.dictLen = 0#17 →
      exec .inflate s =
        .next { t with err := true, error := some .needPresetDictionary, busy := false, intErr := true, phase := .error })

/-- RESET: every register of the register block reads its reset value, the internal registers hold theirs, and the memories, `lens` and
the tree stores keep their contents (45_commands.md R457; 70_reset_and_hazards.md R600, R601). The last line is the model's own: the
host's queue and the model's counters go on (log entry 21). -/
def Obligations.Reset : Prop :=
  ∀ s : State, ∃ t, exec .reset s = .next t ∧
    (∀ off, off < 0x100 → regRead t off = if off = 0x40 then 1#32 else 0#32) ∧ irq t = false ∧
    t.phase = .idle ∧ t.bfinal = 0#1 ∧ t.btype = 0#2 ∧ t.litSel = false ∧ t.distSel = false ∧ t.blkcnt = 0#24 ∧
    t.inMem = s.inMem ∧ t.outMem = s.outMem ∧ t.dictMem = s.dictMem ∧ t.lens = s.lens ∧ t.litTree = s.litTree ∧
    t.distTree = s.distTree ∧ t.clenTree = s.clenTree ∧ t.inMax = s.inMax ∧ t.outMax = s.outMax ∧
    t.host = s.host ∧ t.hostGot = s.hostGot ∧ t.draw = s.draw ∧ t.epoch = s.epoch

/-- After power-on reset every register reads its reset value, the internal registers hold theirs, and IRQ is 0
(70_reset_and_hazards.md R601, R602), for every size of IN and OUT. -/
def Obligations.ResetState : Prop :=
  ∀ a b : BitVec 25,
    (∀ off, off < 0x100 → regRead (State.resetWith a b) off = if off = 0x40 then 1#32 else 0#32) ∧
    irq (State.resetWith a b) = false ∧ (State.resetWith a b).busy = false ∧ (State.resetWith a b).phase = .idle ∧
    (State.resetWith a b).litSel = false ∧ (State.resetWith a b).distSel = false ∧ State.reset = State.resetWith State.reset.inMax State.reset.outMax

/-- ILLEGAL_CMD: while idle `IllegalCommand` with STATUS.STATE, LASTOP and every other register unchanged; while busy ignored
(45_commands.md R450, R458). -/
def Obligations.IllegalCommand : Prop :=
  ∀ (w : Word) (s : State),
    (s.busy = false → exec (.illegalCmd w) s =
      .next { s with error := some .illegalCommand, err := true, ok := false, busy := false, intErr := true }) ∧
    (s.busy = true → exec (.illegalCmd w) s = .next s)

/-- A host write to CMD: while busy ignored but for RESET; while idle the acceptance of INFLATE, ADLER32 and CRC32 as one step, and any
other word run at once (45_commands.md R450, R451). -/
def Obligations.CommandWrite : Prop :=
  ∀ (s : State) (w : Word) (rest : List HostAct), s.inner = .none → s.host = .write 0#32 .b4 w :: rest →
    let u := { s with host := rest, draw := s.draw + 1 }
    let accepted := { u with err := false, ok := false, error := none, busy := true }
    (s.busy = true → w = 0xFF#32 → step s = exec .reset u) ∧
    (s.busy = true → w ≠ 0xFF#32 → step s = .next u) ∧
    (s.busy = false → w = 1#32 → step s = .next { accepted with lastOp := some .inflate }) ∧
    (s.busy = false → w = 2#32 → step s = .next { accepted with lastOp := some .adler32 }) ∧
    (s.busy = false → w = 3#32 → step s = .next { accepted with lastOp := some .crc32 }) ∧
    (s.busy = false → w ≠ 1#32 → w ≠ 2#32 → w ≠ 3#32 → ∃ i, decode .cmd w.toNat = .ok i ∧ step s = exec i u)

/-! ### The host bus -/

/-- Host writes outside the registers while idle. Within IN or DICT a write of `n` bytes stores the value's bytes, least significant
first, changes no other byte and no register, and reads back. At any address each byte goes to its own region: a byte of IN or DICT takes
it, a byte of OUT or an unmapped one ignores it, also where the access straddles a region's edge (20_memory.md R102, R105, R106, R107).
Addresses do not wrap (log entry 13). -/
def Obligations.BusMemory : Prop :=
  ∀ (s : State) (a v : Word) (n : Width) (rest : List HostAct),
    s.host = .write a n v :: rest → s.busy = false →
    (∀ (sp : Space) (i : Nat),
      (sp = .inp ∧ a.toNat = 0x01000000 + i ∧ i + n.bytes ≤ s.inMax.toNat ∨
        sp = .dict ∧ a.toNat = 0x00010000 + i ∧ i + n.bytes ≤ 32768) →
      ∃ t, step s = .next t ∧
        (∀ k, k < n.bytes → byteAt t sp (i + k) = v.extractLsb' (8 * k) 8) ∧
        (∀ sp' j, sp' ≠ sp ∨ j < i ∨ i + n.bytes ≤ j → byteAt t sp' j = byteAt s sp' j) ∧
        memRead t a n = BitVec.ofNat 32 (v.toNat % 2 ^ (8 * n.bytes)) ∧
        t = { s with host := rest, draw := s.draw + 1, inMem := t.inMem, dictMem := t.dictMem }) ∧
    (s.inMax.toNat ≤ 2 ^ 24 → 0x100 ≤ a.toNat →
      let inIn := fun k i : Nat => a.toNat + k = 0x01000000 + i ∧ i < s.inMax.toNat
      let inDict := fun k i : Nat => a.toNat + k = 0x00010000 + i ∧ i < 32768
      ∃ t, step s = .next t ∧
        (∀ k i, k < n.bytes → inIn k i → byteAt t .inp i = v.extractLsb' (8 * k) 8) ∧
        (∀ k i, k < n.bytes → inDict k i → byteAt t .dict i = v.extractLsb' (8 * k) 8) ∧
        (∀ i, (∀ k, k < n.bytes → ¬inIn k i) → byteAt t .inp i = byteAt s .inp i) ∧
        (∀ i, (∀ k, k < n.bytes → ¬inDict k i) → byteAt t .dict i = byteAt s .dict i) ∧
        t = { s with host := rest, draw := s.draw + 1, inMem := t.inMem, dictMem := t.dictMem } ∧
        ((∀ k i, k < n.bytes → ¬inIn k i ∧ ¬inDict k i) → t = { s with host := rest, draw := s.draw + 1 }))

/-- A host read returns its value and changes nothing else. An aligned 32-bit read in the register region is the register's word; any
other access there reads 0 and writes nothing. Elsewhere the value is little-endian, byte by byte: IN, DICT and the output below OUT_LEN
as they stand, an unmapped byte 0 (20_memory.md R102, R105, R106, R107, R114). Addresses do not wrap (log entry 13). -/
def Obligations.BusAccess : Prop :=
  ∀ (s : State) (a v : Word) (n : Width) (rest : List HostAct), (s.busy = true → s.inner = .none) →
    (s.host = .read a n :: rest → step s = .next { s with host := rest, hostGot := s.hostGot ++ [memRead s a n] }) ∧
    (a.toNat < 0x100 → n = .b4 → a.toNat % 4 = 0 → memRead s a n = regRead s a.toNat) ∧
    (a.toNat < 0x100 → ¬(n = .b4 ∧ a.toNat % 4 = 0) →
      memRead s a n = 0#32 ∧
      (s.host = .write a n v :: rest → step s = .next { s with host := rest, draw := s.draw + 1 })) ∧
    (s.inMax.toNat ≤ 2 ^ 24 → 0x100 ≤ a.toNat →
      (memRead s a n).toNat < 2 ^ (8 * n.bytes) ∧
      ∀ k, k < n.bytes →
        let p := a.toNat + k
        let byte := (memRead s a n).extractLsb' (8 * k) 8
        (∀ i, p = 0x01000000 + i → i < s.inMax.toNat → byte = byteAt s .inp i) ∧
        (∀ i, p = 0x00010000 + i → i < 32768 → byte = byteAt s .dict i) ∧
        (∀ i, p = 0x02000000 + i → i < s.outMax.toNat → i < s.outLen.toNat → byte = byteAt s .out i) ∧
        (p < 0x00010000 ∨ 0x00018000 ≤ p ∧ p < 0x01000000 ∨ 0x01000000 + s.inMax.toNat ≤ p ∧ p < 0x02000000 ∨
            0x02000000 + s.outMax.toNat ≤ p →
          byte = 0#8))

/-- Host writes while busy: configuration and read-only registers ignored, INT_STATUS honoured, OUT and unmapped bytes ignored, IN and
DICT refused (70_reset_and_hazards.md R620, R621). That one byte in IN or DICT refuses the whole access, at a window's edge too, is the
model's choice (log entry 10). -/
def Obligations.BusyWrites : Prop :=
  ∀ (s : State) (a v : Word) (n : Width) (rest : List HostAct), s.busy = true → s.inner = .none →
    s.host = .write a n v :: rest →
    let u := { s with host := rest, draw := s.draw + 1 }
    (a.toNat < 0x100 → a.toNat ≠ 0 → a.toNat ≠ 0x10 → step s = .next u) ∧
    (a = 0x10#32 → n = .b4 →
      step s = .next { u with intDone := s.intDone && !v.getLsbD 0, intErr := s.intErr && !v.getLsbD 1 }) ∧
    (0x100 ≤ a.toNat →
      (∀ k j, k < n.bytes →
        regionOf s (a.toNat + k) ≠ .byteOf .inp j ∧ regionOf s (a.toNat + k) ≠ .byteOf .dict j) → step s = .next u) ∧
    (∀ k j, k < n.bytes → 0x100 ≤ a.toNat →
      regionOf s (a.toNat + k) = .byteOf .inp j ∨ regionOf s (a.toNat + k) = .byteOf .dict j →
      step s = .refused .inputWriteWhileBusy)

/-- A host write to a register other than CMD while idle: what the register reads after it, that every other register reads as before,
and that no memory or internal register changes (10_state.md R40, R44, R45, R46, R50, R52 to R58, R60). -/
def Obligations.RegisterWrites : Prop :=
  ∀ (s : State) (a v : Word) (rest : List HostAct), s.busy = false → s.host = .write a .b4 v :: rest → a ≠ 0#32 →
    a.toNat < 0x100 → a.toNat % 4 = 0 →
    ∃ t, step s = .next t ∧
      regRead t a.toNat = (
        if a = 0x0C#32 then v &&& 1#32
        else if a = 0x10#32 then regRead s 0x10 &&& ~~~v
        else if a = 0x14#32 then v &&& 3#32
        else if a = 0x18#32 then v &&& 0xFFFFFF#32
        else if a = 0x1C#32 then BitVec.ofNat 32 (min v.toNat s.inMax.toNat)
        else if a = 0x20#32 then BitVec.ofNat 32 (min v.toNat 32768)
        else if a = 0x34#32 then v &&& 3#32
        else if a = 0x38#32 ∨ a = 0x3C#32 ∨ a = 0x40#32 ∨ a = 0x44#32 then v
        else regRead s a.toNat) ∧
      (∀ off, off ≠ a.toNat → regRead t off = regRead s off) ∧
      t.inMem = s.inMem ∧ t.outMem = s.outMem ∧ t.dictMem = s.dictMem ∧ t.phase = s.phase ∧ t.litSel = s.litSel ∧
      t.distSel = s.distSel ∧ t.litTree = s.litTree ∧ t.distTree = s.distTree ∧ t.clenTree = s.clenTree ∧ t.lens = s.lens ∧
      t.host = rest

/-- Every register's word in full, reserved fields and registers 0: STATUS with STATE's and LASTOP's values, ERRCODE with the code and
class of every error, BLKINFO, INT_STATUS, the enables, the cursor, IN_CONSUMED as `ceil(BITPOS / 8)`, the lengths, the checksum
registers; and IRQ (10_state.md R41 to R60; 60_exceptions.md R500, R501, R530). -/
def Obligations.StatusWord : Prop :=
  (∀ e : Err × BitVec 8 × BitVec 3, e ∈ [(.unexpectedEndOfInput, 1#8, 5#3), (.invalidBlockType, 2#8, 4#3),
      (.invalidStoredBlockLength, 3#8, 1#3), (.invalidHuffmanTree, 4#8, 2#3), (.invalidCodeLengths, 5#8, 2#3),
      (.invalidRepeatCode, 6#8, 1#3), (.tooManyCodeLengths, 7#8, 1#3), (.invalidCode, 8#8, 1#3), (.invalidLengthSymbol, 9#8, 1#3),
      (.invalidDistanceSymbol, 10#8, 1#3), (.distanceTooFar, 11#8, 3#3), (.needPresetDictionary, 12#8, 4#3),
      (.outputOverflow, 13#8, 5#3), (.illegalCommand, 14#8, 4#3), (.checksumRange, 15#8, 5#3)] →
    e.1.code = e.2.1 ∧ e.1.errClass = e.2.2) ∧
  ∀ s : State,
    ((regRead s 0x04).getLsbD 0 = s.busy ∧ (regRead s 0x04).extractLsb' 1 3 =
        (match s.phase with
          | .idle => 0#3 | .header => 1#3 | .stored => 2#3 | .fixedCodes => 3#3 | .dynHeader => 4#3 | .dynCodes => 4#3
          | .done => 5#3 | .error => 6#3) ∧
      (regRead s 0x04).getLsbD 4 = s.err ∧ (regRead s 0x04).getLsbD 5 = s.ok ∧ (regRead s 0x04).extractLsb' 6 2 = 0#2 ∧
      (regRead s 0x04).extractLsb' 8 8 =
        (match s.lastOp with
          | none => 0x00#8 | some .inflate => 0x01#8 | some .adler32 => 0x02#8 | some .crc32 => 0x03#8) ∧
      (regRead s 0x04).extractLsb' 16 16 = 0#16) ∧
    (s.error = none → regRead s 0x08 = 0#32) ∧
    (∀ e, s.error = some e → (regRead s 0x08).extractLsb' 0 8 = e.code ∧ (regRead s 0x08).extractLsb' 8 3 = e.errClass ∧
      (regRead s 0x08).extractLsb' 11 21 = 0#21) ∧
    ((regRead s 0x30).extractLsb' 0 1 = s.bfinal ∧ (regRead s 0x30).extractLsb' 1 2 = s.btype ∧
      (regRead s 0x30).extractLsb' 3 5 = 0#5 ∧ (regRead s 0x30).extractLsb' 8 24 = s.blkcnt) ∧
    ((regRead s 0x10).getLsbD 0 = s.intDone ∧ (regRead s 0x10).getLsbD 1 = s.intErr ∧ (regRead s 0x10).extractLsb' 2 30 = 0#30 ∧
      (regRead s 0x14).getLsbD 0 = s.doneEn ∧ (regRead s 0x14).getLsbD 1 = s.errEn ∧ (regRead s 0x14).extractLsb' 2 30 = 0#30 ∧
      (regRead s 0x0C).getLsbD 0 = s.dictReq ∧ (regRead s 0x0C).extractLsb' 1 31 = 0#31) ∧
    ((regRead s 0x24).toNat = s.outLen.toNat ∧ (regRead s 0x28).toNat = s.bitpos.toNat ∧
      s.bitpos.toNat ≤ 8 * (regRead s 0x2C).toNat ∧ 8 * (regRead s 0x2C).toNat < s.bitpos.toNat + 8 ∧
      (regRead s 0x18).toNat = s.inStart.toNat ∧ (regRead s 0x1C).toNat = s.inLen.toNat ∧
      (regRead s 0x20).toNat = s.dictLen.toNat) ∧
    ((regRead s 0x34).toNat = s.ckSrc.toNat ∧ regRead s 0x38 = s.ckOff ∧ regRead s 0x3C = s.ckLen ∧
      regRead s 0x40 = s.adlerSeed ∧ regRead s 0x44 = s.crcSeed ∧ regRead s 0x48 = s.ckResult) ∧
    (regRead s 0x00 = 0#32 ∧ ∀ off, 0x4C ≤ off → off < 0x100 → regRead s off = 0#32) ∧
    (irq s = true ↔ s.intDone = true ∧ s.doneEn = true ∨ s.intErr = true ∧ s.errEn = true)

end
end

