-- ==== Sys2Proof/Laws/State.lean ====
section
/-! SUPPORT. One lemma per field per named update of State, true by rfl: no later proof unfolds a record update. -/

namespace Sys2Proof.Machine

/-! ### setCursor -/

@[simp] theorem setCursor_inMax (p : Nat) (s : State) : (setCursor p s).inMax = s.inMax := rfl
@[simp] theorem setCursor_outMax (p : Nat) (s : State) : (setCursor p s).outMax = s.outMax := rfl
@[simp] theorem setCursor_inMem (p : Nat) (s : State) : (setCursor p s).inMem = s.inMem := rfl
@[simp] theorem setCursor_outMem (p : Nat) (s : State) : (setCursor p s).outMem = s.outMem := rfl
@[simp] theorem setCursor_dictMem (p : Nat) (s : State) : (setCursor p s).dictMem = s.dictMem := rfl
@[simp] theorem setCursor_busy (p : Nat) (s : State) : (setCursor p s).busy = s.busy := rfl
@[simp] theorem setCursor_err (p : Nat) (s : State) : (setCursor p s).err = s.err := rfl
@[simp] theorem setCursor_ok (p : Nat) (s : State) : (setCursor p s).ok = s.ok := rfl
@[simp] theorem setCursor_lastOp (p : Nat) (s : State) : (setCursor p s).lastOp = s.lastOp := rfl
@[simp] theorem setCursor_error (p : Nat) (s : State) : (setCursor p s).error = s.error := rfl
@[simp] theorem setCursor_dictReq (p : Nat) (s : State) : (setCursor p s).dictReq = s.dictReq := rfl
@[simp] theorem setCursor_intDone (p : Nat) (s : State) : (setCursor p s).intDone = s.intDone := rfl
@[simp] theorem setCursor_intErr (p : Nat) (s : State) : (setCursor p s).intErr = s.intErr := rfl
@[simp] theorem setCursor_doneEn (p : Nat) (s : State) : (setCursor p s).doneEn = s.doneEn := rfl
@[simp] theorem setCursor_errEn (p : Nat) (s : State) : (setCursor p s).errEn = s.errEn := rfl
@[simp] theorem setCursor_inStart (p : Nat) (s : State) : (setCursor p s).inStart = s.inStart := rfl
@[simp] theorem setCursor_inLen (p : Nat) (s : State) : (setCursor p s).inLen = s.inLen := rfl
@[simp] theorem setCursor_dictLen (p : Nat) (s : State) : (setCursor p s).dictLen = s.dictLen := rfl
@[simp] theorem setCursor_outLen (p : Nat) (s : State) : (setCursor p s).outLen = s.outLen := rfl
@[simp] theorem setCursor_bitpos (p : Nat) (s : State) : (setCursor p s).bitpos = BitVec.ofNat 28 p := rfl
@[simp] theorem setCursor_bfinal (p : Nat) (s : State) : (setCursor p s).bfinal = s.bfinal := rfl
@[simp] theorem setCursor_btype (p : Nat) (s : State) : (setCursor p s).btype = s.btype := rfl
@[simp] theorem setCursor_blkcnt (p : Nat) (s : State) : (setCursor p s).blkcnt = s.blkcnt := rfl
@[simp] theorem setCursor_ckSrc (p : Nat) (s : State) : (setCursor p s).ckSrc = s.ckSrc := rfl
@[simp] theorem setCursor_ckOff (p : Nat) (s : State) : (setCursor p s).ckOff = s.ckOff := rfl
@[simp] theorem setCursor_ckLen (p : Nat) (s : State) : (setCursor p s).ckLen = s.ckLen := rfl
@[simp] theorem setCursor_adlerSeed (p : Nat) (s : State) : (setCursor p s).adlerSeed = s.adlerSeed := rfl
@[simp] theorem setCursor_crcSeed (p : Nat) (s : State) : (setCursor p s).crcSeed = s.crcSeed := rfl
@[simp] theorem setCursor_ckResult (p : Nat) (s : State) : (setCursor p s).ckResult = s.ckResult := rfl
@[simp] theorem setCursor_phase (p : Nat) (s : State) : (setCursor p s).phase = s.phase := rfl
@[simp] theorem setCursor_litSel (p : Nat) (s : State) : (setCursor p s).litSel = s.litSel := rfl
@[simp] theorem setCursor_distSel (p : Nat) (s : State) : (setCursor p s).distSel = s.distSel := rfl
@[simp] theorem setCursor_litTree (p : Nat) (s : State) : (setCursor p s).litTree = s.litTree := rfl
@[simp] theorem setCursor_distTree (p : Nat) (s : State) : (setCursor p s).distTree = s.distTree := rfl
@[simp] theorem setCursor_clenTree (p : Nat) (s : State) : (setCursor p s).clenTree = s.clenTree := rfl
@[simp] theorem setCursor_lens (p : Nat) (s : State) : (setCursor p s).lens = s.lens := rfl
@[simp] theorem setCursor_inner (p : Nat) (s : State) : (setCursor p s).inner = s.inner := rfl
@[simp] theorem setCursor_host (p : Nat) (s : State) : (setCursor p s).host = s.host := rfl
@[simp] theorem setCursor_hostGot (p : Nat) (s : State) : (setCursor p s).hostGot = s.hostGot := rfl
@[simp] theorem setCursor_draw (p : Nat) (s : State) : (setCursor p s).draw = s.draw := rfl
@[simp] theorem setCursor_epoch (p : Nat) (s : State) : (setCursor p s).epoch = s.epoch := rfl

/-! ### outAppend -/

@[simp] theorem outAppend_inMax (b : Byte) (s : State) : (outAppend b s).inMax = s.inMax := rfl
@[simp] theorem outAppend_outMax (b : Byte) (s : State) : (outAppend b s).outMax = s.outMax := rfl
@[simp] theorem outAppend_inMem (b : Byte) (s : State) : (outAppend b s).inMem = s.inMem := rfl
@[simp] theorem outAppend_outMem (b : Byte) (s : State) : (outAppend b s).outMem = Memory.write s.outMem s.outLen.toNat b := rfl
@[simp] theorem outAppend_dictMem (b : Byte) (s : State) : (outAppend b s).dictMem = s.dictMem := rfl
@[simp] theorem outAppend_busy (b : Byte) (s : State) : (outAppend b s).busy = s.busy := rfl
@[simp] theorem outAppend_err (b : Byte) (s : State) : (outAppend b s).err = s.err := rfl
@[simp] theorem outAppend_ok (b : Byte) (s : State) : (outAppend b s).ok = s.ok := rfl
@[simp] theorem outAppend_lastOp (b : Byte) (s : State) : (outAppend b s).lastOp = s.lastOp := rfl
@[simp] theorem outAppend_error (b : Byte) (s : State) : (outAppend b s).error = s.error := rfl
@[simp] theorem outAppend_dictReq (b : Byte) (s : State) : (outAppend b s).dictReq = s.dictReq := rfl
@[simp] theorem outAppend_intDone (b : Byte) (s : State) : (outAppend b s).intDone = s.intDone := rfl
@[simp] theorem outAppend_intErr (b : Byte) (s : State) : (outAppend b s).intErr = s.intErr := rfl
@[simp] theorem outAppend_doneEn (b : Byte) (s : State) : (outAppend b s).doneEn = s.doneEn := rfl
@[simp] theorem outAppend_errEn (b : Byte) (s : State) : (outAppend b s).errEn = s.errEn := rfl
@[simp] theorem outAppend_inStart (b : Byte) (s : State) : (outAppend b s).inStart = s.inStart := rfl
@[simp] theorem outAppend_inLen (b : Byte) (s : State) : (outAppend b s).inLen = s.inLen := rfl
@[simp] theorem outAppend_dictLen (b : Byte) (s : State) : (outAppend b s).dictLen = s.dictLen := rfl
@[simp] theorem outAppend_outLen (b : Byte) (s : State) : (outAppend b s).outLen = s.outLen + 1#25 := rfl
@[simp] theorem outAppend_bitpos (b : Byte) (s : State) : (outAppend b s).bitpos = s.bitpos := rfl
@[simp] theorem outAppend_bfinal (b : Byte) (s : State) : (outAppend b s).bfinal = s.bfinal := rfl
@[simp] theorem outAppend_btype (b : Byte) (s : State) : (outAppend b s).btype = s.btype := rfl
@[simp] theorem outAppend_blkcnt (b : Byte) (s : State) : (outAppend b s).blkcnt = s.blkcnt := rfl
@[simp] theorem outAppend_ckSrc (b : Byte) (s : State) : (outAppend b s).ckSrc = s.ckSrc := rfl
@[simp] theorem outAppend_ckOff (b : Byte) (s : State) : (outAppend b s).ckOff = s.ckOff := rfl
@[simp] theorem outAppend_ckLen (b : Byte) (s : State) : (outAppend b s).ckLen = s.ckLen := rfl
@[simp] theorem outAppend_adlerSeed (b : Byte) (s : State) : (outAppend b s).adlerSeed = s.adlerSeed := rfl
@[simp] theorem outAppend_crcSeed (b : Byte) (s : State) : (outAppend b s).crcSeed = s.crcSeed := rfl
@[simp] theorem outAppend_ckResult (b : Byte) (s : State) : (outAppend b s).ckResult = s.ckResult := rfl
@[simp] theorem outAppend_phase (b : Byte) (s : State) : (outAppend b s).phase = s.phase := rfl
@[simp] theorem outAppend_litSel (b : Byte) (s : State) : (outAppend b s).litSel = s.litSel := rfl
@[simp] theorem outAppend_distSel (b : Byte) (s : State) : (outAppend b s).distSel = s.distSel := rfl
@[simp] theorem outAppend_litTree (b : Byte) (s : State) : (outAppend b s).litTree = s.litTree := rfl
@[simp] theorem outAppend_distTree (b : Byte) (s : State) : (outAppend b s).distTree = s.distTree := rfl
@[simp] theorem outAppend_clenTree (b : Byte) (s : State) : (outAppend b s).clenTree = s.clenTree := rfl
@[simp] theorem outAppend_lens (b : Byte) (s : State) : (outAppend b s).lens = s.lens := rfl
@[simp] theorem outAppend_inner (b : Byte) (s : State) : (outAppend b s).inner = s.inner := rfl
@[simp] theorem outAppend_host (b : Byte) (s : State) : (outAppend b s).host = s.host := rfl
@[simp] theorem outAppend_hostGot (b : Byte) (s : State) : (outAppend b s).hostGot = s.hostGot := rfl
@[simp] theorem outAppend_draw (b : Byte) (s : State) : (outAppend b s).draw = s.draw := rfl
@[simp] theorem outAppend_epoch (b : Byte) (s : State) : (outAppend b s).epoch = s.epoch := rfl

/-! ### accept -/

@[simp] theorem accept_inMax (op : Command) (s : State) : (accept op s).inMax = s.inMax := rfl
@[simp] theorem accept_outMax (op : Command) (s : State) : (accept op s).outMax = s.outMax := rfl
@[simp] theorem accept_inMem (op : Command) (s : State) : (accept op s).inMem = s.inMem := rfl
@[simp] theorem accept_outMem (op : Command) (s : State) : (accept op s).outMem = s.outMem := rfl
@[simp] theorem accept_dictMem (op : Command) (s : State) : (accept op s).dictMem = s.dictMem := rfl
@[simp] theorem accept_busy (op : Command) (s : State) : (accept op s).busy = true := rfl
@[simp] theorem accept_err (op : Command) (s : State) : (accept op s).err = false := rfl
@[simp] theorem accept_ok (op : Command) (s : State) : (accept op s).ok = false := rfl
@[simp] theorem accept_lastOp (op : Command) (s : State) : (accept op s).lastOp = some op := rfl
@[simp] theorem accept_error (op : Command) (s : State) : (accept op s).error = none := rfl
@[simp] theorem accept_dictReq (op : Command) (s : State) : (accept op s).dictReq = s.dictReq := rfl
@[simp] theorem accept_intDone (op : Command) (s : State) : (accept op s).intDone = s.intDone := rfl
@[simp] theorem accept_intErr (op : Command) (s : State) : (accept op s).intErr = s.intErr := rfl
@[simp] theorem accept_doneEn (op : Command) (s : State) : (accept op s).doneEn = s.doneEn := rfl
@[simp] theorem accept_errEn (op : Command) (s : State) : (accept op s).errEn = s.errEn := rfl
@[simp] theorem accept_inStart (op : Command) (s : State) : (accept op s).inStart = s.inStart := rfl
@[simp] theorem accept_inLen (op : Command) (s : State) : (accept op s).inLen = s.inLen := rfl
@[simp] theorem accept_dictLen (op : Command) (s : State) : (accept op s).dictLen = s.dictLen := rfl
@[simp] theorem accept_outLen (op : Command) (s : State) : (accept op s).outLen = s.outLen := rfl
@[simp] theorem accept_bitpos (op : Command) (s : State) : (accept op s).bitpos = s.bitpos := rfl
@[simp] theorem accept_bfinal (op : Command) (s : State) : (accept op s).bfinal = s.bfinal := rfl
@[simp] theorem accept_btype (op : Command) (s : State) : (accept op s).btype = s.btype := rfl
@[simp] theorem accept_blkcnt (op : Command) (s : State) : (accept op s).blkcnt = s.blkcnt := rfl
@[simp] theorem accept_ckSrc (op : Command) (s : State) : (accept op s).ckSrc = s.ckSrc := rfl
@[simp] theorem accept_ckOff (op : Command) (s : State) : (accept op s).ckOff = s.ckOff := rfl
@[simp] theorem accept_ckLen (op : Command) (s : State) : (accept op s).ckLen = s.ckLen := rfl
@[simp] theorem accept_adlerSeed (op : Command) (s : State) : (accept op s).adlerSeed = s.adlerSeed := rfl
@[simp] theorem accept_crcSeed (op : Command) (s : State) : (accept op s).crcSeed = s.crcSeed := rfl
@[simp] theorem accept_ckResult (op : Command) (s : State) : (accept op s).ckResult = s.ckResult := rfl
@[simp] theorem accept_phase (op : Command) (s : State) : (accept op s).phase = s.phase := rfl
@[simp] theorem accept_litSel (op : Command) (s : State) : (accept op s).litSel = s.litSel := rfl
@[simp] theorem accept_distSel (op : Command) (s : State) : (accept op s).distSel = s.distSel := rfl
@[simp] theorem accept_litTree (op : Command) (s : State) : (accept op s).litTree = s.litTree := rfl
@[simp] theorem accept_distTree (op : Command) (s : State) : (accept op s).distTree = s.distTree := rfl
@[simp] theorem accept_clenTree (op : Command) (s : State) : (accept op s).clenTree = s.clenTree := rfl
@[simp] theorem accept_lens (op : Command) (s : State) : (accept op s).lens = s.lens := rfl
@[simp] theorem accept_inner (op : Command) (s : State) : (accept op s).inner = s.inner := rfl
@[simp] theorem accept_host (op : Command) (s : State) : (accept op s).host = s.host := rfl
@[simp] theorem accept_hostGot (op : Command) (s : State) : (accept op s).hostGot = s.hostGot := rfl
@[simp] theorem accept_draw (op : Command) (s : State) : (accept op s).draw = s.draw := rfl
@[simp] theorem accept_epoch (op : Command) (s : State) : (accept op s).epoch = s.epoch := rfl

/-! ### raiseCommand -/

@[simp] theorem raiseCommand_inMax (e : Err) (s : State) : (raiseCommand e s).inMax = s.inMax := rfl
@[simp] theorem raiseCommand_outMax (e : Err) (s : State) : (raiseCommand e s).outMax = s.outMax := rfl
@[simp] theorem raiseCommand_inMem (e : Err) (s : State) : (raiseCommand e s).inMem = s.inMem := rfl
@[simp] theorem raiseCommand_outMem (e : Err) (s : State) : (raiseCommand e s).outMem = s.outMem := rfl
@[simp] theorem raiseCommand_dictMem (e : Err) (s : State) : (raiseCommand e s).dictMem = s.dictMem := rfl
@[simp] theorem raiseCommand_busy (e : Err) (s : State) : (raiseCommand e s).busy = false := rfl
@[simp] theorem raiseCommand_err (e : Err) (s : State) : (raiseCommand e s).err = true := rfl
@[simp] theorem raiseCommand_ok (e : Err) (s : State) : (raiseCommand e s).ok = false := rfl
@[simp] theorem raiseCommand_lastOp (e : Err) (s : State) : (raiseCommand e s).lastOp = s.lastOp := rfl
@[simp] theorem raiseCommand_error (e : Err) (s : State) : (raiseCommand e s).error = some e := rfl
@[simp] theorem raiseCommand_dictReq (e : Err) (s : State) : (raiseCommand e s).dictReq = s.dictReq := rfl
@[simp] theorem raiseCommand_intDone (e : Err) (s : State) : (raiseCommand e s).intDone = s.intDone := rfl
@[simp] theorem raiseCommand_intErr (e : Err) (s : State) : (raiseCommand e s).intErr = true := rfl
@[simp] theorem raiseCommand_doneEn (e : Err) (s : State) : (raiseCommand e s).doneEn = s.doneEn := rfl
@[simp] theorem raiseCommand_errEn (e : Err) (s : State) : (raiseCommand e s).errEn = s.errEn := rfl
@[simp] theorem raiseCommand_inStart (e : Err) (s : State) : (raiseCommand e s).inStart = s.inStart := rfl
@[simp] theorem raiseCommand_inLen (e : Err) (s : State) : (raiseCommand e s).inLen = s.inLen := rfl
@[simp] theorem raiseCommand_dictLen (e : Err) (s : State) : (raiseCommand e s).dictLen = s.dictLen := rfl
@[simp] theorem raiseCommand_outLen (e : Err) (s : State) : (raiseCommand e s).outLen = s.outLen := rfl
@[simp] theorem raiseCommand_bitpos (e : Err) (s : State) : (raiseCommand e s).bitpos = s.bitpos := rfl
@[simp] theorem raiseCommand_bfinal (e : Err) (s : State) : (raiseCommand e s).bfinal = s.bfinal := rfl
@[simp] theorem raiseCommand_btype (e : Err) (s : State) : (raiseCommand e s).btype = s.btype := rfl
@[simp] theorem raiseCommand_blkcnt (e : Err) (s : State) : (raiseCommand e s).blkcnt = s.blkcnt := rfl
@[simp] theorem raiseCommand_ckSrc (e : Err) (s : State) : (raiseCommand e s).ckSrc = s.ckSrc := rfl
@[simp] theorem raiseCommand_ckOff (e : Err) (s : State) : (raiseCommand e s).ckOff = s.ckOff := rfl
@[simp] theorem raiseCommand_ckLen (e : Err) (s : State) : (raiseCommand e s).ckLen = s.ckLen := rfl
@[simp] theorem raiseCommand_adlerSeed (e : Err) (s : State) : (raiseCommand e s).adlerSeed = s.adlerSeed := rfl
@[simp] theorem raiseCommand_crcSeed (e : Err) (s : State) : (raiseCommand e s).crcSeed = s.crcSeed := rfl
@[simp] theorem raiseCommand_ckResult (e : Err) (s : State) : (raiseCommand e s).ckResult = s.ckResult := rfl
@[simp] theorem raiseCommand_phase (e : Err) (s : State) : (raiseCommand e s).phase = s.phase := rfl
@[simp] theorem raiseCommand_litSel (e : Err) (s : State) : (raiseCommand e s).litSel = s.litSel := rfl
@[simp] theorem raiseCommand_distSel (e : Err) (s : State) : (raiseCommand e s).distSel = s.distSel := rfl
@[simp] theorem raiseCommand_litTree (e : Err) (s : State) : (raiseCommand e s).litTree = s.litTree := rfl
@[simp] theorem raiseCommand_distTree (e : Err) (s : State) : (raiseCommand e s).distTree = s.distTree := rfl
@[simp] theorem raiseCommand_clenTree (e : Err) (s : State) : (raiseCommand e s).clenTree = s.clenTree := rfl
@[simp] theorem raiseCommand_lens (e : Err) (s : State) : (raiseCommand e s).lens = s.lens := rfl
@[simp] theorem raiseCommand_inner (e : Err) (s : State) : (raiseCommand e s).inner = s.inner := rfl
@[simp] theorem raiseCommand_host (e : Err) (s : State) : (raiseCommand e s).host = s.host := rfl
@[simp] theorem raiseCommand_hostGot (e : Err) (s : State) : (raiseCommand e s).hostGot = s.hostGot := rfl
@[simp] theorem raiseCommand_draw (e : Err) (s : State) : (raiseCommand e s).draw = s.draw := rfl
@[simp] theorem raiseCommand_epoch (e : Err) (s : State) : (raiseCommand e s).epoch = s.epoch := rfl

/-! ### raise -/

@[simp] theorem raise_inMax (e : Err) (s : State) : (raise e s).inMax = s.inMax := rfl
@[simp] theorem raise_outMax (e : Err) (s : State) : (raise e s).outMax = s.outMax := rfl
@[simp] theorem raise_inMem (e : Err) (s : State) : (raise e s).inMem = s.inMem := rfl
@[simp] theorem raise_outMem (e : Err) (s : State) : (raise e s).outMem = s.outMem := rfl
@[simp] theorem raise_dictMem (e : Err) (s : State) : (raise e s).dictMem = s.dictMem := rfl
@[simp] theorem raise_busy (e : Err) (s : State) : (raise e s).busy = false := rfl
@[simp] theorem raise_err (e : Err) (s : State) : (raise e s).err = true := rfl
@[simp] theorem raise_ok (e : Err) (s : State) : (raise e s).ok = false := rfl
@[simp] theorem raise_lastOp (e : Err) (s : State) : (raise e s).lastOp = s.lastOp := rfl
@[simp] theorem raise_error (e : Err) (s : State) : (raise e s).error = some e := rfl
@[simp] theorem raise_dictReq (e : Err) (s : State) : (raise e s).dictReq = s.dictReq := rfl
@[simp] theorem raise_intDone (e : Err) (s : State) : (raise e s).intDone = s.intDone := rfl
@[simp] theorem raise_intErr (e : Err) (s : State) : (raise e s).intErr = true := rfl
@[simp] theorem raise_doneEn (e : Err) (s : State) : (raise e s).doneEn = s.doneEn := rfl
@[simp] theorem raise_errEn (e : Err) (s : State) : (raise e s).errEn = s.errEn := rfl
@[simp] theorem raise_inStart (e : Err) (s : State) : (raise e s).inStart = s.inStart := rfl
@[simp] theorem raise_inLen (e : Err) (s : State) : (raise e s).inLen = s.inLen := rfl
@[simp] theorem raise_dictLen (e : Err) (s : State) : (raise e s).dictLen = s.dictLen := rfl
@[simp] theorem raise_outLen (e : Err) (s : State) : (raise e s).outLen = s.outLen := rfl
@[simp] theorem raise_bitpos (e : Err) (s : State) : (raise e s).bitpos = s.bitpos := rfl
@[simp] theorem raise_bfinal (e : Err) (s : State) : (raise e s).bfinal = s.bfinal := rfl
@[simp] theorem raise_btype (e : Err) (s : State) : (raise e s).btype = s.btype := rfl
@[simp] theorem raise_blkcnt (e : Err) (s : State) : (raise e s).blkcnt = s.blkcnt := rfl
@[simp] theorem raise_ckSrc (e : Err) (s : State) : (raise e s).ckSrc = s.ckSrc := rfl
@[simp] theorem raise_ckOff (e : Err) (s : State) : (raise e s).ckOff = s.ckOff := rfl
@[simp] theorem raise_ckLen (e : Err) (s : State) : (raise e s).ckLen = s.ckLen := rfl
@[simp] theorem raise_adlerSeed (e : Err) (s : State) : (raise e s).adlerSeed = s.adlerSeed := rfl
@[simp] theorem raise_crcSeed (e : Err) (s : State) : (raise e s).crcSeed = s.crcSeed := rfl
@[simp] theorem raise_ckResult (e : Err) (s : State) : (raise e s).ckResult = s.ckResult := rfl
@[simp] theorem raise_phase (e : Err) (s : State) : (raise e s).phase = .error := rfl
@[simp] theorem raise_litSel (e : Err) (s : State) : (raise e s).litSel = s.litSel := rfl
@[simp] theorem raise_distSel (e : Err) (s : State) : (raise e s).distSel = s.distSel := rfl
@[simp] theorem raise_litTree (e : Err) (s : State) : (raise e s).litTree = s.litTree := rfl
@[simp] theorem raise_distTree (e : Err) (s : State) : (raise e s).distTree = s.distTree := rfl
@[simp] theorem raise_clenTree (e : Err) (s : State) : (raise e s).clenTree = s.clenTree := rfl
@[simp] theorem raise_lens (e : Err) (s : State) : (raise e s).lens = s.lens := rfl
@[simp] theorem raise_inner (e : Err) (s : State) : (raise e s).inner = .none := rfl
@[simp] theorem raise_host (e : Err) (s : State) : (raise e s).host = s.host := rfl
@[simp] theorem raise_hostGot (e : Err) (s : State) : (raise e s).hostGot = s.hostGot := rfl
@[simp] theorem raise_draw (e : Err) (s : State) : (raise e s).draw = s.draw := rfl
@[simp] theorem raise_epoch (e : Err) (s : State) : (raise e s).epoch = s.epoch := rfl

/-! ### complete -/

@[simp] theorem complete_inMax (s : State) : (complete s).inMax = s.inMax := rfl
@[simp] theorem complete_outMax (s : State) : (complete s).outMax = s.outMax := rfl
@[simp] theorem complete_inMem (s : State) : (complete s).inMem = s.inMem := rfl
@[simp] theorem complete_outMem (s : State) : (complete s).outMem = s.outMem := rfl
@[simp] theorem complete_dictMem (s : State) : (complete s).dictMem = s.dictMem := rfl
@[simp] theorem complete_busy (s : State) : (complete s).busy = false := rfl
@[simp] theorem complete_err (s : State) : (complete s).err = false := rfl
@[simp] theorem complete_ok (s : State) : (complete s).ok = true := rfl
@[simp] theorem complete_lastOp (s : State) : (complete s).lastOp = s.lastOp := rfl
@[simp] theorem complete_error (s : State) : (complete s).error = s.error := rfl
@[simp] theorem complete_dictReq (s : State) : (complete s).dictReq = s.dictReq := rfl
@[simp] theorem complete_intDone (s : State) : (complete s).intDone = true := rfl
@[simp] theorem complete_intErr (s : State) : (complete s).intErr = s.intErr := rfl
@[simp] theorem complete_doneEn (s : State) : (complete s).doneEn = s.doneEn := rfl
@[simp] theorem complete_errEn (s : State) : (complete s).errEn = s.errEn := rfl
@[simp] theorem complete_inStart (s : State) : (complete s).inStart = s.inStart := rfl
@[simp] theorem complete_inLen (s : State) : (complete s).inLen = s.inLen := rfl
@[simp] theorem complete_dictLen (s : State) : (complete s).dictLen = s.dictLen := rfl
@[simp] theorem complete_outLen (s : State) : (complete s).outLen = s.outLen := rfl
@[simp] theorem complete_bitpos (s : State) : (complete s).bitpos = s.bitpos := rfl
@[simp] theorem complete_bfinal (s : State) : (complete s).bfinal = s.bfinal := rfl
@[simp] theorem complete_btype (s : State) : (complete s).btype = s.btype := rfl
@[simp] theorem complete_blkcnt (s : State) : (complete s).blkcnt = s.blkcnt := rfl
@[simp] theorem complete_ckSrc (s : State) : (complete s).ckSrc = s.ckSrc := rfl
@[simp] theorem complete_ckOff (s : State) : (complete s).ckOff = s.ckOff := rfl
@[simp] theorem complete_ckLen (s : State) : (complete s).ckLen = s.ckLen := rfl
@[simp] theorem complete_adlerSeed (s : State) : (complete s).adlerSeed = s.adlerSeed := rfl
@[simp] theorem complete_crcSeed (s : State) : (complete s).crcSeed = s.crcSeed := rfl
@[simp] theorem complete_ckResult (s : State) : (complete s).ckResult = s.ckResult := rfl
@[simp] theorem complete_phase (s : State) : (complete s).phase = s.phase := rfl
@[simp] theorem complete_litSel (s : State) : (complete s).litSel = s.litSel := rfl
@[simp] theorem complete_distSel (s : State) : (complete s).distSel = s.distSel := rfl
@[simp] theorem complete_litTree (s : State) : (complete s).litTree = s.litTree := rfl
@[simp] theorem complete_distTree (s : State) : (complete s).distTree = s.distTree := rfl
@[simp] theorem complete_clenTree (s : State) : (complete s).clenTree = s.clenTree := rfl
@[simp] theorem complete_lens (s : State) : (complete s).lens = s.lens := rfl
@[simp] theorem complete_inner (s : State) : (complete s).inner = s.inner := rfl
@[simp] theorem complete_host (s : State) : (complete s).host = s.host := rfl
@[simp] theorem complete_hostGot (s : State) : (complete s).hostGot = s.hostGot := rfl
@[simp] theorem complete_draw (s : State) : (complete s).draw = s.draw := rfl
@[simp] theorem complete_epoch (s : State) : (complete s).epoch = s.epoch := rfl

/-! ### latchHeader -/

@[simp] theorem latchHeader_inMax (f : BitVec 1) (t : BitVec 2) (s : State) : (latchHeader f t s).inMax = s.inMax := rfl
@[simp] theorem latchHeader_outMax (f : BitVec 1) (t : BitVec 2) (s : State) : (latchHeader f t s).outMax = s.outMax := rfl
@[simp] theorem latchHeader_inMem (f : BitVec 1) (t : BitVec 2) (s : State) : (latchHeader f t s).inMem = s.inMem := rfl
@[simp] theorem latchHeader_outMem (f : BitVec 1) (t : BitVec 2) (s : State) : (latchHeader f t s).outMem = s.outMem := rfl
@[simp] theorem latchHeader_dictMem (f : BitVec 1) (t : BitVec 2) (s : State) : (latchHeader f t s).dictMem = s.dictMem := rfl
@[simp] theorem latchHeader_busy (f : BitVec 1) (t : BitVec 2) (s : State) : (latchHeader f t s).busy = s.busy := rfl
@[simp] theorem latchHeader_err (f : BitVec 1) (t : BitVec 2) (s : State) : (latchHeader f t s).err = s.err := rfl
@[simp] theorem latchHeader_ok (f : BitVec 1) (t : BitVec 2) (s : State) : (latchHeader f t s).ok = s.ok := rfl
@[simp] theorem latchHeader_lastOp (f : BitVec 1) (t : BitVec 2) (s : State) : (latchHeader f t s).lastOp = s.lastOp := rfl
@[simp] theorem latchHeader_error (f : BitVec 1) (t : BitVec 2) (s : State) : (latchHeader f t s).error = s.error := rfl
@[simp] theorem latchHeader_dictReq (f : BitVec 1) (t : BitVec 2) (s : State) : (latchHeader f t s).dictReq = s.dictReq := rfl
@[simp] theorem latchHeader_intDone (f : BitVec 1) (t : BitVec 2) (s : State) : (latchHeader f t s).intDone = s.intDone := rfl
@[simp] theorem latchHeader_intErr (f : BitVec 1) (t : BitVec 2) (s : State) : (latchHeader f t s).intErr = s.intErr := rfl
@[simp] theorem latchHeader_doneEn (f : BitVec 1) (t : BitVec 2) (s : State) : (latchHeader f t s).doneEn = s.doneEn := rfl
@[simp] theorem latchHeader_errEn (f : BitVec 1) (t : BitVec 2) (s : State) : (latchHeader f t s).errEn = s.errEn := rfl
@[simp] theorem latchHeader_inStart (f : BitVec 1) (t : BitVec 2) (s : State) : (latchHeader f t s).inStart = s.inStart := rfl
@[simp] theorem latchHeader_inLen (f : BitVec 1) (t : BitVec 2) (s : State) : (latchHeader f t s).inLen = s.inLen := rfl
@[simp] theorem latchHeader_dictLen (f : BitVec 1) (t : BitVec 2) (s : State) : (latchHeader f t s).dictLen = s.dictLen := rfl
@[simp] theorem latchHeader_outLen (f : BitVec 1) (t : BitVec 2) (s : State) : (latchHeader f t s).outLen = s.outLen := rfl
@[simp] theorem latchHeader_bitpos (f : BitVec 1) (t : BitVec 2) (s : State) : (latchHeader f t s).bitpos = s.bitpos := rfl
@[simp] theorem latchHeader_bfinal (f : BitVec 1) (t : BitVec 2) (s : State) : (latchHeader f t s).bfinal = f := rfl
@[simp] theorem latchHeader_btype (f : BitVec 1) (t : BitVec 2) (s : State) : (latchHeader f t s).btype = t := rfl
@[simp] theorem latchHeader_blkcnt (f : BitVec 1) (t : BitVec 2) (s : State) : (latchHeader f t s).blkcnt = s.blkcnt := rfl
@[simp] theorem latchHeader_ckSrc (f : BitVec 1) (t : BitVec 2) (s : State) : (latchHeader f t s).ckSrc = s.ckSrc := rfl
@[simp] theorem latchHeader_ckOff (f : BitVec 1) (t : BitVec 2) (s : State) : (latchHeader f t s).ckOff = s.ckOff := rfl
@[simp] theorem latchHeader_ckLen (f : BitVec 1) (t : BitVec 2) (s : State) : (latchHeader f t s).ckLen = s.ckLen := rfl
@[simp] theorem latchHeader_adlerSeed (f : BitVec 1) (t : BitVec 2) (s : State) : (latchHeader f t s).adlerSeed = s.adlerSeed := rfl
@[simp] theorem latchHeader_crcSeed (f : BitVec 1) (t : BitVec 2) (s : State) : (latchHeader f t s).crcSeed = s.crcSeed := rfl
@[simp] theorem latchHeader_ckResult (f : BitVec 1) (t : BitVec 2) (s : State) : (latchHeader f t s).ckResult = s.ckResult := rfl
@[simp] theorem latchHeader_phase (f : BitVec 1) (t : BitVec 2) (s : State) : (latchHeader f t s).phase = s.phase := rfl
@[simp] theorem latchHeader_litSel (f : BitVec 1) (t : BitVec 2) (s : State) : (latchHeader f t s).litSel = s.litSel := rfl
@[simp] theorem latchHeader_distSel (f : BitVec 1) (t : BitVec 2) (s : State) : (latchHeader f t s).distSel = s.distSel := rfl
@[simp] theorem latchHeader_litTree (f : BitVec 1) (t : BitVec 2) (s : State) : (latchHeader f t s).litTree = s.litTree := rfl
@[simp] theorem latchHeader_distTree (f : BitVec 1) (t : BitVec 2) (s : State) : (latchHeader f t s).distTree = s.distTree := rfl
@[simp] theorem latchHeader_clenTree (f : BitVec 1) (t : BitVec 2) (s : State) : (latchHeader f t s).clenTree = s.clenTree := rfl
@[simp] theorem latchHeader_lens (f : BitVec 1) (t : BitVec 2) (s : State) : (latchHeader f t s).lens = s.lens := rfl
@[simp] theorem latchHeader_inner (f : BitVec 1) (t : BitVec 2) (s : State) : (latchHeader f t s).inner = s.inner := rfl
@[simp] theorem latchHeader_host (f : BitVec 1) (t : BitVec 2) (s : State) : (latchHeader f t s).host = s.host := rfl
@[simp] theorem latchHeader_hostGot (f : BitVec 1) (t : BitVec 2) (s : State) : (latchHeader f t s).hostGot = s.hostGot := rfl
@[simp] theorem latchHeader_draw (f : BitVec 1) (t : BitVec 2) (s : State) : (latchHeader f t s).draw = s.draw := rfl
@[simp] theorem latchHeader_epoch (f : BitVec 1) (t : BitVec 2) (s : State) : (latchHeader f t s).epoch = s.epoch := rfl

/-! ### tick -/

@[simp] theorem tick_inMax (s : State) : (tick s).inMax = s.inMax := rfl
@[simp] theorem tick_outMax (s : State) : (tick s).outMax = s.outMax := rfl
@[simp] theorem tick_inMem (s : State) : (tick s).inMem = s.inMem := rfl
@[simp] theorem tick_outMem (s : State) : (tick s).outMem = s.outMem := rfl
@[simp] theorem tick_dictMem (s : State) : (tick s).dictMem = s.dictMem := rfl
@[simp] theorem tick_busy (s : State) : (tick s).busy = s.busy := rfl
@[simp] theorem tick_err (s : State) : (tick s).err = s.err := rfl
@[simp] theorem tick_ok (s : State) : (tick s).ok = s.ok := rfl
@[simp] theorem tick_lastOp (s : State) : (tick s).lastOp = s.lastOp := rfl
@[simp] theorem tick_error (s : State) : (tick s).error = s.error := rfl
@[simp] theorem tick_dictReq (s : State) : (tick s).dictReq = s.dictReq := rfl
@[simp] theorem tick_intDone (s : State) : (tick s).intDone = s.intDone := rfl
@[simp] theorem tick_intErr (s : State) : (tick s).intErr = s.intErr := rfl
@[simp] theorem tick_doneEn (s : State) : (tick s).doneEn = s.doneEn := rfl
@[simp] theorem tick_errEn (s : State) : (tick s).errEn = s.errEn := rfl
@[simp] theorem tick_inStart (s : State) : (tick s).inStart = s.inStart := rfl
@[simp] theorem tick_inLen (s : State) : (tick s).inLen = s.inLen := rfl
@[simp] theorem tick_dictLen (s : State) : (tick s).dictLen = s.dictLen := rfl
@[simp] theorem tick_outLen (s : State) : (tick s).outLen = s.outLen := rfl
@[simp] theorem tick_bitpos (s : State) : (tick s).bitpos = s.bitpos := rfl
@[simp] theorem tick_bfinal (s : State) : (tick s).bfinal = s.bfinal := rfl
@[simp] theorem tick_btype (s : State) : (tick s).btype = s.btype := rfl
@[simp] theorem tick_blkcnt (s : State) : (tick s).blkcnt = s.blkcnt := rfl
@[simp] theorem tick_ckSrc (s : State) : (tick s).ckSrc = s.ckSrc := rfl
@[simp] theorem tick_ckOff (s : State) : (tick s).ckOff = s.ckOff := rfl
@[simp] theorem tick_ckLen (s : State) : (tick s).ckLen = s.ckLen := rfl
@[simp] theorem tick_adlerSeed (s : State) : (tick s).adlerSeed = s.adlerSeed := rfl
@[simp] theorem tick_crcSeed (s : State) : (tick s).crcSeed = s.crcSeed := rfl
@[simp] theorem tick_ckResult (s : State) : (tick s).ckResult = s.ckResult := rfl
@[simp] theorem tick_phase (s : State) : (tick s).phase = s.phase := rfl
@[simp] theorem tick_litSel (s : State) : (tick s).litSel = s.litSel := rfl
@[simp] theorem tick_distSel (s : State) : (tick s).distSel = s.distSel := rfl
@[simp] theorem tick_litTree (s : State) : (tick s).litTree = s.litTree := rfl
@[simp] theorem tick_distTree (s : State) : (tick s).distTree = s.distTree := rfl
@[simp] theorem tick_clenTree (s : State) : (tick s).clenTree = s.clenTree := rfl
@[simp] theorem tick_lens (s : State) : (tick s).lens = s.lens := rfl
@[simp] theorem tick_inner (s : State) : (tick s).inner = s.inner := rfl
@[simp] theorem tick_host (s : State) : (tick s).host = s.host := rfl
@[simp] theorem tick_hostGot (s : State) : (tick s).hostGot = s.hostGot := rfl
@[simp] theorem tick_draw (s : State) : (tick s).draw = s.draw + 1 := rfl
@[simp] theorem tick_epoch (s : State) : (tick s).epoch = s.epoch := rfl

/-! ### startInflate -/

@[simp] theorem startInflate_inMax (s : State) : (startInflate s).inMax = s.inMax := rfl
@[simp] theorem startInflate_outMax (s : State) : (startInflate s).outMax = s.outMax := rfl
@[simp] theorem startInflate_inMem (s : State) : (startInflate s).inMem = s.inMem := rfl
@[simp] theorem startInflate_outMem (s : State) : (startInflate s).outMem = s.outMem := rfl
@[simp] theorem startInflate_dictMem (s : State) : (startInflate s).dictMem = s.dictMem := rfl
@[simp] theorem startInflate_busy (s : State) : (startInflate s).busy = s.busy := rfl
@[simp] theorem startInflate_err (s : State) : (startInflate s).err = s.err := rfl
@[simp] theorem startInflate_ok (s : State) : (startInflate s).ok = s.ok := rfl
@[simp] theorem startInflate_lastOp (s : State) : (startInflate s).lastOp = s.lastOp := rfl
@[simp] theorem startInflate_error (s : State) : (startInflate s).error = s.error := rfl
@[simp] theorem startInflate_dictReq (s : State) : (startInflate s).dictReq = s.dictReq := rfl
@[simp] theorem startInflate_intDone (s : State) : (startInflate s).intDone = s.intDone := rfl
@[simp] theorem startInflate_intErr (s : State) : (startInflate s).intErr = s.intErr := rfl
@[simp] theorem startInflate_doneEn (s : State) : (startInflate s).doneEn = s.doneEn := rfl
@[simp] theorem startInflate_errEn (s : State) : (startInflate s).errEn = s.errEn := rfl
@[simp] theorem startInflate_inStart (s : State) : (startInflate s).inStart = s.inStart := rfl
@[simp] theorem startInflate_inLen (s : State) : (startInflate s).inLen = s.inLen := rfl
@[simp] theorem startInflate_dictLen (s : State) : (startInflate s).dictLen = s.dictLen := rfl
@[simp] theorem startInflate_outLen (s : State) : (startInflate s).outLen = 0#25 := rfl
@[simp] theorem startInflate_bitpos (s : State) : (startInflate s).bitpos = BitVec.ofNat 28 (8 * s.inStart.toNat) := rfl
@[simp] theorem startInflate_bfinal (s : State) : (startInflate s).bfinal = 0#1 := rfl
@[simp] theorem startInflate_btype (s : State) : (startInflate s).btype = 0#2 := rfl
@[simp] theorem startInflate_blkcnt (s : State) : (startInflate s).blkcnt = 0#24 := rfl
@[simp] theorem startInflate_ckSrc (s : State) : (startInflate s).ckSrc = s.ckSrc := rfl
@[simp] theorem startInflate_ckOff (s : State) : (startInflate s).ckOff = s.ckOff := rfl
@[simp] theorem startInflate_ckLen (s : State) : (startInflate s).ckLen = s.ckLen := rfl
@[simp] theorem startInflate_adlerSeed (s : State) : (startInflate s).adlerSeed = s.adlerSeed := rfl
@[simp] theorem startInflate_crcSeed (s : State) : (startInflate s).crcSeed = s.crcSeed := rfl
@[simp] theorem startInflate_ckResult (s : State) : (startInflate s).ckResult = s.ckResult := rfl
@[simp] theorem startInflate_phase (s : State) : (startInflate s).phase = .header := rfl
@[simp] theorem startInflate_litSel (s : State) : (startInflate s).litSel = false := rfl
@[simp] theorem startInflate_distSel (s : State) : (startInflate s).distSel = false := rfl
@[simp] theorem startInflate_litTree (s : State) : (startInflate s).litTree = s.litTree := rfl
@[simp] theorem startInflate_distTree (s : State) : (startInflate s).distTree = s.distTree := rfl
@[simp] theorem startInflate_clenTree (s : State) : (startInflate s).clenTree = s.clenTree := rfl
@[simp] theorem startInflate_lens (s : State) : (startInflate s).lens = s.lens := rfl
@[simp] theorem startInflate_inner (s : State) : (startInflate s).inner = .none := rfl
@[simp] theorem startInflate_host (s : State) : (startInflate s).host = s.host := rfl
@[simp] theorem startInflate_hostGot (s : State) : (startInflate s).hostGot = s.hostGot := rfl
@[simp] theorem startInflate_draw (s : State) : (startInflate s).draw = s.draw := rfl
@[simp] theorem startInflate_epoch (s : State) : (startInflate s).epoch = s.epoch := rfl

/-! ### resetRegisters -/

@[simp] theorem resetRegisters_inMax (s : State) : (resetRegisters s).inMax = s.inMax := rfl
@[simp] theorem resetRegisters_outMax (s : State) : (resetRegisters s).outMax = s.outMax := rfl
@[simp] theorem resetRegisters_inMem (s : State) : (resetRegisters s).inMem = s.inMem := rfl
@[simp] theorem resetRegisters_outMem (s : State) : (resetRegisters s).outMem = s.outMem := rfl
@[simp] theorem resetRegisters_dictMem (s : State) : (resetRegisters s).dictMem = s.dictMem := rfl
@[simp] theorem resetRegisters_busy (s : State) : (resetRegisters s).busy = false := rfl
@[simp] theorem resetRegisters_err (s : State) : (resetRegisters s).err = false := rfl
@[simp] theorem resetRegisters_ok (s : State) : (resetRegisters s).ok = false := rfl
@[simp] theorem resetRegisters_lastOp (s : State) : (resetRegisters s).lastOp = none := rfl
@[simp] theorem resetRegisters_error (s : State) : (resetRegisters s).error = none := rfl
@[simp] theorem resetRegisters_dictReq (s : State) : (resetRegisters s).dictReq = false := rfl
@[simp] theorem resetRegisters_intDone (s : State) : (resetRegisters s).intDone = false := rfl
@[simp] theorem resetRegisters_intErr (s : State) : (resetRegisters s).intErr = false := rfl
@[simp] theorem resetRegisters_doneEn (s : State) : (resetRegisters s).doneEn = false := rfl
@[simp] theorem resetRegisters_errEn (s : State) : (resetRegisters s).errEn = false := rfl
@[simp] theorem resetRegisters_inStart (s : State) : (resetRegisters s).inStart = 0#24 := rfl
@[simp] theorem resetRegisters_inLen (s : State) : (resetRegisters s).inLen = 0#25 := rfl
@[simp] theorem resetRegisters_dictLen (s : State) : (resetRegisters s).dictLen = 0#17 := rfl
@[simp] theorem resetRegisters_outLen (s : State) : (resetRegisters s).outLen = 0#25 := rfl
@[simp] theorem resetRegisters_bitpos (s : State) : (resetRegisters s).bitpos = 0#28 := rfl
@[simp] theorem resetRegisters_bfinal (s : State) : (resetRegisters s).bfinal = 0#1 := rfl
@[simp] theorem resetRegisters_btype (s : State) : (resetRegisters s).btype = 0#2 := rfl
@[simp] theorem resetRegisters_blkcnt (s : State) : (resetRegisters s).blkcnt = 0#24 := rfl
@[simp] theorem resetRegisters_ckSrc (s : State) : (resetRegisters s).ckSrc = 0#2 := rfl
@[simp] theorem resetRegisters_ckOff (s : State) : (resetRegisters s).ckOff = 0#32 := rfl
@[simp] theorem resetRegisters_ckLen (s : State) : (resetRegisters s).ckLen = 0#32 := rfl
@[simp] theorem resetRegisters_adlerSeed (s : State) : (resetRegisters s).adlerSeed = 1#32 := rfl
@[simp] theorem resetRegisters_crcSeed (s : State) : (resetRegisters s).crcSeed = 0#32 := rfl
@[simp] theorem resetRegisters_ckResult (s : State) : (resetRegisters s).ckResult = 0#32 := rfl
@[simp] theorem resetRegisters_phase (s : State) : (resetRegisters s).phase = .idle := rfl
@[simp] theorem resetRegisters_litSel (s : State) : (resetRegisters s).litSel = false := rfl
@[simp] theorem resetRegisters_distSel (s : State) : (resetRegisters s).distSel = false := rfl
@[simp] theorem resetRegisters_litTree (s : State) : (resetRegisters s).litTree = s.litTree := rfl
@[simp] theorem resetRegisters_distTree (s : State) : (resetRegisters s).distTree = s.distTree := rfl
@[simp] theorem resetRegisters_clenTree (s : State) : (resetRegisters s).clenTree = s.clenTree := rfl
@[simp] theorem resetRegisters_lens (s : State) : (resetRegisters s).lens = s.lens := rfl
@[simp] theorem resetRegisters_inner (s : State) : (resetRegisters s).inner = .none := rfl
@[simp] theorem resetRegisters_host (s : State) : (resetRegisters s).host = s.host := rfl
@[simp] theorem resetRegisters_hostGot (s : State) : (resetRegisters s).hostGot = s.hostGot := rfl
@[simp] theorem resetRegisters_draw (s : State) : (resetRegisters s).draw = s.draw := rfl
@[simp] theorem resetRegisters_epoch (s : State) : (resetRegisters s).epoch = s.epoch := rfl

/-! ### powerOn -/

@[simp] theorem powerOn_inMax (s : State) : (powerOn s).inMax = s.inMax := rfl
@[simp] theorem powerOn_outMax (s : State) : (powerOn s).outMax = s.outMax := rfl
@[simp] theorem powerOn_inMem (s : State) : (powerOn s).inMem = [] := rfl
@[simp] theorem powerOn_outMem (s : State) : (powerOn s).outMem = [] := rfl
@[simp] theorem powerOn_dictMem (s : State) : (powerOn s).dictMem = [] := rfl
@[simp] theorem powerOn_busy (s : State) : (powerOn s).busy = false := rfl
@[simp] theorem powerOn_err (s : State) : (powerOn s).err = false := rfl
@[simp] theorem powerOn_ok (s : State) : (powerOn s).ok = false := rfl
@[simp] theorem powerOn_lastOp (s : State) : (powerOn s).lastOp = none := rfl
@[simp] theorem powerOn_error (s : State) : (powerOn s).error = none := rfl
@[simp] theorem powerOn_dictReq (s : State) : (powerOn s).dictReq = false := rfl
@[simp] theorem powerOn_intDone (s : State) : (powerOn s).intDone = false := rfl
@[simp] theorem powerOn_intErr (s : State) : (powerOn s).intErr = false := rfl
@[simp] theorem powerOn_doneEn (s : State) : (powerOn s).doneEn = false := rfl
@[simp] theorem powerOn_errEn (s : State) : (powerOn s).errEn = false := rfl
@[simp] theorem powerOn_inStart (s : State) : (powerOn s).inStart = 0#24 := rfl
@[simp] theorem powerOn_inLen (s : State) : (powerOn s).inLen = 0#25 := rfl
@[simp] theorem powerOn_dictLen (s : State) : (powerOn s).dictLen = 0#17 := rfl
@[simp] theorem powerOn_outLen (s : State) : (powerOn s).outLen = 0#25 := rfl
@[simp] theorem powerOn_bitpos (s : State) : (powerOn s).bitpos = 0#28 := rfl
@[simp] theorem powerOn_bfinal (s : State) : (powerOn s).bfinal = 0#1 := rfl
@[simp] theorem powerOn_btype (s : State) : (powerOn s).btype = 0#2 := rfl
@[simp] theorem powerOn_blkcnt (s : State) : (powerOn s).blkcnt = 0#24 := rfl
@[simp] theorem powerOn_ckSrc (s : State) : (powerOn s).ckSrc = 0#2 := rfl
@[simp] theorem powerOn_ckOff (s : State) : (powerOn s).ckOff = 0#32 := rfl
@[simp] theorem powerOn_ckLen (s : State) : (powerOn s).ckLen = 0#32 := rfl
@[simp] theorem powerOn_adlerSeed (s : State) : (powerOn s).adlerSeed = 1#32 := rfl
@[simp] theorem powerOn_crcSeed (s : State) : (powerOn s).crcSeed = 0#32 := rfl
@[simp] theorem powerOn_ckResult (s : State) : (powerOn s).ckResult = 0#32 := rfl
@[simp] theorem powerOn_phase (s : State) : (powerOn s).phase = .idle := rfl
@[simp] theorem powerOn_litSel (s : State) : (powerOn s).litSel = false := rfl
@[simp] theorem powerOn_distSel (s : State) : (powerOn s).distSel = false := rfl
@[simp] theorem powerOn_litTree (s : State) : (powerOn s).litTree = HTree.noCodes := rfl
@[simp] theorem powerOn_distTree (s : State) : (powerOn s).distTree = HTree.noCodes := rfl
@[simp] theorem powerOn_clenTree (s : State) : (powerOn s).clenTree = HTree.noCodes := rfl
@[simp] theorem powerOn_lens (s : State) : (powerOn s).lens = List.replicate 320 0#4 := rfl
@[simp] theorem powerOn_inner (s : State) : (powerOn s).inner = .none := rfl
@[simp] theorem powerOn_host (s : State) : (powerOn s).host = s.host := rfl
@[simp] theorem powerOn_hostGot (s : State) : (powerOn s).hostGot = s.hostGot := rfl
@[simp] theorem powerOn_draw (s : State) : (powerOn s).draw = s.draw := rfl
@[simp] theorem powerOn_epoch (s : State) : (powerOn s).epoch = s.epoch + 1 := rfl

end Sys2Proof.Machine
end

