-- ==== Sys2Proof/Laws/Memory.lean ====
section
/-! SUPPORT. The laws of a byte memory: read after write, the canonical form kept by every operation, and what the two copies of the
core leave alone. -/

namespace Sys2Proof.Machine

/-! ### Read after write -/

@[simp] theorem Memory.read_write_same (m : Memory) (i : Nat) (v : Byte) : Memory.read (Memory.write m i v) i = some v := by
  induction m with
  | nil => simp [Memory.write, Memory.read]
  | cons c m ih =>
    obtain ⟨a, b⟩ := c
    simp only [Memory.write]
    split
    · simp [Memory.read]
    · split
      · simp [Memory.read]
      · rename_i h1 h2
        simp [Memory.read, ih, Ne.symm h2]

theorem Memory.read_write_other (m : Memory) {i j : Nat} (v : Byte) (h : j ≠ i) :
    Memory.read (Memory.write m i v) j = Memory.read m j := by
  induction m with
  | nil => simp [Memory.write, Memory.read, Ne.symm h]
  | cons c m ih =>
    obtain ⟨a, b⟩ := c
    simp only [Memory.write]
    split
    · simp [Memory.read, Ne.symm h]
    · split
      · rename_i h1 h2
        subst h2
        simp [Memory.read, Ne.symm h]
      · simp [Memory.read, ih]

/-! ### The canonical form -/

theorem Memory.mem_write {m : Memory} {i : Nat} {v : Byte} {c : Host.Cell} (h : c ∈ Memory.write m i v) :
    c = (i, v) ∨ c ∈ m := by
  induction m with
  | nil => exact .inl (by simpa [Memory.write] using h)
  | cons d m ih =>
    obtain ⟨a, b⟩ := d
    simp only [Memory.write] at h
    split at h
    · simpa using h
    · split at h
      · rcases List.mem_cons.1 h with h | h
        · exact .inl h
        · exact .inr (List.mem_cons_of_mem _ h)
      · rcases List.mem_cons.1 h with h | h
        · exact .inr (h ▸ List.mem_cons_self)
        · exact (ih h).imp id (List.mem_cons_of_mem _)

theorem Memory.wf_write {m : Memory} (i : Nat) (v : Byte) (h : Memory.wf m) : Memory.wf (Memory.write m i v) := by
  induction m with
  | nil => simp [Memory.write]
  | cons d m ih =>
    obtain ⟨a, b⟩ := d
    obtain ⟨hd, hm⟩ := List.pairwise_cons.1 h
    simp only [Memory.write]
    split
    · rename_i hi
      refine List.pairwise_cons.2 ⟨fun c hc => ?_, h⟩
      rcases List.mem_cons.1 hc with rfl | hc
      · exact hi
      · exact Nat.lt_trans hi (hd c hc)
    · split
      · rename_i h1 h2
        subst h2
        exact List.pairwise_cons.2 ⟨hd, hm⟩
      · rename_i h1 h2
        refine List.pairwise_cons.2 ⟨fun c hc => ?_, ih hm⟩
        rcases Memory.mem_write hc with rfl | hc
        · exact Nat.lt_of_le_of_ne (Nat.le_of_not_lt h1) (Ne.symm h2)
        · exact hd c hc

theorem Memory.wf_writeAll {m : Memory} (i : Nat) (bs : List Byte) (h : Memory.wf m) :
    Memory.wf (Memory.writeAll i bs m) := by
  induction bs generalizing i m with
  | nil => exact h
  | cons b bs ih => exact ih (i + 1) (Memory.wf_write i b h)

theorem Memory.below_write {n : Nat} {m : Memory} {i : Nat} (v : Byte) (h : ∀ c ∈ m, c.1 < n) (hi : i < n) :
    ∀ c ∈ Memory.write m i v, c.1 < n := by
  intro c hc
  rcases Memory.mem_write hc with rfl | hc
  · exact hi
  · exact h c hc

/-- Reset's memories are in canonical form, for every size of IN and OUT. -/
theorem resetWith_memories_wf (a b : BitVec 25) :
    Memory.wf (State.resetWith a b).inMem ∧ Memory.wf (State.resetWith a b).outMem ∧ Memory.wf (State.resetWith a b).dictMem :=
  ⟨List.Pairwise.nil, List.Pairwise.nil, List.Pairwise.nil⟩

theorem outAppend_wf {s : State} (b : Byte) (h : Memory.wf s.outMem) : Memory.wf (outAppend b s).outMem :=
  Memory.wf_write _ _ h

theorem copyLoop_wf {s : State} (n d : Nat) (h : Memory.wf s.outMem) : Memory.wf (copyLoop n d s).outMem := by
  induction n generalizing s with
  | zero => exact h
  | succ n ih => exact ih (outAppend_wf _ h)

theorem storedLoop_wf {s : State} (n b : Nat) (h : Memory.wf s.outMem) : Memory.wf (storedLoop n b s).outMem := by
  induction n generalizing s b with
  | zero => exact h
  | succ n ih => exact ih (b + 1) (outAppend_wf _ h)

theorem busPut_wf {s : State} (a : Nat) (b : Byte)
    (h : Memory.wf s.inMem ∧ Memory.wf s.outMem ∧ Memory.wf s.dictMem) :
    Memory.wf (busPut a b s).inMem ∧ Memory.wf (busPut a b s).outMem ∧ Memory.wf (busPut a b s).dictMem := by
  obtain ⟨hi, ho, hd⟩ := h
  unfold busPut
  split
  · exact ⟨Memory.wf_write _ _ hi, ho, hd⟩
  · exact ⟨hi, ho, Memory.wf_write _ _ hd⟩
  · exact ⟨hi, ho, hd⟩
  · exact ⟨hi, ho, hd⟩
  · exact ⟨hi, ho, hd⟩

theorem busPuts_wf {s : State} (a n v : Nat)
    (h : Memory.wf s.inMem ∧ Memory.wf s.outMem ∧ Memory.wf s.dictMem) :
    Memory.wf (busPuts a n v s).inMem ∧ Memory.wf (busPuts a n v s).outMem ∧ Memory.wf (busPuts a n v s).dictMem := by
  induction n generalizing s a v with
  | zero => exact h
  | succ n ih => exact ih _ _ (busPut_wf a _ h)

/-! ### Bytes of the three memories -/

theorem byteAt_outAppend_same (b : Byte) (s : State) : byteAt (outAppend b s) .out s.outLen.toNat = b := by
  simp [byteAt, State.mem]

theorem byteAt_outAppend_other (b : Byte) (s : State) {i : Nat} (h : i ≠ s.outLen.toNat) :
    byteAt (outAppend b s) .out i = byteAt s .out i := by
  simp [byteAt, State.mem, Memory.read_write_other _ _ h]

@[simp] theorem byteAt_outAppend_inp (b : Byte) (s : State) (i : Nat) : byteAt (outAppend b s) .inp i = byteAt s .inp i := rfl

@[simp] theorem byteAt_outAppend_dict (b : Byte) (s : State) (i : Nat) : byteAt (outAppend b s) .dict i = byteAt s .dict i := rfl

/-- A back-reference's copy writes OUT and OUT_LEN, nothing else. -/
theorem copyLoop_frame (n d : Nat) (s : State) :
    copyLoop n d s = { s with outMem := (copyLoop n d s).outMem, outLen := (copyLoop n d s).outLen } := by
  induction n generalizing s with
  | zero => rfl
  | succ n ih =>
    conv => lhs; unfold copyLoop
    rw [ih]
    rfl

/-- A stored copy writes OUT and OUT_LEN, nothing else. -/
theorem storedLoop_frame (n b : Nat) (s : State) :
    storedLoop n b s = { s with outMem := (storedLoop n b s).outMem, outLen := (storedLoop n b s).outLen } := by
  induction n generalizing s b with
  | zero => rfl
  | succ n ih =>
    conv => lhs; unfold storedLoop
    rw [ih]
    rfl

end Sys2Proof.Machine
end

