-- ==== Sys2Proof/Laws/Parts.lean ====
section
/-! SUPPORT. For each shared operation, once: what it does when it answers. -/

namespace Sys2Proof.Machine

/-! ### Sequencing -/

@[simp] theorem Res.bind_val {α β : Type} (a : α) (s : State) (k : α → State → Res β) : (Res.val a s).bind k = k a s := rfl

@[simp] theorem Res.bind_err {α β : Type} (e : Err) (s : State) (k : α → State → Res β) : (Res.err e s).bind k = .err e s := rfl

@[simp] theorem Res.bind_stop {α β : Type} (f : Fault) (k : α → State → Res β) : (Res.stop f).bind k = .stop f := rfl

/-- A sequence gives a value just when both parts do. -/
theorem Res.bind_eq_val {α β : Type} {r : Res α} {k : α → State → Res β} {b : β} {t : State} :
    r.bind k = .val b t ↔ ∃ a s, r = .val a s ∧ k a s = .val b t := by
  cases r <;> simp

/-- A sequence raises an error just when one of its parts does. -/
theorem Res.bind_eq_err {α β : Type} {r : Res α} {k : α → State → Res β} {e : Err} {t : State} :
    r.bind k = .err e t ↔ r = .err e t ∨ ∃ a s, r = .val a s ∧ k a s = .err e t := by
  cases r <;> simp

/-- A sequence stops just when one of its parts does. -/
theorem Res.bind_eq_stop {α β : Type} {r : Res α} {k : α → State → Res β} {f : Fault} :
    r.bind k = .stop f ↔ r = .stop f ∨ ∃ a s, r = .val a s ∧ k a s = .stop f := by
  cases r <;> simp

@[simp] theorem finish_val (a : Unit) (s : State) : finish (.val a s) = .next s := rfl

@[simp] theorem finish_err (e : Err) (s : State) : finish (.err e s) = .next (raise e s) := rfl

@[simp] theorem finish_stop (f : Fault) : finish (.stop f) = .fault f := rfl

/-- What an INFLATE element that answers next has done. -/
theorem finish_eq_next {r : Res Unit} {t : State} :
    finish r = .next t ↔ r = .val () t ∨ ∃ e s, r = .err e s ∧ t = raise e s := by
  cases r <;> simp [finish, eq_comm]

/-! ### The Bit Reader -/

/-- `readBits` gives a value just when the bits are there, and moves the cursor only. -/
theorem readBits_eq_val {n v : Nat} {s t : State} :
    readBits n s = .val v t ↔ s.hasBits n ∧ v = bitsAt s s.bitpos.toNat n ∧ t = setCursor (s.bitpos.toNat + n) s := by
  unfold readBits
  split
  · simp; omega
  · rename_i h
    simp only [Res.val.injEq]
    constructor
    · rintro ⟨rfl, rfl⟩
      exact ⟨by omega, rfl, rfl⟩
    · rintro ⟨-, rfl, rfl⟩
      exact ⟨rfl, rfl⟩

/-- `readBits` fails in one way, and leaves the state. -/
theorem readBits_eq_err {n : Nat} {e : Err} {s t : State} :
    readBits n s = .err e t ↔ ¬s.hasBits n ∧ e = .unexpectedEndOfInput ∧ t = s := by
  unfold readBits
  split
  · simp [eq_comm]; omega
  · simp; omega

theorem readBits_ne_stop (n : Nat) (s : State) (f : Fault) : readBits n s ≠ .stop f := by
  unfold readBits
  split <;> simp

/-- The cursor never wraps: the input's length bounds it in every state. -/
theorem setCursor_toNat {s : State} {p : Nat} (h : p ≤ 8 * s.inLen.toNat) : (setCursor p s).bitpos.toNat = p := by
  have := s.inLen.isLt
  simp only [setCursor_bitpos, BitVec.toNat_ofNat]
  omega

theorem inBit_lt (s : State) (p : Nat) : inBit s p < 2 := Nat.mod_lt _ (by decide)

theorem bitsAt_lt (s : State) (p n : Nat) : bitsAt s p n < 2 ^ n := by
  induction n generalizing p with
  | zero => simp [bitsAt]
  | succ n ih =>
    have h1 := inBit_lt s p
    have h2 := ih (p + 1)
    simp only [bitsAt, Nat.pow_succ]
    omega

/-- A byte of IN and the bits of the stream depend on IN's contents only. -/
theorem byteAt_inp_congr {s t : State} (hm : t.inMem = s.inMem) (he : t.epoch = s.epoch) (i : Nat) :
    byteAt t .inp i = byteAt s .inp i := by
  simp [byteAt, State.mem, hm, he]

theorem inBit_congr {s t : State} (hm : t.inMem = s.inMem) (he : t.epoch = s.epoch) (p : Nat) : inBit t p = inBit s p := by
  simp [inBit, byteAt_inp_congr hm he]

theorem bitsAt_congr {s t : State} (hm : t.inMem = s.inMem) (he : t.epoch = s.epoch) (p n : Nat) :
    bitsAt t p n = bitsAt s p n := by
  induction n generalizing p with
  | zero => rfl
  | succ n ih => simp [bitsAt, ih, inBit_congr hm he]

/-! ### Symbols -/

/-- A read of a symbol moves the cursor only. -/
def CursorOnly (s t : State) : Prop := t = { s with bitpos := t.bitpos }

theorem CursorOnly.refl (s : State) : CursorOnly s s := rfl

theorem CursorOnly.trans {s t u : State} (h1 : CursorOnly s t) (h2 : CursorOnly t u) : CursorOnly s u := by
  unfold CursorOnly at *
  rw [h2, h1]

theorem readBits_cursorOnly {n v : Nat} {s t : State} (h : readBits n s = .val v t) : CursorOnly s t := by
  obtain ⟨-, -, rfl⟩ := readBits_eq_val.1 h
  rfl

/-- What `decodeSymbol`'s loop can answer: a value or an error, and the cursor alone has moved. -/
theorem decodeLoop_cases (symbol count : List Nat) (code first index : Nat) (s : State) :
    (∃ v t, decodeLoop symbol count code first index s = .val v t ∧ CursorOnly s t) ∨
    (∃ e t, decodeLoop symbol count code first index s = .err e t ∧ CursorOnly s t ∧
      (e = .unexpectedEndOfInput ∨ e = .invalidCode)) := by
  induction count generalizing code first index s with
  | nil => exact .inr ⟨_, _, rfl, .refl s, .inr rfl⟩
  | cons c cs ih =>
    unfold decodeLoop
    rcases h : readBits 1 s with ⟨b, t⟩ | ⟨e, t⟩ | f
    · have ht := readBits_cursorOnly h
      simp only [Res.bind_val]
      split
      · exact .inl ⟨_, _, rfl, ht⟩
      · rcases ih (2 * (code + b)) (2 * (first + c)) (index + c) t with ⟨v, u, hu, hc⟩ | ⟨e, u, hu, hc, he⟩
        · exact .inl ⟨v, u, hu, ht.trans hc⟩
        · exact .inr ⟨e, u, hu, ht.trans hc, he⟩
    · obtain ⟨-, rfl, rfl⟩ := readBits_eq_err.1 h
      exact .inr ⟨_, _, rfl, .refl _, .inl rfl⟩
    · exact absurd h (readBits_ne_stop 1 s f)

/-- What a read of a symbol below a limit answers when it gives a value. -/
theorem symbolBelow_val {limit : Nat} {tr : HTree} {s t : State} {v : Nat} (h : symbolBelow limit tr s = .val v t) :
    v < limit ∧ CursorOnly s t := by
  obtain ⟨a, u, hu, hk⟩ := Res.bind_eq_val.1 h
  have hc : CursorOnly s u := by
    rcases decodeLoop_cases tr.symbol tr.count 0 0 0 s with ⟨v', t', h', hc⟩ | ⟨e, t', h', -⟩
    · rw [decodeSymbol, h'] at hu
      obtain ⟨-, rfl⟩ := Res.val.inj hu
      exact hc
    · rw [decodeSymbol, h'] at hu
      cases hu
  split at hk
  · rename_i hl
    obtain ⟨rfl, rfl⟩ := Res.val.inj hk
    exact ⟨hl, hc⟩
  · cases hk

/-! ### The end of a block, and the two copies -/

theorem endOfBlock_final {s : State} (h : s.bfinal = 1#1) :
    endOfBlock s = complete { s with blkcnt := s.blkcnt + 1#24, phase := .done } := if_pos h

theorem endOfBlock_more {s : State} (h : s.bfinal ≠ 1#1) :
    endOfBlock s = { s with blkcnt := s.blkcnt + 1#24, phase := .header } := if_neg h

/-- A stored copy that answers has passed both checks. -/
theorem storedCopy_val {len : Nat} {s t : State} {u : Unit} (h : storedCopy len s = .val u t) :
    s.bitpos.toNat / 8 + len ≤ s.inLen.toNat ∧ s.outLen.toNat + len ≤ s.outMax.toNat ∧
    t = setCursor (s.bitpos.toNat + 8 * len) (storedLoop len (s.bitpos.toNat / 8) s) := by
  unfold storedCopy at h
  simp only at h
  split at h
  · cases h
  · split at h
    · cases h
    · obtain ⟨-, rfl⟩ := Res.val.inj h
      exact ⟨by omega, by omega, rfl⟩

/-- A back-reference's copy that answers has passed both checks. -/
theorem copyMatch_val {len d : Nat} {s t : State} {u : Unit} (h : copyMatch len d s = .val u t) :
    d ≤ s.hlen ∧ s.outLen.toNat + len ≤ s.outMax.toNat ∧ t = { copyLoop len d s with inner := .none } := by
  unfold copyMatch at h
  split at h
  · cases h
  · split at h
    · cases h
    · obtain ⟨-, rfl⟩ := Res.val.inj h
      exact ⟨by omega, by omega, rfl⟩

/-- A run of lengths that answers fits, and writes `lens` and the index only. -/
theorem putLengths_val {v : BitVec 4} {r : Nat} {s t : State} {u : Unit} (h : putLengths v r s = .val u t) :
    ∃ hl hd i, s.inner = .lengths hl hd i ∧ i + r ≤ hl + hd ∧
      t = { s with lens := setRun r i v s.lens, inner := .lengths hl hd (i + r) } := by
  unfold putLengths at h
  split at h
  · rename_i hl hd i hi
    split at h
    · cases h
    · obtain ⟨-, rfl⟩ := Res.val.inj h
      exact ⟨hl, hd, i, hi, by omega, rfl⟩
  · cases h
  · cases h

@[simp] theorem setRun_length (r i : Nat) (v : BitVec 4) (lens : List (BitVec 4)) :
    (setRun r i v lens).length = lens.length := by
  induction r generalizing i lens with
  | zero => rfl
  | succ r ih => simp [setRun, ih]

/-- A copy of `n` bytes grows the output by `n`, when they fit in OUT. -/
theorem copyLoop_outLen {n d : Nat} {s : State} (h : s.outLen.toNat + n ≤ s.outMax.toNat) :
    (copyLoop n d s).outLen.toNat = s.outLen.toNat + n := by
  have := s.outMax.isLt
  induction n generalizing s with
  | zero => rfl
  | succ n ih =>
    have h1 : (outAppend (hist s (s.hlen - d)) s).outLen.toNat = s.outLen.toNat + 1 := by
      simp only [outAppend_outLen, BitVec.toNat_add, BitVec.toNat_ofNat]
      omega
    unfold copyLoop
    rw [ih (by rw [h1, outAppend_outMax]; omega) (by rw [outAppend_outMax]; omega), h1]
    omega

/-- A stored copy of `n` bytes grows the output by `n`, when they fit in OUT. -/
theorem storedLoop_outLen {n b : Nat} {s : State} (h : s.outLen.toNat + n ≤ s.outMax.toNat) :
    (storedLoop n b s).outLen.toNat = s.outLen.toNat + n := by
  have := s.outMax.isLt
  induction n generalizing s b with
  | zero => rfl
  | succ n ih =>
    have h1 : (outAppend (byteAt s .inp b) s).outLen.toNat = s.outLen.toNat + 1 := by
      simp only [outAppend_outLen, BitVec.toNat_add, BitVec.toNat_ofNat]
      omega
    unfold storedLoop
    rw [ih (by rw [h1, outAppend_outMax]; omega) (by rw [outAppend_outMax]; omega), h1]
    omega

/-! ### Trees and checksum regions -/

/-- A build that answers has kept its capacity, and its tree is what the lengths say. -/
theorem buildCanonicalTree_some {L : List Nat} {t : HTree} :
    buildCanonicalTree L = some t ↔
      leftLoop (countsOf L) 1 = some t.left ∧ t.count = countsOf L ∧ t.symbol = symbolTable L ∧ t.used = L.length - countOf L 0 := by
  unfold buildCanonicalTree
  obtain ⟨c, sy, u, l⟩ := t
  cases leftLoop (countsOf L) 1 <;> simp [eq_comm]
  tauto

/-- A region that is read lies within the valid length of the memory that CK_SRC selects. -/
theorem checksumRegion_some {s : State} {x : List Byte} (h : checksumRegion s = some x) :
    ∃ sp v, checksumSource s = some (sp, v) ∧ s.ckOff.toNat + s.ckLen.toNat ≤ v ∧ x = bytesAt s sp s.ckOff.toNat s.ckLen.toNat := by
  unfold checksumRegion at h
  split at h
  · rename_i sp v hs
    split at h
    · cases h
    · exact ⟨sp, v, hs, by omega, (Option.some.inj h).symm⟩
  · cases h

/-! ### The step -/

/-- Where the core moves next, a step is its next element on the state with the draw counter advanced. -/
theorem step_of_coreTurn {s : State} (h : s.coreTurn) :
    step s = (match coreMove (tick s) with
      | .run i u => exec i u
      | .made u => .next u
      | .fault f => .fault f
      | .refused r => .refused r) := by
  obtain ⟨hb, hi, hh⟩ := h
  have : nextMove s = coreMove (tick s) := by
    unfold nextMove
    rw [if_neg (by rintro ⟨-, h⟩; exact h hi), hh]
    unfold coreTurn
    rw [if_pos hb]
  cases hm : coreMove (tick s) <;> simp [step, this, hm]

/-- What a step that answers next has done: run an instruction, or made a move that the fetch completed. -/
theorem step_eq_next {s t : State} :
    step s = .next t ↔ (∃ i u, nextMove s = .run i u ∧ exec i u = .next t) ∨ nextMove s = .made t := by
  unfold step
  cases nextMove s <;> simp

end Sys2Proof.Machine
end

