-- ==== Sys2Proof/Laws/PerInstr.lean ====
section
/-! SUPPORT. What holds of every instruction as syntax: its opcode fits its format's bits (the table's column `width`). -/

namespace Sys2Proof

/-- The opcode of `i` fits the bits its format has (30_encoding.md R152 to R163). -/
def Laws.OpcodeFits.Statement (i : Instr) : Prop := encode i < 2 ^ i.format.width

theorem Laws.OpcodeFits.blockStored (f : BitVec 1) : Laws.OpcodeFits.Statement (.blockStored f) := by
  have := f.isLt
  simp only [Laws.OpcodeFits.Statement, encode, Instr.format, Format.width]
  omega

theorem Laws.OpcodeFits.blockFixed (f : BitVec 1) : Laws.OpcodeFits.Statement (.blockFixed f) := by
  have := f.isLt
  simp only [Laws.OpcodeFits.Statement, encode, Instr.format, Format.width]
  omega

theorem Laws.OpcodeFits.blockDynamic (f : BitVec 1) : Laws.OpcodeFits.Statement (.blockDynamic f) := by
  have := f.isLt
  simp only [Laws.OpcodeFits.Statement, encode, Instr.format, Format.width]
  omega

theorem Laws.OpcodeFits.blockReserved (f : BitVec 1) : Laws.OpcodeFits.Statement (.blockReserved f) := by
  have := f.isLt
  simp only [Laws.OpcodeFits.Statement, encode, Instr.format, Format.width]
  omega

theorem Laws.OpcodeFits.storedBody : Laws.OpcodeFits.Statement .storedBody := by
  unfold Laws.OpcodeFits.Statement
  decide

theorem Laws.OpcodeFits.dynHeader : Laws.OpcodeFits.Statement .dynHeader := by
  unfold Laws.OpcodeFits.Statement
  decide

theorem Laws.OpcodeFits.clLen (v : BitVec 4) : Laws.OpcodeFits.Statement (.clLen v) := by
  have := v.isLt
  simp only [Laws.OpcodeFits.Statement, encode, Instr.format, Format.width]
  omega

theorem Laws.OpcodeFits.clCopyPrev : Laws.OpcodeFits.Statement .clCopyPrev := by
  unfold Laws.OpcodeFits.Statement
  decide

theorem Laws.OpcodeFits.clZeroShort : Laws.OpcodeFits.Statement .clZeroShort := by
  unfold Laws.OpcodeFits.Statement
  decide

theorem Laws.OpcodeFits.clZeroLong : Laws.OpcodeFits.Statement .clZeroLong := by
  unfold Laws.OpcodeFits.Statement
  decide

theorem Laws.OpcodeFits.lit (b : Byte) : Laws.OpcodeFits.Statement (.lit b) := by
  have := b.isLt
  simp only [Laws.OpcodeFits.Statement, encode, Instr.format, Format.width]
  omega

theorem Laws.OpcodeFits.eob : Laws.OpcodeFits.Statement .eob := by
  unfold Laws.OpcodeFits.Statement
  decide

theorem Laws.OpcodeFits.len257 : Laws.OpcodeFits.Statement .len257 := by
  unfold Laws.OpcodeFits.Statement
  decide

theorem Laws.OpcodeFits.len258 : Laws.OpcodeFits.Statement .len258 := by
  unfold Laws.OpcodeFits.Statement
  decide

theorem Laws.OpcodeFits.len259 : Laws.OpcodeFits.Statement .len259 := by
  unfold Laws.OpcodeFits.Statement
  decide

theorem Laws.OpcodeFits.len260 : Laws.OpcodeFits.Statement .len260 := by
  unfold Laws.OpcodeFits.Statement
  decide

theorem Laws.OpcodeFits.len261 : Laws.OpcodeFits.Statement .len261 := by
  unfold Laws.OpcodeFits.Statement
  decide

theorem Laws.OpcodeFits.len262 : Laws.OpcodeFits.Statement .len262 := by
  unfold Laws.OpcodeFits.Statement
  decide

theorem Laws.OpcodeFits.len263 : Laws.OpcodeFits.Statement .len263 := by
  unfold Laws.OpcodeFits.Statement
  decide

theorem Laws.OpcodeFits.len264 : Laws.OpcodeFits.Statement .len264 := by
  unfold Laws.OpcodeFits.Statement
  decide

theorem Laws.OpcodeFits.len265 : Laws.OpcodeFits.Statement .len265 := by
  unfold Laws.OpcodeFits.Statement
  decide

theorem Laws.OpcodeFits.len266 : Laws.OpcodeFits.Statement .len266 := by
  unfold Laws.OpcodeFits.Statement
  decide

theorem Laws.OpcodeFits.len267 : Laws.OpcodeFits.Statement .len267 := by
  unfold Laws.OpcodeFits.Statement
  decide

theorem Laws.OpcodeFits.len268 : Laws.OpcodeFits.Statement .len268 := by
  unfold Laws.OpcodeFits.Statement
  decide

theorem Laws.OpcodeFits.len269 : Laws.OpcodeFits.Statement .len269 := by
  unfold Laws.OpcodeFits.Statement
  decide

theorem Laws.OpcodeFits.len270 : Laws.OpcodeFits.Statement .len270 := by
  unfold Laws.OpcodeFits.Statement
  decide

theorem Laws.OpcodeFits.len271 : Laws.OpcodeFits.Statement .len271 := by
  unfold Laws.OpcodeFits.Statement
  decide

theorem Laws.OpcodeFits.len272 : Laws.OpcodeFits.Statement .len272 := by
  unfold Laws.OpcodeFits.Statement
  decide

theorem Laws.OpcodeFits.len273 : Laws.OpcodeFits.Statement .len273 := by
  unfold Laws.OpcodeFits.Statement
  decide

theorem Laws.OpcodeFits.len274 : Laws.OpcodeFits.Statement .len274 := by
  unfold Laws.OpcodeFits.Statement
  decide

theorem Laws.OpcodeFits.len275 : Laws.OpcodeFits.Statement .len275 := by
  unfold Laws.OpcodeFits.Statement
  decide

theorem Laws.OpcodeFits.len276 : Laws.OpcodeFits.Statement .len276 := by
  unfold Laws.OpcodeFits.Statement
  decide

theorem Laws.OpcodeFits.len277 : Laws.OpcodeFits.Statement .len277 := by
  unfold Laws.OpcodeFits.Statement
  decide

theorem Laws.OpcodeFits.len278 : Laws.OpcodeFits.Statement .len278 := by
  unfold Laws.OpcodeFits.Statement
  decide

theorem Laws.OpcodeFits.len279 : Laws.OpcodeFits.Statement .len279 := by
  unfold Laws.OpcodeFits.Statement
  decide

theorem Laws.OpcodeFits.len280 : Laws.OpcodeFits.Statement .len280 := by
  unfold Laws.OpcodeFits.Statement
  decide

theorem Laws.OpcodeFits.len281 : Laws.OpcodeFits.Statement .len281 := by
  unfold Laws.OpcodeFits.Statement
  decide

theorem Laws.OpcodeFits.len282 : Laws.OpcodeFits.Statement .len282 := by
  unfold Laws.OpcodeFits.Statement
  decide

theorem Laws.OpcodeFits.len283 : Laws.OpcodeFits.Statement .len283 := by
  unfold Laws.OpcodeFits.Statement
  decide

theorem Laws.OpcodeFits.len284 : Laws.OpcodeFits.Statement .len284 := by
  unfold Laws.OpcodeFits.Statement
  decide

theorem Laws.OpcodeFits.len285 : Laws.OpcodeFits.Statement .len285 := by
  unfold Laws.OpcodeFits.Statement
  decide

theorem Laws.OpcodeFits.illegalLen286 : Laws.OpcodeFits.Statement .illegalLen286 := by
  unfold Laws.OpcodeFits.Statement
  decide

theorem Laws.OpcodeFits.illegalLen287 : Laws.OpcodeFits.Statement .illegalLen287 := by
  unfold Laws.OpcodeFits.Statement
  decide

theorem Laws.OpcodeFits.dist0 : Laws.OpcodeFits.Statement .dist0 := by
  unfold Laws.OpcodeFits.Statement
  decide

theorem Laws.OpcodeFits.dist1 : Laws.OpcodeFits.Statement .dist1 := by
  unfold Laws.OpcodeFits.Statement
  decide

theorem Laws.OpcodeFits.dist2 : Laws.OpcodeFits.Statement .dist2 := by
  unfold Laws.OpcodeFits.Statement
  decide

theorem Laws.OpcodeFits.dist3 : Laws.OpcodeFits.Statement .dist3 := by
  unfold Laws.OpcodeFits.Statement
  decide

theorem Laws.OpcodeFits.dist4 : Laws.OpcodeFits.Statement .dist4 := by
  unfold Laws.OpcodeFits.Statement
  decide

theorem Laws.OpcodeFits.dist5 : Laws.OpcodeFits.Statement .dist5 := by
  unfold Laws.OpcodeFits.Statement
  decide

theorem Laws.OpcodeFits.dist6 : Laws.OpcodeFits.Statement .dist6 := by
  unfold Laws.OpcodeFits.Statement
  decide

theorem Laws.OpcodeFits.dist7 : Laws.OpcodeFits.Statement .dist7 := by
  unfold Laws.OpcodeFits.Statement
  decide

theorem Laws.OpcodeFits.dist8 : Laws.OpcodeFits.Statement .dist8 := by
  unfold Laws.OpcodeFits.Statement
  decide

theorem Laws.OpcodeFits.dist9 : Laws.OpcodeFits.Statement .dist9 := by
  unfold Laws.OpcodeFits.Statement
  decide

theorem Laws.OpcodeFits.dist10 : Laws.OpcodeFits.Statement .dist10 := by
  unfold Laws.OpcodeFits.Statement
  decide

theorem Laws.OpcodeFits.dist11 : Laws.OpcodeFits.Statement .dist11 := by
  unfold Laws.OpcodeFits.Statement
  decide

theorem Laws.OpcodeFits.dist12 : Laws.OpcodeFits.Statement .dist12 := by
  unfold Laws.OpcodeFits.Statement
  decide

theorem Laws.OpcodeFits.dist13 : Laws.OpcodeFits.Statement .dist13 := by
  unfold Laws.OpcodeFits.Statement
  decide

theorem Laws.OpcodeFits.dist14 : Laws.OpcodeFits.Statement .dist14 := by
  unfold Laws.OpcodeFits.Statement
  decide

theorem Laws.OpcodeFits.dist15 : Laws.OpcodeFits.Statement .dist15 := by
  unfold Laws.OpcodeFits.Statement
  decide

theorem Laws.OpcodeFits.dist16 : Laws.OpcodeFits.Statement .dist16 := by
  unfold Laws.OpcodeFits.Statement
  decide

theorem Laws.OpcodeFits.dist17 : Laws.OpcodeFits.Statement .dist17 := by
  unfold Laws.OpcodeFits.Statement
  decide

theorem Laws.OpcodeFits.dist18 : Laws.OpcodeFits.Statement .dist18 := by
  unfold Laws.OpcodeFits.Statement
  decide

theorem Laws.OpcodeFits.dist19 : Laws.OpcodeFits.Statement .dist19 := by
  unfold Laws.OpcodeFits.Statement
  decide

theorem Laws.OpcodeFits.dist20 : Laws.OpcodeFits.Statement .dist20 := by
  unfold Laws.OpcodeFits.Statement
  decide

theorem Laws.OpcodeFits.dist21 : Laws.OpcodeFits.Statement .dist21 := by
  unfold Laws.OpcodeFits.Statement
  decide

theorem Laws.OpcodeFits.dist22 : Laws.OpcodeFits.Statement .dist22 := by
  unfold Laws.OpcodeFits.Statement
  decide

theorem Laws.OpcodeFits.dist23 : Laws.OpcodeFits.Statement .dist23 := by
  unfold Laws.OpcodeFits.Statement
  decide

theorem Laws.OpcodeFits.dist24 : Laws.OpcodeFits.Statement .dist24 := by
  unfold Laws.OpcodeFits.Statement
  decide

theorem Laws.OpcodeFits.dist25 : Laws.OpcodeFits.Statement .dist25 := by
  unfold Laws.OpcodeFits.Statement
  decide

theorem Laws.OpcodeFits.dist26 : Laws.OpcodeFits.Statement .dist26 := by
  unfold Laws.OpcodeFits.Statement
  decide

theorem Laws.OpcodeFits.dist27 : Laws.OpcodeFits.Statement .dist27 := by
  unfold Laws.OpcodeFits.Statement
  decide

theorem Laws.OpcodeFits.dist28 : Laws.OpcodeFits.Statement .dist28 := by
  unfold Laws.OpcodeFits.Statement
  decide

theorem Laws.OpcodeFits.dist29 : Laws.OpcodeFits.Statement .dist29 := by
  unfold Laws.OpcodeFits.Statement
  decide

theorem Laws.OpcodeFits.illegalDist30 : Laws.OpcodeFits.Statement .illegalDist30 := by
  unfold Laws.OpcodeFits.Statement
  decide

theorem Laws.OpcodeFits.illegalDist31 : Laws.OpcodeFits.Statement .illegalDist31 := by
  unfold Laws.OpcodeFits.Statement
  decide

theorem Laws.OpcodeFits.nop : Laws.OpcodeFits.Statement .nop := by
  unfold Laws.OpcodeFits.Statement
  decide

theorem Laws.OpcodeFits.inflate : Laws.OpcodeFits.Statement .inflate := by
  unfold Laws.OpcodeFits.Statement
  decide

theorem Laws.OpcodeFits.adler32 : Laws.OpcodeFits.Statement .adler32 := by
  unfold Laws.OpcodeFits.Statement
  decide

theorem Laws.OpcodeFits.crc32 : Laws.OpcodeFits.Statement .crc32 := by
  unfold Laws.OpcodeFits.Statement
  decide

theorem Laws.OpcodeFits.reset : Laws.OpcodeFits.Statement .reset := by
  unfold Laws.OpcodeFits.Statement
  decide

theorem Laws.OpcodeFits.illegalCmd (w : Word) : Laws.OpcodeFits.Statement (.illegalCmd w) := by
  have := w.isLt
  simp only [Laws.OpcodeFits.Statement, encode, Instr.format, Format.width]
  omega

end Sys2Proof
end

