-- ==== Sys2Proof/Tests/Slice0.lean ====
section
/-! SUPPORT. The model's own tests. Expected values come from the spec's encodings (30_encoding.md) and its vectors
(95_test_vectors.md, named V-..., W.., P..); a `witness_` theorem shows that the hypotheses of an obligation, or of one of its clauses,
can hold together. -/

set_option maxRecDepth 100000

namespace Sys2Proof.Tests

open Sys2Proof.Machine

/-! ### Small states -/

/-- After reset with 64 bytes of IN and OUT each, `bytes` loaded. -/
def loaded (bytes : List Byte) : State :=
  { State.resetWith 64#25 64#25 with inMem := Memory.writeAll 0 bytes [], inLen := BitVec.ofNat 25 bytes.length }

/-- An INFLATE under way over `bytes`, between two elements, in a phase and at a bit position, BFINAL 1. -/
def midway (bytes : List Byte) (phase : Phase) (pos : Nat) : State :=
  { loaded bytes with busy := true, lastOp := some .inflate, phase := phase, bitpos := BitVec.ofNat 28 pos, bfinal := 1#1,
                      btype := 1#2 }

/-- The same with `out` emitted so far. -/
def emitted (out : List Byte) (s : State) : State :=
  { s with outMem := Memory.writeAll 0 out [], outLen := BitVec.ofNat 25 out.length }

/-- The same with a dictionary. -/
def withDict (dict : List Byte) (s : State) : State :=
  { s with dictMem := Memory.writeAll 0 dict [], dictLen := BitVec.ofNat 17 dict.length }

/-- The state after an outcome, if there is one. -/
def after (o : Host.Outcome State Fault Refusal) : Option State :=
  match o with
  | .next t => some t
  | .fault _ => none
  | .refused _ => none

/-- What the host sees of an outcome: STATUS, ERRCODE, BITPOS, BLKINFO. -/
def seen (o : Host.Outcome State Fault Refusal) : Option (Word × Word × Nat × Word) :=
  (after o).map fun t => (statusWord t, errcodeWord t, t.bitpos.toNat, blkinfoWord t)

/-- The output of an outcome. -/
def output (o : Host.Outcome State Fault Refusal) : Option (List Byte) :=
  (after o).map fun t => bytesAt t .out 0 t.outLen.toNat

/-- Whether an outcome is the refusal of a write to IN or DICT. -/
def isRefused (o : Host.Outcome State Fault Refusal) : Bool :=
  match o with
  | .refused .inputWriteWhileBusy => true
  | .refused (.notModelled _) => false
  | .next _ => false
  | .fault _ => false

/-! ### WellFormed -/

/-- The one check: ILLEGAL_CMD with a word that names a command is refused, each of the five. -/
theorem test_wellFormed_refuses :
    (Instr.illegalCmd 0x00#32).wellFormed = false ∧ (Instr.illegalCmd 0x01#32).wellFormed = false ∧
    (Instr.illegalCmd 0x02#32).wellFormed = false ∧ (Instr.illegalCmd 0x03#32).wellFormed = false ∧
    (Instr.illegalCmd 0xFF#32).wellFormed = false ∧ (Instr.illegalCmd 0x101#32).wellFormed = true := by decide

/-! ### Decode: words written out from 30_encoding.md -/

/-- HDR: bit 0 is BFINAL, bits 2:1 are BTYPE (R152, R159). -/
theorem test_decode_hdr :
    [0b000, 0b001, 0b010, 0b011, 0b100, 0b101, 0b110, 0b111].map (decode .hdr) =
    [.ok (.blockStored 0#1), .ok (.blockStored 1#1), .ok (.blockFixed 0#1), .ok (.blockFixed 1#1), .ok (.blockDynamic 0#1),
     .ok (.blockDynamic 1#1), .ok (.blockReserved 0#1), .ok (.blockReserved 1#1)] := by decide

/-- The two bodies have no opcode bits (R153, R154); 8 is no header, 19 no code-length symbol, 288 no literal/length symbol, 32 no
distance symbol (R160 to R162). -/
theorem test_decode_bodies_and_rejects :
    decode .stored 0 = .ok .storedBody ∧ decode .dynhdr 0 = .ok .dynHeader ∧ decode .stored 1 = .error .bodyHasNoOpcode ∧
    decode .hdr 8 = .error .headerOver3Bits ∧ decode .clsym 19 = .error .noCodeLengthSymbol ∧
    decode .llsym 288 = .error .noLitLenSymbol ∧ decode .dsym 32 = .error .noDistanceSymbol ∧
    decode .cmd 0x100000000 = .error .commandOver32Bits := by decide

/-- CLSYM (R162). -/
theorem test_decode_clsym :
    [0, 1, 15, 16, 17, 18].map (decode .clsym) =
    [.ok (.clLen 0#4), .ok (.clLen 1#4), .ok (.clLen 15#4), .ok .clCopyPrev, .ok .clZeroShort, .ok .clZeroLong] := by decide

/-- LLSYM, the literals and the end of block (R160). -/
theorem test_decode_literals :
    [0, 97, 255, 256].map (decode .llsym) = [.ok (.lit 0x00#8), .ok (.lit 0x61#8), .ok (.lit 0xFF#8), .ok .eob] := by decide

/-- LLSYM, the lengths (R160). -/
theorem test_decode_lengths :
    [257, 258, 259, 260, 261, 262, 263, 264, 265, 266, 267, 268, 269, 270, 271, 272, 273, 274, 275, 276, 277, 278, 279, 280, 281, 282,
     283, 284, 285, 286, 287].map (decode .llsym) =
    [.ok .len257, .ok .len258, .ok .len259, .ok .len260, .ok .len261, .ok .len262, .ok .len263, .ok .len264, .ok .len265, .ok .len266,
     .ok .len267, .ok .len268, .ok .len269, .ok .len270, .ok .len271, .ok .len272, .ok .len273, .ok .len274, .ok .len275, .ok .len276,
     .ok .len277, .ok .len278, .ok .len279, .ok .len280, .ok .len281, .ok .len282, .ok .len283, .ok .len284, .ok .len285,
     .ok .illegalLen286, .ok .illegalLen287] := by decide

/-- DSYM (R161). -/
theorem test_decode_distances :
    [0, 1, 2, 3, 4, 5, 6, 7, 8, 9, 10, 11, 12, 13, 14, 15, 16, 17, 18, 19, 20, 21, 22, 23, 24, 25, 26, 27, 28, 29, 30, 31].map
      (decode .dsym) =
    [.ok .dist0, .ok .dist1, .ok .dist2, .ok .dist3, .ok .dist4, .ok .dist5, .ok .dist6, .ok .dist7, .ok .dist8, .ok .dist9,
     .ok .dist10, .ok .dist11, .ok .dist12, .ok .dist13, .ok .dist14, .ok .dist15, .ok .dist16, .ok .dist17, .ok .dist18, .ok .dist19,
     .ok .dist20, .ok .dist21, .ok .dist22, .ok .dist23, .ok .dist24, .ok .dist25, .ok .dist26, .ok .dist27, .ok .dist28, .ok .dist29,
     .ok .illegalDist30, .ok .illegalDist31] := by decide

/-- CMD (R163; 45_commands.md R458: a legal OP under non-zero upper bits is illegal). -/
theorem test_decode_cmd :
    [0x00000000, 0x00000001, 0x00000002, 0x00000003, 0x000000FF, 0x00000004, 0x000000FE, 0x00000101].map (decode .cmd) =
    [.ok .nop, .ok .inflate, .ok .adler32, .ok .crc32, .ok .reset, .ok (.illegalCmd 0x00000004#32), .ok (.illegalCmd 0x000000FE#32),
     .ok (.illegalCmd 0x00000101#32)] := by decide

/-! ### Bit Reader and Huffman engine -/

/-- V-B3 and V-B4: a read across a byte boundary. -/
theorem test_readBits :
    bitsAt (loaded [0xB5#8, 0x3C#8]) 4 8 = 0xCB ∧ bitsAt (loaded [0xB5#8, 0x3C#8]) 12 4 = 3 := by decide

/-- V-H1 and V-H5. -/
theorem test_build :
    buildCanonicalTree [2, 1, 3, 3] =
      some { count := [1, 1, 2, 0, 0, 0, 0, 0, 0, 0, 0, 0, 0, 0, 0], symbol := [1, 0, 2, 3], used := 4, left := 0 } ∧
    buildCanonicalTree [1, 1, 1] = none := by decide

/-- V-H3's codes: 5 is 00, 0 is 010, 7 is 1111. -/
theorem test_codes :
    symbolBits [3, 3, 3, 3, 3, 2, 4, 4] 5 = [false, false] ∧ symbolBits [3, 3, 3, 3, 3, 2, 4, 4] 0 = [false, true, false] ∧
    symbolBits [3, 3, 3, 3, 3, 2, 4, 4] 7 = [true, true, true, true] := by decide

/-- The fixed codes of 30_encoding.md R170 that the stream vectors use: 97 is 10010001, 255 is nine ones. -/
theorem test_fixed_codes :
    symbolBits fixedLitLengths 97 = [true, false, false, true, false, false, false, true] ∧
    symbolBits fixedLitLengths 255 = List.replicate 9 true ∧
    symbolBits fixedDistLengths 29 = [true, true, true, false, true] := by decide

/-! ### Blocks -/

/-- W2's header: `03 00` is a final fixed block. -/
theorem test_header_fixed :
    (after (step (midway [0x03#8, 0x00#8] .header 0))).map (fun t => (t.phase, t.bfinal, t.btype, t.bitpos)) =
      some (.fixedCodes, 1#1, 1#2, 3#28) := by decide

/-- V-S8 and V-S9: the reserved type fails with the header latched. -/
theorem test_header_reserved :
    seen (step (midway [0x07#8] .header 0)) = some (0x11C#32, 0x402#32, 3, 0x007#32) ∧
    seen (step (midway [0x06#8] .header 0)) = some (0x11C#32, 0x402#32, 3, 0x006#32) := by decide

/-- V-S13's first header is not final, `4A`, and P3's is final and dynamic, `0D`. -/
theorem test_header_types :
    (after (step (midway [0x4A#8] .header 0))).map (fun t => (t.phase, t.bfinal)) = some (.fixedCodes, 0#1) ∧
    (after (step (midway [0x0D#8] .header 0))).map (fun t => (t.phase, t.bfinal)) = some (.dynHeader, 1#1) ∧
    (after (step (midway [0x01#8] .header 0))).map (fun t => (t.phase, t.bfinal)) = some (.stored, 1#1) := by decide

/-- W1's bytes. -/
def w1 : List Byte := [0x01#8, 0x04#8, 0x00#8, 0xFB#8, 0xFF#8, 0x41#8, 0x42#8, 0x43#8, 0x44#8]

/-- W1's stored body. -/
theorem test_stored :
    output (step { midway w1 .stored 3 with btype := 0#2 }) = some [0x41#8, 0x42#8, 0x43#8, 0x44#8] ∧
    seen (step { midway w1 .stored 3 with btype := 0#2 }) = some (0x12A#32, 0#32, 72, 0x101#32) := by decide

/-- V-S5, V-S6 and V-S35. -/
theorem test_stored_errors :
    seen (step { midway [0x01#8, 0x04#8, 0x00#8, 0xFA#8, 0xFF#8, 0x41#8, 0x42#8, 0x43#8, 0x44#8] .stored 3 with btype := 0#2 }) =
      some (0x11C#32, 0x103#32, 40, 0x001#32) ∧
    seen (step { midway (w1.take 8) .stored 3 with btype := 0#2 }) = some (0x11C#32, 0x501#32, 40, 0x001#32) ∧
    seen (step { midway w1 .stored 3 with btype := 0#2, outMax := 3#25 }) = some (0x11C#32, 0x50D#32, 40, 0x001#32) := by decide

/-- P3's bytes. -/
def p3 : List Byte :=
  [0x0D#8, 0xC4#8, 0x37#8, 0x01#8, 0x00#8, 0x00#8, 0x00#8, 0x02#8, 0xA0#8, 0xAC#8, 0xCE#8, 0xFE#8, 0x11#8, 0x94#8, 0x03#8, 0x50#8,
   0x4E#8, 0xFF#8, 0xC7#8, 0x0D#8]

/-- P3's dynamic header: it ends at bit 119, and the literal/length code is eight symbols of length 3, the distance code 0 and 4 of
length 1. -/
theorem test_dynamic :
    (after (step { midway p3 .dynHeader 3 with btype := 2#2 })).map (fun t => (t.phase, t.bitpos, t.litTree.symbol, t.distTree.symbol)) =
      some (.dynCodes, 119#28, [97, 98, 99, 100, 101, 102, 256, 257], [0, 4]) := by decide

/-- V-D11 and V-D12: an over-subscribed code-length code, and a first symbol 16. -/
theorem test_dynamic_errors :
    seen (step { midway [0x05#8, 0xC1#8, 0x81#8, 0x04#8, 0x00#8, 0x00#8, 0x00#8, 0x00#8, 0x10#8] .dynHeader 3 with btype := 2#2 }) =
      some (0x11C#32, 0x204#32, 71, 0x005#32) ∧
    seen (step { midway [0x05#8, 0xC1#8, 0x03#8, 0x08#8, 0x00#8, 0x00#8, 0x00#8, 0x00#8, 0x20#8, 0x00#8] .dynHeader 3 with
      btype := 2#2 }) = some (0x11C#32, 0x106#32, 72, 0x005#32) := by decide

/-- A state inside a dynamic header of 257 and 2 lengths, at an index. -/
def atLength (bytes : List Byte) (i : Nat) : State :=
  { midway bytes .dynHeader 0 with inner := .lengths 257 2 i, lens := (List.replicate 320 0#4).set 7 5#4 }

/-- CL_LEN 9 at index 8 (R324). -/
theorem test_clLen :
    (after (exec (.clLen 9#4) (atLength [] 8))).map (fun t => (t.lens.getD 7 0#4, t.lens.getD 8 0#4, t.inner)) =
      some (5#4, 9#4, .lengths 257 2 9) := by decide

/-- CL_COPY_PREV with extra bits 2 after a length 5: five copies (R325). -/
theorem test_clCopyPrev :
    (after (exec .clCopyPrev (atLength [0b10#8] 8))).map (fun t => (t.lens.getD 12 0#4, t.lens.getD 13 0#4, t.inner, t.bitpos)) =
      some (5#4, 0#4, .lengths 257 2 13, 2#28) := by decide

/-- CL_ZERO_SHORT with extra bits 4: seven zeros from index 5 on (R326). -/
theorem test_clZeroShort :
    (after (exec .clZeroShort (atLength [0b100#8] 5))).map (fun t => (t.lens.getD 7 1#4, t.inner, t.bitpos)) =
      some (0#4, .lengths 257 2 12, 3#28) := by decide

/-- CL_ZERO_LONG with extra bits 86: 97 zeros (P3, R327); and one too many (R328). -/
theorem test_clZeroLong :
    (after (exec .clZeroLong (atLength [86#8] 0))).map (fun t => (t.inner, t.bitpos)) = some (.lengths 257 2 97, 7#28) ∧
    (after (exec .clZeroLong (atLength [86#8] 163))).map (fun t => (t.error, t.bitpos)) =
      some (some .tooManyCodeLengths, 7#28) := by decide

/-! ### Symbols -/

/-- V-S2, element by element: the literal 'a'. -/
theorem test_lit :
    output (step (midway [0x4B#8, 0x04#8, 0x02#8, 0x00#8] .fixedCodes 3)) = some [0x61#8] ∧
    (after (step (midway [0x4B#8, 0x04#8, 0x02#8, 0x00#8] .fixedCodes 3))).map (·.bitpos) = some 11#28 := by decide

/-- V-S34: the third literal does not fit in OUT. -/
theorem test_lit_overflow :
    seen (step { emitted [0x61#8, 0x62#8] (midway [0x4B#8, 0x4C#8, 0x4A#8, 0x06#8, 0x00#8] .fixedCodes 19) with outMax := 2#25 }) =
      some (0x11C#32, 0x50D#32, 27, 0x003#32) := by decide

/-- V-S2's end of block. -/
theorem test_eob :
    seen (step (emitted [0x61#8, 0x61#8, 0x61#8, 0x61#8] (midway [0x4B#8, 0x04#8, 0x02#8, 0x00#8] .fixedCodes 23))) =
      some (0x12A#32, 0#32, 30, 0x103#32) := by decide

/-- V-S2's back-reference: length 3, distance 1. -/
theorem test_len257 :
    output (step (emitted [0x61#8] (midway [0x4B#8, 0x04#8, 0x02#8, 0x00#8] .fixedCodes 11))) =
      some [0x61#8, 0x61#8, 0x61#8, 0x61#8] := by decide

/-- V-S27: the copy of 5 at distance 2 overlaps. -/
theorem test_len259 :
    output (step (emitted [0x61#8, 0x62#8] (midway [0x4B#8, 0x4C#8, 0x02#8, 0x43#8, 0x00#8] .fixedCodes 19))) =
      some [0x61#8, 0x62#8, 0x61#8, 0x62#8, 0x61#8, 0x62#8, 0x61#8] := by decide

/-- V-S21: the copy begins in the dictionary and goes on into the output. -/
theorem test_len258_dictionary :
    output (step (withDict [0x78#8, 0x79#8, 0x7A#8] (emitted [0x63#8] (midway [0x4B#8, 0x06#8, 0x61#8, 0x00#8] .fixedCodes 11)))) =
      some [0x63#8, 0x78#8, 0x79#8, 0x7A#8, 0x63#8] := by decide

/-- V-S4, V-S32 and V-S15: the distance too far, and the output too long. -/
theorem test_match_errors :
    seen (step (midway [0x03#8, 0x02#8, 0x00#8] .fixedCodes 3)) = some (0x11C#32, 0x30B#32, 15, 0x003#32) ∧
    seen (step { emitted [0x61#8] (midway [0x4B#8, 0x04#8, 0x02#8, 0x00#8] .fixedCodes 11) with outMax := 3#25 }) =
      some (0x11C#32, 0x50D#32, 23, 0x003#32) := by decide

/-- V-S3 and V-S22: symbols 286 and 287. -/
theorem test_illegal_lengths :
    seen (step (midway [0x1B#8, 0x03#8] .fixedCodes 3)) = some (0x11C#32, 0x109#32, 11, 0x003#32) ∧
    seen (step (midway [0x1B#8, 0x07#8] .fixedCodes 3)) = some (0x11C#32, 0x109#32, 11, 0x003#32) := by decide

/-- V-S23 and V-S24: a distance pattern that is no code, with and without the bits to reach 15. -/
theorem test_invalid_code :
    seen (step (emitted [0x61#8] (midway [0x4B#8, 0x04#8, 0x3E#8] .fixedCodes 11))) = some (0x11C#32, 0x501#32, 24, 0x003#32) ∧
    seen (step (emitted [0x61#8] (midway [0x4B#8, 0x04#8, 0x3E#8, 0x00#8, 0x00#8] .fixedCodes 11))) =
      some (0x11C#32, 0x108#32, 33, 0x003#32) := by decide

/-- A state after a length, at the distance symbol's extra bits. -/
def atDistance (bytes out : List Byte) (length : Nat) : State :=
  { emitted out (midway bytes .fixedCodes 0) with inner := .distance length }

/-- DIST_4 with extra bit 1 is distance 6 (R362; P3 copies "abc" so), DIST_0 is distance 1. -/
theorem test_distances :
    output (exec .dist4 (atDistance [0x01#8] [0x61#8, 0x62#8, 0x63#8, 0x64#8, 0x65#8, 0x66#8] 3)) =
      some [0x61#8, 0x62#8, 0x63#8, 0x64#8, 0x65#8, 0x66#8, 0x61#8, 0x62#8, 0x63#8] ∧
    output (exec .dist0 (atDistance [0x01#8] [0x61#8, 0x62#8] 3)) = some [0x61#8, 0x62#8, 0x62#8, 0x62#8, 0x62#8] := by decide

/-- Distance symbols 30 and 31 (V-D17's error). -/
theorem test_illegal_distances :
    (after (exec .illegalDist30 (atDistance [] [0x61#8] 3))).map errcodeWord = some 0x10A#32 ∧
    (after (exec .illegalDist31 (atDistance [] [0x61#8] 3))).map errcodeWord = some 0x10A#32 := by decide

/-! ### Checksums and commands -/

/-- W1's end state with its output checksummed: V-K21 and V-K22. -/
def checksummed (src : BitVec 2) (off len : Word) : State :=
  { emitted [0x41#8, 0x42#8, 0x43#8, 0x44#8] (loaded w1) with
    phase := .done, ok := true, lastOp := some .inflate, ckSrc := src, ckOff := off, ckLen := len }

/-- V-K21 and V-K22, and V-K23 over the same bytes in IN. -/
theorem test_checksums :
    (after (exec .adler32 (checksummed 1#2 0#32 4#32))).map (fun t => (t.ckResult, statusWord t)) = some (0x0298010B#32, 0x22A#32) ∧
    (after (exec .crc32 (checksummed 1#2 0#32 4#32))).map (fun t => (t.ckResult, statusWord t)) = some (0xDB1720A5#32, 0x32A#32) ∧
    (after (exec .crc32 (checksummed 0#2 5#32 4#32))).map (·.ckResult) = some 0xDB1720A5#32 := by decide

/-- V-K25 to V-K28. -/
theorem test_checksum_range :
    (after (exec .crc32 (checksummed 1#2 0#32 5#32))).map (fun t => (statusWord t, errcodeWord t)) = some (0x31A#32, 0x50F#32) ∧
    (after (exec .adler32 (checksummed 1#2 5#32 0#32))).map (fun t => (statusWord t, errcodeWord t)) = some (0x21A#32, 0x50F#32) ∧
    (after (exec .adler32 (checksummed 3#2 0#32 0#32))).map (fun t => (statusWord t, errcodeWord t)) = some (0x21A#32, 0x50F#32) ∧
    (after (exec .crc32 (checksummed 0#2 0xFFFFFFFF#32 2#32))).map (fun t => (statusWord t, errcodeWord t)) =
      some (0x31A#32, 0x50F#32) := by decide

/-- V-K12, V-K13 and V-K20: seeds whose halves are reduced. -/
theorem test_seeds :
    adler32 0xFFF1FFF0#32 [0x78#8] = 0x00770077#32 ∧ adler32 0xFFFFFFFF#32 [] = 0x000E000E#32 ∧
    crc32 0xFFFFFFFF#32 [0x61#8] = 0xC54AAE31#32 := by decide

/-- INFLATE's start with IN_START 2 puts the cursor at 16 (R452); V-S19 needs a dictionary. -/
theorem test_inflate_start :
    (after (exec .inflate { loaded w1 with inStart := 2#24 })).map (fun t => (t.phase, t.bitpos, t.busy)) =
      some (.header, 16#28, true) ∧
    seen (exec .inflate { loaded w1 with dictReq := true }) = some (0x11C#32, 0x40C#32, 0, 0x000#32) := by decide

/-- The state with one host access queued. -/
def hosting (a : HostAct) (s : State) : State := { s with host := [a] }

/-- V-C1 and V-C2: NOP changes nothing, an illegal word fails at once. -/
theorem test_cmd_writes :
    seen (step (hosting (.write 0#32 .b4 0#32) (checksummed 1#2 0#32 4#32))) = some (0x12A#32, 0#32, 0, 0#32) ∧
    seen (step (hosting (.write 0#32 .b4 4#32) (loaded []))) = some (0x010#32, 0x40E#32, 0, 0#32) ∧
    seen (step (hosting (.write 0#32 .b4 0x101#32) (loaded []))) = some (0x010#32, 0x40E#32, 0, 0#32) := by decide

/-- V-C6 and V-C8: while busy a second command is ignored, and RESET is taken. -/
theorem test_cmd_busy :
    seen (step (hosting (.write 0#32 .b4 2#32) (midway w1 .stored 3))) = seen (.next (midway w1 .stored 3)) ∧
    seen (step (hosting (.write 0#32 .b4 0xFF#32) (midway w1 .stored 3))) = some (0#32, 0#32, 0, 0#32) := by decide

/-- V-C11, V-C12 and V-C13. -/
theorem test_bus_writes :
    (after (step (hosting (.write 0x1C#32 .b4 0xFFFFFFFF#32) (loaded [])))).map (fun t => regRead t 0x1C) = some 64#32 ∧
    (after (step (hosting (.write 0x20#32 .b4 40000#32) (loaded [])))).map (fun t => regRead t 0x20) = some 32768#32 ∧
    (after (step (hosting (.write 0x01000000#32 .b4 0x44434241#32) (loaded [])))).map (fun t => bytesAt t .inp 0 4) =
      some [0x41#8, 0x42#8, 0x43#8, 0x44#8] := by decide

/-- V-C9, V-C10 and V-C14. -/
theorem test_bus_reads :
    memRead (checksummed 1#2 0#32 4#32) 0x04#32 .b2 = 0#32 ∧ memRead (checksummed 1#2 0#32 4#32) 0x06#32 .b4 = 0#32 ∧
    memRead (checksummed 1#2 0#32 4#32) 0x4C#32 .b4 = 0#32 ∧
    memRead (checksummed 1#2 0#32 4#32) 0x02000000#32 .b4 = 0x44434241#32 := by decide

/-- A host write to IN while busy is refused (R621). -/
theorem test_bus_refusal : isRefused (step (hosting (.write 0x01000000#32 .b1 1#32) (midway w1 .stored 3))) = true := by decide

/-- V-C15 and V-C16: IRQ only from a pending bit that is enabled. -/
theorem test_irq :
    irq { loaded [] with intDone := true, doneEn := true } = true ∧ irq { loaded [] with intErr := true, doneEn := true } = false := by
  decide

/-- R175: W1, W2 and V-S2 assembled. -/
theorem test_assembler :
    assemble [.blockStored true [0x41#8, 0x42#8, 0x43#8, 0x44#8]] = w1 ∧
    assemble [.blockFixed true, .eob] = [0x03#8, 0x00#8] ∧
    assemble [.blockFixed true, .lit 0x61#8, .matchLenDist 3 1, .eob] = [0x4B#8, 0x04#8, 0x02#8, 0x00#8] := by decide

/-- The host's own question, for a row of each format: the word decodes to the row's instruction. -/
theorem test_table_words :
    decodeTableWord 8 2 = some (.blockFixed 0#1) ∧ decodeTableWord 16 256 = some .eob ∧ decodeTableWord 8 29 = some .dist29 ∧
    decodeTableWord 8 18 = some .clZeroLong ∧ decodeTableWord 32 3 = some .crc32 := by decide

/-! ### Witnesses of the obligations' hypotheses -/

theorem witness_DecodeEncode : (Instr.illegalCmd 4#32).wellFormed = true ∧ (Instr.clLen 15#4).wellFormed = true := by decide

theorem witness_EncodeDecode : decode .cmd 0xFF = .ok .reset ∧ decode .llsym 287 = .ok .illegalLen287 := by decide

/-- V-H1's tree. -/
def h1 : HTree := { count := [1, 1, 2, 0, 0, 0, 0, 0, 0, 0, 0, 0, 0, 0, 0], symbol := [1, 0, 2, 3], used := 4, left := 0 }

/-- V-H6's tree, one code. -/
def h6 : HTree := { count := [1, 0, 0, 0, 0, 0, 0, 0, 0, 0, 0, 0, 0, 0, 0], symbol := [0], used := 1, left := 16384 }

theorem witness_CanonicalTree : h1.codes [2, 1, 3, 3] ∧ (loaded [0b111#8]).streamCodes [2, 1, 3, 3] 3 := by decide

theorem witness_DecodedIsCanonical :
    h1.codes [2, 1, 3, 3] ∧
    ∃ u, decodeSymbol h1 (loaded [0b111#8]) = .val 3 u := by
  exact ⟨by decide, setCursor 3 (loaded [0b111#8]), rfl⟩

/-- With 15 bits there, and with 8. -/
theorem witness_NoCodeFails :
    h6.codes [1, 0, 0] ∧ (loaded [0xFF#8, 0xFF#8]).hasBits 15 ∧ ¬(loaded [0xFF#8]).hasBits 15 ∧
    (loaded [0xFF#8]).bitpos.toNat ≤ 8 * (loaded [0xFF#8]).inLen.toNat ∧
    (∀ sym, ¬(loaded [0xFF#8, 0xFF#8]).streamCodes [1, 0, 0] sym) ∧ (∀ sym, ¬(loaded [0xFF#8]).streamCodes [1, 0, 0] sym) := by
  refine ⟨by decide, by decide, by decide, by decide, ?_, ?_⟩ <;>
  · rintro sym ⟨h, h0, hs⟩
    match sym, h with
    | 0, _ => revert hs; decide
    | 1, _ => revert h0; decide
    | 2, _ => revert h0; decide

theorem witness_OverSubscribed : (∀ l ∈ [1, 1, 1], l ≤ 15) ∧ (∀ l ∈ [15, 15, 0], l ≤ 15) := by decide

theorem witness_BuiltTree : h1.codes [2, 1, 3, 3] ∧ HTree.noCodes.codes [0, 0, 0] := by decide

theorem witness_PlacementLoop : h1.codes [2, 1, 3, 3] ∧ [9, 9, 9, 9].length = h1.used := by decide

/-- The widest read that just fits, and one that just does not. -/
theorem witness_ReadBits :
    16 ≤ 16 ∧ (loaded [0xB5#8, 0x3C#8]).bitpos.toNat + 16 ≤ 8 * (loaded [0xB5#8, 0x3C#8]).inLen.toNat ∧
    8 * (loaded [0xB5#8]).inLen.toNat < (loaded [0xB5#8]).bitpos.toNat + 9 := by decide

theorem witness_AlignToByte : (midway [0x01#8] .stored 8).bitpos.toNat ≤ 8 * (midway [0x01#8] .stored 8).inLen.toNat := by decide

/-- Three bits there, two, and none. -/
theorem witness_HeaderStep :
    (midway [0x03#8] .header 5).coreTurn ∧ (midway [0x03#8] .header 5).lastOp = some .inflate ∧
    (midway [0x03#8] .header 5).phase = .header ∧ (midway [0x03#8] .header 5).hasBits 3 ∧
    (midway [0x03#8] .header 6).hasBits 1 ∧ ¬(midway [0x03#8] .header 6).hasBits 3 ∧ ¬(midway [0x03#8] .header 8).hasBits 1 := by decide

/-- W1: LEN is 4, its complement 0xFFFB, and IN ends with the data. -/
theorem witness_StoredBody :
    (1 : Nat) = ((midway w1 .stored 3).bitpos.toNat + 7) / 8 ∧
    4 = (byteAt (midway w1 .stored 3) .inp 1).toNat + 256 * (byteAt (midway w1 .stored 3) .inp 2).toNat ∧
    4 = ((byteAt (midway w1 .stored 3) .inp 3).toNat + 256 * (byteAt (midway w1 .stored 3) .inp 4).toNat) ^^^ 0xFFFF ∧
    1 + 4 + 4 ≤ (midway w1 .stored 3).inLen.toNat ∧
    (midway w1 .stored 3).outLen.toNat + 4 ≤ (midway w1 .stored 3).outMax.toNat := by decide

/-- Each check at its boundary: IN of 2, 4, 5 (complement wrong), 8 bytes, and OUT of 3. -/
theorem witness_StoredErrors :
    (midway w1 .stored 3).bitpos.toNat ≤ 8 * (midway w1 .stored 3).inLen.toNat ∧
    (midway (w1.take 2) .stored 3).inLen.toNat < 1 + 2 ∧
    1 + 2 ≤ (midway (w1.take 4) .stored 3).inLen.toNat ∧ (midway (w1.take 4) .stored 3).inLen.toNat < 1 + 4 ∧
    1 + 4 ≤ (midway (w1.take 5) .stored 3).inLen.toNat ∧ (4 : Nat) ≠ 0xFFFA ^^^ 0xFFFF ∧
    (4 : Nat) = 0xFFFB ^^^ 0xFFFF ∧ (midway (w1.take 8) .stored 3).inLen.toNat < 1 + 4 + 4 ∧
    1 + 4 + 4 ≤ (midway w1 .stored 3).inLen.toNat ∧ 3 < (midway w1 .stored 3).outLen.toNat + 4 := by decide

theorem witness_EndOfBlock :
    (loaded []).bfinal = 0#1 ∧ (midway [] .fixedCodes 0).bfinal = 1#1 := by decide

/-- The last index, 258 of 259 lengths. -/
theorem witness_ClLen : (atLength [] 258).inner = .lengths 257 2 258 ∧ 258 < 257 + 2 := by decide

/-- A run of each kind that ends exactly at the last length. -/
theorem witness_ClRuns :
    (atLength [0#8] 256).inner = .lengths 257 2 256 ∧ 256 ≠ 0 ∧ (atLength [0#8] 256).hasBits 2 ∧ (atLength [0#8] 256).hasBits 3 ∧
    (atLength [0#8] 248).hasBits 7 ∧ 256 + (3 + bitsAt (atLength [0#8] 256) 0 2) ≤ 257 + 2 ∧
    256 + (3 + bitsAt (atLength [0#8] 256) 0 3) ≤ 257 + 2 ∧ 248 + (11 + bitsAt (atLength [0#8] 248) 0 7) ≤ 257 + 2 := by decide

/-- A run of each kind that is one too long, and one with no bits left. -/
theorem witness_ClErrors :
    (atLength [0#8] 0).inner = .lengths 257 2 0 ∧ ¬(atLength [] 1).hasBits 2 ∧ ¬(atLength [] 1).hasBits 3 ∧
    ¬(atLength [] 1).hasBits 7 ∧ (atLength [0#8] 257).hasBits 3 ∧ 257 + 2 < 257 + (3 + bitsAt (atLength [0#8] 257) 0 2) ∧
    257 + 2 < 257 + (3 + bitsAt (atLength [0#8] 257) 0 3) ∧ (atLength [0#8] 249).hasBits 7 ∧
    257 + 2 < 249 + (11 + bitsAt (atLength [0#8] 249) 0 7) := by decide

/-- P3's code-length code lengths, in ORDER. -/
def p3cl : List Nat := [3, 3, 2, 0, 0, 0, 0, 0, 0, 0, 0, 0, 0, 2, 0, 0, 0, 2]

/-- P3's code-length statements. -/
def p3prog : List Stmt := [.cl18 97, .cl 3, .cl16 5, .cl18 138, .cl18 15, .cl 3, .cl 3, .cl 1, .cl17 3, .cl 1]

/-- P3's header: every hypothesis of a dynamic header that completes. -/
theorem witness_DynHeader :
    countsInRange 258 5 p3cl ∧ (midway p3 .dynHeader 3).lens.length = 320 ∧
    (buildCanonicalTree (clenOf p3cl)).isSome = true ∧ clProgOk (clenOf p3cl) p3prog [] = true ∧
    (clSent p3prog []).length = 258 + 5 ∧ (∃ lit, buildCanonicalTree ((clSent p3prog []).take 258) = some lit ∧ lit.left = 0) ∧
    (∃ dist, buildCanonicalTree ((clSent p3prog []).drop 258) = some dist ∧ dist.left = 0) ∧
    (midway p3 .dynHeader 3).streamHas (dynHeaderBits 258 5 p3cl p3prog) := by
  refine ⟨by decide, by decide, by decide, by decide, by decide, ⟨_, rfl, by decide⟩, ⟨_, rfl, by decide⟩, by decide⟩

/-- V-D9's header (over-subscribed literal/length lengths) and V-D8's (incomplete distance lengths). -/
theorem witness_DynTreeErrors :
    (midway [0x05#8, 0xC1#8, 0x81#8, 0x00#8, 0x00#8, 0x00#8, 0x00#8, 0x00#8, 0x90#8, 0x56#8, 0xFE#8, 0x23#8, 0x00#8] .dynHeader
        3).streamHas
      (dynHeaderBits 257 2 [0, 0, 1, 0, 0, 0, 0, 0, 0, 0, 0, 0, 0, 0, 0, 0, 0, 1]
        [.cl18 97, .cl 1, .cl 1, .cl18 138, .cl18 19, .cl 1, .cl 1, .cl 1]) ∧
    dynTreeError ((clSent [.cl18 97, .cl 1, .cl 1, .cl18 138, .cl18 19, .cl 1, .cl 1, .cl 1] []).take 257) = some .invalidHuffmanTree ∧
    countsInRange 257 2 [0, 0, 1, 0, 0, 0, 0, 0, 0, 0, 0, 0, 0, 0, 0, 0, 0, 1] ∧
    (clSent [.cl18 97, .cl 1, .cl 1, .cl18 138, .cl18 19, .cl 1, .cl 1, .cl 1] []).length = 257 + 2 ∧
    clProgOk (clenOf [0, 0, 1, 0, 0, 0, 0, 0, 0, 0, 0, 0, 0, 0, 0, 0, 0, 1])
      [.cl18 97, .cl 1, .cl 1, .cl18 138, .cl18 19, .cl 1, .cl 1, .cl 1] [] = true ∧
    (buildCanonicalTree (clenOf [0, 0, 1, 0, 0, 0, 0, 0, 0, 0, 0, 0, 0, 0, 0, 0, 0, 1])).isSome = true := by decide

/-- V-D8's code-length statements: one distance code of length 2 too few. -/
def d8prog : List Stmt := [.cl18 97, .cl 1, .cl18 138, .cl18 20, .cl 1, .cl 2, .cl 2]

theorem witness_DynTreeErrors_distance :
    (midway [0x05#8, 0xC1#8, 0x81#8, 0x00#8, 0x00#8, 0x00#8, 0x00#8, 0x80#8, 0x20#8, 0xD6#8, 0xFC#8, 0x25#8, 0x7A#8, 0x01#8] .dynHeader
        3).streamHas (dynHeaderBits 257 2 [0, 0, 1, 0, 0, 0, 0, 0, 0, 0, 0, 0, 0, 0, 0, 2, 0, 2] d8prog) ∧
    dynTreeError ((clSent d8prog []).take 257) = none ∧ dynTreeError ((clSent d8prog []).drop 257) = some .invalidCodeLengths ∧
    countsInRange 257 2 [0, 0, 1, 0, 0, 0, 0, 0, 0, 0, 0, 0, 0, 0, 0, 2, 0, 2] ∧ (clSent d8prog []).length = 257 + 2 ∧
    clProgOk (clenOf [0, 0, 1, 0, 0, 0, 0, 0, 0, 0, 0, 0, 0, 0, 0, 2, 0, 2]) d8prog [] = true ∧
    (buildCanonicalTree (clenOf [0, 0, 1, 0, 0, 0, 0, 0, 0, 0, 0, 0, 0, 0, 0, 2, 0, 2])).isSome = true := by decide

/-- V-D11's header. -/
theorem witness_ClenTreeError :
    countsInRange 257 2 [0, 0, 1, 1, 0, 0, 0, 0, 0, 0, 0, 0, 0, 0, 0, 0, 0, 1] ∧
    buildCanonicalTree (clenOf [0, 0, 1, 1, 0, 0, 0, 0, 0, 0, 0, 0, 0, 0, 0, 0, 0, 1]) = none ∧
    (midway [0x05#8, 0xC1#8, 0x81#8, 0x04#8, 0x00#8, 0x00#8, 0x00#8, 0x00#8, 0x10#8] .dynHeader 3).streamHas
      (dynCountBits 257 2 [0, 0, 1, 1, 0, 0, 0, 0, 0, 0, 0, 0, 0, 0, 0, 0, 0, 1]) := by decide

theorem witness_PartsAreShared : decode .clsym 18 = .ok .clZeroLong ∧ decode .dsym 31 = .ok .illegalDist31 := by decide

/-- The byte that fills OUT, and the one after it. -/
theorem witness_Literal :
    ({ loaded [] with outLen := 63#25 } : State).outLen.toNat + 1 ≤ ({ loaded [] with outLen := 63#25 } : State).outMax.toNat ∧
    ({ loaded [] with outLen := 64#25 } : State).outMax.toNat < ({ loaded [] with outLen := 64#25 } : State).outLen.toNat + 1 := by
  decide

/-- V-S2's back-reference after its length symbol, at bit 18; the distance is exactly the history. -/
theorem witness_BackReference :
    0 < 29 ∧ lengthInstrs[0]? = some .len257 ∧ 0 < 2 ^ lext.getD 0 0 ∧
    (distTreeInUse (emitted [0x61#8] (midway [0x4B#8, 0x04#8, 0x02#8, 0x00#8] .fixedCodes 18))).codes fixedDistLengths ∧
    0 < fixedDistLengths.length ∧ 0 < fixedDistLengths.getD 0 0 ∧ 0 < 2 ^ dext.getD 0 0 ∧
    (emitted [0x61#8] (midway [0x4B#8, 0x04#8, 0x02#8, 0x00#8] .fixedCodes 18)).streamHas
      (fieldBits (lext.getD 0 0) 0 ++ symbolBits fixedDistLengths 0 ++ fieldBits (dext.getD 0 0) 0) ∧
    fixedDistLengths.length ≤ 32 ∧ 3 = lbase.getD 0 0 + 0 ∧ 1 = dbase.getD 0 0 + 0 ∧
    1 ≤ (emitted [0x61#8] (midway [0x4B#8, 0x04#8, 0x02#8, 0x00#8] .fixedCodes 18)).hlen ∧
    (emitted [0x61#8] (midway [0x4B#8, 0x04#8, 0x02#8, 0x00#8] .fixedCodes 18)).outLen.toNat + 3 ≤
      (emitted [0x61#8] (midway [0x4B#8, 0x04#8, 0x02#8, 0x00#8] .fixedCodes 18)).outMax.toNat := by decide

/-- V-S26's length: symbol 284 with extra value 31, then distance 1, with OUT large enough; the stream begins at bit 19. -/
theorem witness_BackReference_longest :
    lengthInstrs[27]? = some .len284 ∧ 31 < 2 ^ lext.getD 27 0 ∧ 258 = lbase.getD 27 0 + 31 ∧
    (emitted [0x61#8] { midway [0x4B#8, 0x1C#8, 0xF9#8, 0x00#8, 0x00#8] .fixedCodes 19 with outMax := 259#25 }).streamHas
      (fieldBits (lext.getD 27 0) 31 ++ symbolBits fixedDistLengths 0 ++ fieldBits (dext.getD 0 0) 0) ∧
    1 + 258 ≤ (259#25).toNat := by decide

/-- The distance tree of V-D17, whose symbols are 0 and 30. -/
def d17dist : List Nat := 1 :: (List.replicate 29 0 ++ [1])

/-- A dynamic block with that tree, whose stream is the bit 1. -/
def d17 : State :=
  { midway [0x01#8] .dynCodes 0 with distSel := true, distTree := (buildCanonicalTree d17dist).getD HTree.noCodes }

/-- The tree of V-H6 as the distance tree of a dynamic block, before the given bytes. -/
def oneDistance (bytes : List Byte) : State := { midway bytes .dynCodes 0 with distSel := true, distTree := h6 }

/-- The length's extra bit missing; after a length without extra bits no distance code, with 15 bits there and with 8; and DIST_4's code
of five bits with its extra bit missing. -/
theorem witness_BackReferenceErrors_reads :
    lengthInstrs[8]? = some .len265 ∧ ¬(oneDistance []).hasBits (lext.getD 8 0) ∧
    (distTreeInUse (oneDistance [])).codes [1, 0, 0] ∧ (oneDistance []).bitpos.toNat ≤ 8 * (oneDistance []).inLen.toNat ∧
    (oneDistance [0xFF#8, 0xFF#8]).streamHas (fieldBits (lext.getD 0 0) 0) ∧
    (oneDistance [0xFF#8, 0xFF#8]).hasBits (lext.getD 0 0 + 15) ∧ ¬(oneDistance [0xFF#8]).hasBits (lext.getD 0 0 + 15) ∧
    (∀ d, ¬(oneDistance [0xFF#8, 0xFF#8]).streamCodes [1, 0, 0] d) ∧ (∀ d, ¬(oneDistance [0xFF#8]).streamCodes [1, 0, 0] d) ∧
    (midway [0x20#8] .fixedCodes 3).streamHas (fieldBits (lext.getD 0 0) 0 ++ symbolBits fixedDistLengths 4) ∧
    ¬(midway [0x20#8] .fixedCodes 3).hasBits ((fieldBits (lext.getD 0 0) 0 ++ symbolBits fixedDistLengths 4).length + dext.getD 4 0) := by
  refine ⟨by decide, by decide, by decide, by decide, by decide, by decide, by decide, ?_, ?_, by decide, by decide⟩ <;>
  · rintro d ⟨h, h0, hs⟩
    match d, h with
    | 0, _ => revert hs; decide
    | 1, _ => revert h0; decide
    | 2, _ => revert h0; decide

/-- Distance symbol 30; a distance of 1 with no history (V-S4); a length that does not fit (V-S32). -/
theorem witness_BackReferenceErrors :
    (distTreeInUse d17).codes d17dist ∧ d17dist.length ≤ 32 ∧ 30 < d17dist.length ∧ 0 < d17dist.getD 30 0 ∧
    d17.streamHas (fieldBits (lext.getD 0 0) 0 ++ symbolBits d17dist 30) ∧ 0 < 2 ^ dext.getD 30 0 ∧
    (midway [0x03#8, 0x02#8, 0x00#8] .fixedCodes 10).streamHas
      (fieldBits (lext.getD 0 0) 0 ++ symbolBits fixedDistLengths 0 ++ fieldBits (dext.getD 0 0) 0) ∧
    (midway [0x03#8, 0x02#8, 0x00#8] .fixedCodes 10).hlen < 1 ∧
    1 ≤ (emitted [0x61#8] (midway [0x4B#8, 0x04#8, 0x02#8, 0x00#8] .fixedCodes 18)).hlen ∧ 3 < 1 + 3 := by decide

/-- DIST_4 with extra bit 1, distance 6: exactly the history, one too far, an output too long, and no bit left. -/
theorem witness_DistanceSymbols :
    4 < 30 ∧ distanceInstrs[4]? = some .dist4 ∧ (atDistance [0x01#8] [1#8, 2#8, 3#8, 4#8, 5#8, 6#8] 3).inner = .distance 3 ∧
    6 = dbase.getD 4 0 + bitsAt (atDistance [0x01#8] [1#8, 2#8, 3#8, 4#8, 5#8, 6#8] 3) 0 (dext.getD 4 0) ∧
    (atDistance [0x01#8] [1#8, 2#8, 3#8, 4#8, 5#8, 6#8] 3).hasBits (dext.getD 4 0) ∧
    6 ≤ (atDistance [0x01#8] [1#8, 2#8, 3#8, 4#8, 5#8, 6#8] 3).hlen ∧ 6 + 58 ≤ (64#25).toNat ∧ (64#25).toNat < 6 + 59 ∧
    (atDistance [0x01#8] [1#8, 2#8, 3#8, 4#8, 5#8] 3).hlen < 6 ∧ ¬(atDistance [] [1#8] 3).hasBits (dext.getD 4 0) := by decide

theorem witness_IllegalSymbols : (atDistance [] [] 3).inner = .distance 3 := by decide

/-- The literal of V-S2. -/
theorem witness_SymbolStep :
    (midway [0x4B#8, 0x04#8] .fixedCodes 3).coreTurn ∧ (midway [0x4B#8, 0x04#8] .fixedCodes 3).phase = .fixedCodes ∧
    (litTreeInUse (midway [0x4B#8, 0x04#8] .fixedCodes 3)).codes fixedLitLengths ∧ fixedLitLengths.length ≤ 288 ∧
    (midway [0x4B#8, 0x04#8] .fixedCodes 3).streamCodes fixedLitLengths 97 ∧ decode .llsym 97 = .ok (.lit 0x61#8) := by decide

/-- Clauses 1 to 7, by phase and command. -/
theorem witness_StepRunsDecoded :
    (∃ u, headerBits (tick (midway [0x03#8] .header 0)) = .val 3 u) ∧ decode .hdr 3 = .ok (.blockFixed 1#1) ∧
    (∃ u, litSymbol (tick (midway [0x4B#8, 0x04#8] .fixedCodes 3)) = .val 97 u) ∧
    (midway w1 .stored 3).coreTurn ∧ (midway p3 .dynHeader 3).coreTurn ∧ (midway w1 .idle 0).running = false ∧
    (midway w1 .idle 0).coreTurn ∧
    ({ midway w1 .done 0 with lastOp := some .adler32 } : State).coreTurn ∧
    ({ midway w1 .done 0 with lastOp := some .crc32 } : State).lastOp = some .crc32 := by
  refine ⟨⟨_, rfl⟩, by decide, ⟨_, rfl⟩, by decide, by decide, by decide, by decide, by decide, by decide⟩

/-- Clauses 8 and 9: inside a dynamic header at its last length, and inside a back-reference. -/
theorem witness_StepRunsDecoded_inside :
    (∃ u, clSymbol (tick { atLength [0b111#8] 258 with clenTree := h1 }) = .val 3 u) ∧ 258 < 257 + 2 ∧
    decode .clsym 3 = .ok (.clLen 3#4) ∧ (∃ u, distSymbol (tick (atDistance [0x00#8] [1#8] 3)) = .val 0 u) ∧
    decode .dsym 0 = .ok .dist0 ∧ (atDistance [0x00#8] [1#8] 3).busy = true := by
  refine ⟨⟨_, rfl⟩, by decide, by decide, ⟨_, rfl⟩, by decide, by decide⟩

theorem witness_InputsKept : exec .nop (loaded []) = .next (loaded []) ∧ Instr.nop ≠ .reset := ⟨rfl, by decide⟩

/-- A literal into the last byte of OUT. -/
theorem witness_AppendOnly :
    Instr.lit 7#8 ≠ .inflate ∧ Instr.lit 7#8 ≠ .reset ∧
    ({ loaded [] with outLen := 63#25 } : State).outLen.toNat ≤ ({ loaded [] with outLen := 63#25 } : State).outMax.toNat ∧
    ∃ t, exec (.lit 7#8) { loaded [] with outLen := 63#25 } = .next t := by
  exact ⟨by decide, by decide, by decide, _, rfl⟩

/-- An error of a stream element, and one of a command. -/
theorem witness_ErrorEntry :
    (midway [] .fixedCodes 0).error = none ∧
    (∃ t, exec .illegalLen286 (midway [] .fixedCodes 0) = .next t ∧ t.error = some .invalidLengthSymbol) ∧
    Instr.illegalLen286.format ≠ .cmd ∧
    (∃ t, exec (.illegalCmd 4#32) (loaded []) = .next t ∧ t.error = some .illegalCommand) ∧ (Instr.illegalCmd 4#32).format = .cmd := by
  exact ⟨by decide, ⟨_, rfl, rfl⟩, by decide, ⟨_, rfl, rfl⟩, by decide⟩

/-- An INFLATE at its first header keeps the invariant's every part. -/
theorem midway_header_inv : (midway [0x03#8, 0x00#8] .header 0).Inv := by
  refine ⟨by decide, by decide, by decide, by decide, ⟨by decide, by decide, ?_⟩, by decide, by decide⟩
  exact fun h => absurd h (by decide)

/-- A dynamic block under way, with both trees built. -/
def dynamic : State :=
  { midway [0x03#8, 0x00#8] .dynCodes 0 with litSel := true, distSel := true, litTree := fixedLit, distTree := fixedDist }

theorem dynamic_inv : dynamic.Inv := by
  refine ⟨by decide, by decide, by decide, by decide, ⟨by decide, by decide, ?_⟩, by decide, by decide⟩
  exact fun _ => ⟨rfl, rfl, ⟨fixedLitLengths, by decide, by decide, by decide⟩, ⟨fixedDistLengths, by decide, by decide, by decide⟩⟩

theorem witness_Progress :
    (midway [0x03#8, 0x00#8] .header 0).Inv ∧ (midway [0x03#8, 0x00#8] .header 0).running = true ∧
    (midway [0x03#8, 0x00#8] .header 0).host = [] ∧ ∃ t, step (midway [0x03#8, 0x00#8] .header 0) = .next t :=
  ⟨midway_header_inv, rfl, rfl, _, rfl⟩

theorem witness_InflateEnds :
    dynamic.Inv ∧ dynamic.coreTurn ∧ dynamic.lastOp = some .inflate := ⟨dynamic_inv, by decide, rfl⟩

/-- Two states that differ in the byte of IN past IN_LEN and in the first byte of OUT, while OUT_LEN is 0. -/
theorem witness_UnspecifiedUnseen :
    (midway [0x03#8, 0x00#8] .header 0).sameValid
      { midway [0x03#8, 0x00#8] .header 0 with inMem := Memory.writeAll 0 [0x03#8, 0x00#8, 0x77#8] [], outMem := [(0, 5#8)] } ∧
    (midway [0x03#8, 0x00#8] .header 0).host = [] ∧ ∃ t, step (midway [0x03#8, 0x00#8] .header 0) = .next t := by
  exact ⟨by decide, rfl, _, rfl⟩

theorem witness_InvStep :
    (midway [0x03#8, 0x00#8] .header 0).Inv ∧ ∃ t, step (midway [0x03#8, 0x00#8] .header 0) = .next t :=
  ⟨midway_header_inv, _, rfl⟩

theorem witness_InvReset :
    1 ≤ (1#25).toNat ∧ (1#25).toNat ≤ 2 ^ 24 ∧ 1 ≤ (0x1000000#25).toNat ∧ (0x1000000#25).toNat ≤ 2 ^ 24 := by decide

theorem witness_MemoriesStep :
    (loaded w1).memoriesOk ∧ ∃ t, step (hosting (.write 0x01000003#32 .b1 9#32) (loaded w1)) = .next t := ⟨by decide, _, rfl⟩

theorem witness_StopsOnlyOnInputWrite :
    (midway [0x03#8, 0x00#8] .header 0).Inv ∧
    regionOf (midway [0x03#8, 0x00#8] .header 0) 0x0100003F = .byteOf .inp 0x3F := ⟨midway_header_inv, by decide⟩

/-- A queued write of four bytes of which only the last lies in DICT. -/
theorem witness_StopsOnlyOnInputWrite_straddling :
    (hosting (.write 0x0000FFFD#32 .b4 0#32) (midway [0x03#8, 0x00#8] .header 0)).Inv ∧
    (hosting (.write 0x0000FFFD#32 .b4 0#32) (midway [0x03#8, 0x00#8] .header 0)).busy = true ∧
    regionOf (midway [0x03#8, 0x00#8] .header 0) ((0x0000FFFD#32).toNat + 2) = .unmapped ∧ 3 < Width.b4.bytes ∧
    regionOf (midway [0x03#8, 0x00#8] .header 0) ((0x0000FFFD#32).toNat + 3) = .byteOf .dict 0 :=
  ⟨midway_header_inv, by decide⟩

/-- One region of each source, each ending exactly at the valid length. -/
theorem witness_ChecksumCommands :
    (checksummed 0#2 5#32 4#32).ckSrc = 0#2 ∧ (5#32).toNat + (4#32).toNat ≤ (checksummed 0#2 5#32 4#32).inLen.toNat ∧
    (checksummed 1#2 0#32 4#32).ckSrc = 1#2 ∧ (0#32).toNat + (4#32).toNat ≤ (checksummed 1#2 0#32 4#32).outLen.toNat ∧
    (checksummed 2#2 0#32 0#32).ckSrc = 2#2 ∧ (0#32).toNat + (0#32).toNat ≤ (checksummed 2#2 0#32 0#32).dictLen.toNat := by decide

/-- The reserved source, and each other one exceeded by one byte. -/
theorem witness_ChecksumRange :
    (checksummed 3#2 0#32 0#32).ckSrc = 3#2 ∧ (checksummed 0#2 5#32 5#32).inLen.toNat < (5#32).toNat + (5#32).toNat ∧
    (checksummed 1#2 0#32 5#32).outLen.toNat < (0#32).toNat + (5#32).toNat ∧
    (checksummed 2#2 1#32 0#32).dictLen.toNat < (1#32).toNat + (0#32).toNat := by decide

theorem witness_InflateStart :
    (loaded w1).dictReq = false ∧ ({ loaded w1 with dictReq := true } : State).dictReq = true ∧
    ({ loaded w1 with dictReq := true } : State).dictLen = 0#17 ∧ (withDict [1#8] (loaded w1)).dictLen ≠ 0#17 := by decide

theorem witness_IllegalCommand : (loaded []).busy = false ∧ (midway [] .header 0).busy = true := by decide

/-- Clauses 1 to 6: RESET and INFLATE while busy; the three accepted commands and NOP while idle. -/
theorem witness_CommandWrite :
    (hosting (.write 0#32 .b4 0xFF#32) (midway [] .header 0)).inner = .none ∧
    (hosting (.write 0#32 .b4 0xFF#32) (midway [] .header 0)).busy = true ∧ (1#32 : Word) ≠ 0xFF#32 ∧
    (hosting (.write 0#32 .b4 1#32) (loaded [])).busy = false ∧ (hosting (.write 0#32 .b4 1#32) (loaded [])).inner = .none ∧
    (hosting (.write 0#32 .b4 1#32) (loaded [])).host = [.write 0#32 .b4 1#32] ∧
    (0#32 : Word) ≠ 1#32 ∧ (0#32 : Word) ≠ 2#32 ∧ (0#32 : Word) ≠ 3#32 := by decide

/-- The last four bytes of IN, and the last byte of DICT. -/
theorem witness_BusMemory :
    (hosting (.write 0x0100003C#32 .b4 1#32) (loaded [])).busy = false ∧
    (0x0100003C#32).toNat = 0x01000000 + 60 ∧ 60 + Width.b4.bytes ≤ (loaded []).inMax.toNat ∧
    (0x00017FFF#32).toNat = 0x00010000 + 32767 ∧ 32767 + Width.b1.bytes ≤ 32768 := by decide

/-- Two bytes of which the first is the last of IN and the second unmapped, and the same at DICT's start; a byte of OUT. -/
theorem witness_BusMemory_straddling :
    (loaded []).inMax.toNat ≤ 2 ^ 24 ∧ 0x100 ≤ (0x0100003F#32).toNat ∧
    (0x0100003F#32).toNat + 0 = 0x01000000 + 63 ∧ 63 < (loaded []).inMax.toNat ∧
    regionOf (loaded []) ((0x0100003F#32).toNat + 1) = .unmapped ∧
    regionOf (loaded []) (0x0000FFFF#32).toNat = .unmapped ∧ (0x0000FFFF#32).toNat + 1 = 0x00010000 + 0 ∧ 1 < Width.b2.bytes ∧
    regionOf (loaded []) (0x02000000#32).toNat = .byteOf .out 0 := by decide

/-- Each byte of a write across IN's upper edge and DICT's lower edge goes to its own region, and OUT takes none (R102, R105, R107). -/
theorem test_bus_straddling :
    (after (step (hosting (.write 0x0100003F#32 .b2 0x4241#32) (loaded [])))).map (·.inMem) = some [(63, 0x41#8)] ∧
    (after (step (hosting (.write 0x0000FFFF#32 .b2 0x4241#32) (loaded [])))).map (·.dictMem) = some [(0, 0x42#8)] ∧
    (after (step (hosting (.write 0x02000000#32 .b1 0x41#32) (loaded [])))).map (·.outMem) = some [] := by decide

theorem witness_BusAccess :
    ((midway [] .header 0).busy = true → (midway [] .header 0).inner = .none) ∧ (0xFE#32).toNat < 0x100 ∧
    ¬(Width.b4 = .b4 ∧ (0xFE#32).toNat % 4 = 0) ∧ ¬(Width.b2 = .b4 ∧ (0x04#32).toNat % 4 = 0) := by decide

/-- The last register; the last byte of the output, of IN and of DICT; and an unmapped byte on each side of DICT, after IN and after
OUT. -/
theorem witness_BusAccess_values :
    (0xFC#32).toNat < 0x100 ∧ (0xFC#32).toNat % 4 = 0 ∧ (checksummed 1#2 0#32 4#32).inMax.toNat ≤ 2 ^ 24 ∧
    (0x02000000#32).toNat + 3 = 0x02000000 + 3 ∧ 3 < Width.b4.bytes ∧ 3 < (checksummed 1#2 0#32 4#32).outMax.toNat ∧
    3 < (checksummed 1#2 0#32 4#32).outLen.toNat ∧ (0x0100003F#32).toNat + 0 = 0x01000000 + 63 ∧
    63 < (checksummed 1#2 0#32 4#32).inMax.toNat ∧ (0x00017FFF#32).toNat + 0 = 0x00010000 + 32767 ∧
    0x100 ≤ (0x0000FFFF#32).toNat ∧ (0x0000FFFF#32).toNat + 0 < 0x00010000 ∧ 0x00018000 ≤ (0x00017FFF#32).toNat + 1 ∧
    0x01000000 + (checksummed 1#2 0#32 4#32).inMax.toNat ≤ (0x0100003F#32).toNat + 1 ∧
    0x02000000 + (checksummed 1#2 0#32 4#32).outMax.toNat ≤ (0x02000040#32).toNat + 0 := by decide

/-- INT_STATUS; and an access whose first byte is the last of IN and whose second is unmapped. -/
theorem witness_BusyWrites_edges :
    (hosting (.write 0x10#32 .b4 3#32) (midway [] .header 0)).host = [.write 0x10#32 .b4 3#32] ∧
    (hosting (.write 0x10#32 .b4 3#32) (midway [] .header 0)).busy = true ∧
    (hosting (.write 0x10#32 .b4 3#32) (midway [] .header 0)).inner = .none ∧
    0 < Width.b2.bytes ∧ 0x100 ≤ (0x0100003F#32).toNat ∧
    regionOf (midway [] .header 0) ((0x0100003F#32).toNat + 0) = .byteOf .inp 63 ∧
    regionOf (midway [] .header 0) ((0x0100003F#32).toNat + 1) = .unmapped := by decide

/-- A configuration register, a byte of OUT, and the last byte of IN. -/
theorem witness_BusyWrites :
    (midway [] .header 0).busy = true ∧ (midway [] .header 0).inner = .none ∧
    (0x18#32).toNat < 0x100 ∧ (0x18#32).toNat ≠ 0 ∧ (0x18#32).toNat ≠ 0x10 ∧
    0x100 ≤ (0x02000000#32).toNat ∧
    regionOf (midway [] .header 0) (0x02000000#32).toNat = .byteOf .out 0 ∧
    0 < Width.b1.bytes ∧ regionOf (midway [] .header 0) ((0x0100003F#32).toNat + 0) = .byteOf .inp 0x3F := by decide

theorem witness_RegisterWrites :
    (hosting (.write 0x1C#32 .b4 9#32) (loaded [])).busy = false ∧ (0x1C#32 : Word) ≠ 0#32 ∧ (0xFC#32).toNat < 0x100 ∧
    (0xFC#32).toNat % 4 = 0 ∧ (0x1C#32).toNat % 4 = 0 := by decide

theorem witness_StatusWord :
    (loaded []).error = none ∧ (raise .invalidCode (loaded [])).error = some .invalidCode := by decide

end Sys2Proof.Tests
end

