-- ==== Sys2Proof/Proofs/Registers.lean ====
section
/-! PROOF. The register file as the host sees it: the word at each offset (O60), and what a write while idle does to every word (O59)
(10_state.md R40 to R60). -/

namespace Sys2Proof.Machine

/-! ### The word at each offset -/

@[simp] theorem regRead_cmd (s : State) : regRead s 0x00 = 0#32 := rfl
@[simp] theorem regRead_status (s : State) : regRead s 0x04 = statusWord s := rfl
@[simp] theorem regRead_errcode (s : State) : regRead s 0x08 = errcodeWord s := rfl
@[simp] theorem regRead_ctrl (s : State) : regRead s 0x0C = ctrlWord s := rfl
@[simp] theorem regRead_intStatus (s : State) : regRead s 0x10 = intStatusWord s := rfl
@[simp] theorem regRead_intEnable (s : State) : regRead s 0x14 = intEnableWord s := rfl
@[simp] theorem regRead_inStart (s : State) : regRead s 0x18 = s.inStart.setWidth 32 := rfl
@[simp] theorem regRead_inLen (s : State) : regRead s 0x1C = s.inLen.setWidth 32 := rfl
@[simp] theorem regRead_dictLen (s : State) : regRead s 0x20 = s.dictLen.setWidth 32 := rfl
@[simp] theorem regRead_outLen (s : State) : regRead s 0x24 = s.outLen.setWidth 32 := rfl
@[simp] theorem regRead_bitpos (s : State) : regRead s 0x28 = s.bitpos.setWidth 32 := rfl
@[simp] theorem regRead_inConsumed (s : State) : regRead s 0x2C = inConsumedWord s := rfl
@[simp] theorem regRead_blkinfo (s : State) : regRead s 0x30 = blkinfoWord s := rfl
@[simp] theorem regRead_ckSrc (s : State) : regRead s 0x34 = s.ckSrc.setWidth 32 := rfl
@[simp] theorem regRead_ckOff (s : State) : regRead s 0x38 = s.ckOff := rfl
@[simp] theorem regRead_ckLen (s : State) : regRead s 0x3C = s.ckLen := rfl
@[simp] theorem regRead_adlerSeed (s : State) : regRead s 0x40 = s.adlerSeed := rfl
@[simp] theorem regRead_crcSeed (s : State) : regRead s 0x44 = s.crcSeed := rfl
@[simp] theorem regRead_ckResult (s : State) : regRead s 0x48 = s.ckResult := rfl

/-- Every offset from 0x4C on is reserved and reads 0 (10_state.md R60). -/
theorem regRead_reserved (s : State) {off : Nat} (h : 0x4C ≤ off) : regRead s off = 0#32 := by
  simp (disch := omega) only [regRead, if_neg]

/-! ### The fields of the packed words -/

theorem statusWord_fields (s : State) :
    (statusWord s).getLsbD 0 = s.busy ∧ (statusWord s).extractLsb' 1 3 = stateField s.phase ∧
    (statusWord s).getLsbD 4 = s.err ∧ (statusWord s).getLsbD 5 = s.ok ∧ (statusWord s).extractLsb' 6 2 = 0#2 ∧
    (statusWord s).extractLsb' 8 8 = lastOpField s.lastOp ∧ (statusWord s).extractLsb' 16 16 = 0#16 := by
  unfold statusWord
  refine ⟨?_, ?_, ?_, ?_, ?_, ?_, ?_⟩ <;> grind

theorem errcodeWord_of_none {s : State} (h : s.error = none) : errcodeWord s = 0#32 := by
  simp only [errcodeWord, h]

theorem errcodeWord_of_some {s : State} {e : Err} (h : s.error = some e) :
    (errcodeWord s).extractLsb' 0 8 = e.code ∧ (errcodeWord s).extractLsb' 8 3 = e.errClass ∧
    (errcodeWord s).extractLsb' 11 21 = 0#21 := by
  simp only [errcodeWord, h]
  grind

theorem blkinfoWord_fields (s : State) :
    (blkinfoWord s).extractLsb' 0 1 = s.bfinal ∧ (blkinfoWord s).extractLsb' 1 2 = s.btype ∧
    (blkinfoWord s).extractLsb' 3 5 = 0#5 ∧ (blkinfoWord s).extractLsb' 8 24 = s.blkcnt := by
  grind [blkinfoWord]

theorem intStatusWord_fields (s : State) :
    (intStatusWord s).getLsbD 0 = s.intDone ∧ (intStatusWord s).getLsbD 1 = s.intErr ∧
    (intStatusWord s).extractLsb' 2 30 = 0#30 := by
  grind [intStatusWord]

theorem intEnableWord_fields (s : State) :
    (intEnableWord s).getLsbD 0 = s.doneEn ∧ (intEnableWord s).getLsbD 1 = s.errEn ∧
    (intEnableWord s).extractLsb' 2 30 = 0#30 := by
  grind [intEnableWord]

theorem ctrlWord_fields (s : State) :
    (ctrlWord s).getLsbD 0 = s.dictReq ∧ (ctrlWord s).extractLsb' 1 31 = 0#31 := by
  grind [ctrlWord]

/-- IN_CONSUMED is the least number of bytes that holds BITPOS bits (10_state.md R47). -/
theorem inConsumedWord_bounds (s : State) :
    s.bitpos.toNat ≤ 8 * (inConsumedWord s).toNat ∧ 8 * (inConsumedWord s).toNat < s.bitpos.toNat + 8 := by
  have := s.bitpos.isLt
  simp only [inConsumedWord, BitVec.toNat_ofNat]
  omega

theorem irq_eq_true {s : State} :
    irq s = true ↔ s.intDone = true ∧ s.doneEn = true ∨ s.intErr = true ∧ s.errEn = true := by
  simp [irq]

/-! ### A write to a register -/

/-- A field of `k` bits reads back as the written word's low `k` bits. -/
theorem setWidth_setWidth_eq_and (v : Word) {k : Nat} (h : k ≤ 32) :
    (v.setWidth k).setWidth 32 = v &&& BitVec.ofNat 32 (2 ^ k - 1) := by
  have hk : 2 ^ k - 1 < 2 ^ 32 := by
    have := Nat.pow_le_pow_right (n := 2) (by decide) h
    omega
  apply BitVec.eq_of_toNat_eq
  rw [BitVec.toNat_and, BitVec.toNat_ofNat, Nat.mod_eq_of_lt hk, Nat.and_two_pow_sub_one_eq_mod]
  simp only [BitVec.toNat_setWidth]
  exact Nat.mod_eq_of_lt ((Nat.mod_le _ _).trans_lt v.isLt)

/-- A length register of `k` bits reads back a bound that fits it. -/
theorem setWidth_ofNat_min {k n m : Nat} (hm : m < 2 ^ k) :
    (BitVec.ofNat k (min n m)).setWidth 32 = BitVec.ofNat 32 (min n m) := by
  have hmin : min n m < 2 ^ k := (Nat.min_le_right n m).trans_lt hm
  apply BitVec.eq_of_toNat_eq
  rw [BitVec.toNat_setWidth, BitVec.toNat_ofNat, BitVec.toNat_ofNat, Nat.mod_eq_of_lt hmin]

/-- A write while idle to a register other than INT_STATUS stores what `configWrite` says. -/
theorem regWrite_of_idle {s : State} (h : s.busy = false) {off : Nat} (hoff : off ≠ 0x10) (v : Word) :
    regWrite off v s = configWrite off v s := by
  simp [regWrite, h, hoff]

section
variable {s : State} (v : Word)

theorem regRead_regWrite_intStatus : regRead (regWrite 0x10 v s) 0x10 = regRead s 0x10 &&& ~~~v := by
  change intStatusWord (clearInterrupts v s) = intStatusWord s &&& ~~~v
  simp only [intStatusWord, clearInterrupts]
  grind

variable (h : s.busy = false)
include h

theorem regRead_regWrite_ctrl : regRead (regWrite 0x0C v s) 0x0C = v &&& 1#32 := by
  rw [regWrite_of_idle h (by decide)]
  calc regRead (configWrite 0x0C v s) 0x0C
    _ = (0#31 ++ BitVec.ofBool (v.getLsbD 0) : BitVec 32) := rfl
    _ = (v.setWidth 1).setWidth 32 := by grind
    _ = v &&& 1#32 := setWidth_setWidth_eq_and v (by decide)

theorem regRead_regWrite_intEnable : regRead (regWrite 0x14 v s) 0x14 = v &&& 3#32 := by
  rw [regWrite_of_idle h (by decide)]
  calc regRead (configWrite 0x14 v s) 0x14
    _ = (0#30 ++ BitVec.ofBool (v.getLsbD 1) ++ BitVec.ofBool (v.getLsbD 0) : BitVec 32) := rfl
    _ = (v.setWidth 2).setWidth 32 := by grind
    _ = v &&& 3#32 := setWidth_setWidth_eq_and v (by decide)

theorem regRead_regWrite_inStart : regRead (regWrite 0x18 v s) 0x18 = v &&& 0xFFFFFF#32 := by
  rw [regWrite_of_idle h (by decide)]
  exact setWidth_setWidth_eq_and v (k := 24) (by decide)

theorem regRead_regWrite_inLen :
    regRead (regWrite 0x1C v s) 0x1C = BitVec.ofNat 32 (min v.toNat s.inMax.toNat) := by
  rw [regWrite_of_idle h (by decide)]
  exact setWidth_ofNat_min s.inMax.isLt

theorem regRead_regWrite_dictLen : regRead (regWrite 0x20 v s) 0x20 = BitVec.ofNat 32 (min v.toNat 32768) := by
  rw [regWrite_of_idle h (by decide)]
  exact setWidth_ofNat_min (k := 17) (by decide)

theorem regRead_regWrite_ckSrc : regRead (regWrite 0x34 v s) 0x34 = v &&& 3#32 := by
  rw [regWrite_of_idle h (by decide)]
  exact setWidth_setWidth_eq_and v (k := 2) (by decide)

/-- CK_OFF, CK_LEN and the two seeds keep all 32 bits. -/
theorem regRead_regWrite_wholeWord {off : Nat} (hoff : off = 0x38 ∨ off = 0x3C ∨ off = 0x40 ∨ off = 0x44) :
    regRead (regWrite off v s) off = v := by
  rw [regWrite_of_idle h (by omega)]
  rcases hoff with rfl | rfl | rfl | rfl <;> rfl

end

/-- The offsets whose registers a write changes: CTRL, INT_STATUS, INT_ENABLE, IN_START, IN_LEN, DICT_LEN, CK_SRC, CK_OFF, CK_LEN,
ADLER_SEED and CRC_SEED (10_state.md R40). -/
def writableOffsets : List Nat := [0x0C, 0x10, 0x14, 0x18, 0x1C, 0x20, 0x34, 0x38, 0x3C, 0x40, 0x44]

theorem mem_writableOffsets {off : Nat} :
    off ∈ writableOffsets ↔ off = 0x0C ∨ off = 0x10 ∨ off = 0x14 ∨ off = 0x18 ∨ off = 0x1C ∨ off = 0x20 ∨ off = 0x34 ∨
      off = 0x38 ∨ off = 0x3C ∨ off = 0x40 ∨ off = 0x44 := by
  simp [writableOffsets]

/-- A write to a read-only or reserved register is ignored (10_state.md R40, R60). -/
theorem regWrite_of_readOnly {off : Nat} (v : Word) (s : State) (h : off ∉ writableOffsets) : regWrite off v s = s := by
  simp only [mem_writableOffsets, not_or] at h
  simp only [regWrite, configWrite, h, ↓reduceIte, ite_self]

/-- What a register write can do: nothing, a clear of interrupt flags, or the store of a register that the host sets. -/
theorem regWrite_cases (off : Nat) (v : Word) (s : State) :
    regWrite off v s = s ∨ off = 0x10 ∧ regWrite off v s = clearInterrupts v s ∨
    off ∈ writableOffsets ∧ regWrite off v s = configWrite off v s := by
  by_cases hw : off ∈ writableOffsets
  case neg => exact .inl (regWrite_of_readOnly v s hw)
  unfold regWrite
  split
  · rename_i hoff
    exact .inr (.inl ⟨hoff, rfl⟩)
  · split
    · exact .inl rfl
    · exact .inr (.inr ⟨hw, rfl⟩)

/-- A register write changes what is read at its own offset only. -/
theorem regRead_regWrite_other {off off' : Nat} (v : Word) (s : State) (h : off' ≠ off) :
    regRead (regWrite off v s) off' = regRead s off' := by
  rcases regWrite_cases off v s with hsame | ⟨rfl, hclear⟩ | ⟨hw, hstore⟩
  · rw [hsame]
  · rw [hclear]
    simp only [regRead, if_neg h]
    rfl
  · rw [hstore]
    rcases mem_writableOffsets.1 hw with rfl | rfl | rfl | rfl | rfl | rfl | rfl | rfl | rfl | rfl | rfl <;>
      simp only [regRead, if_neg h] <;> rfl

/-- A register write changes the registers that the host sets and the interrupt flags, nothing else. -/
theorem regWrite_frame (off : Nat) (v : Word) (s : State) :
    let t := regWrite off v s
    t = { s with intDone := t.intDone, intErr := t.intErr, dictReq := t.dictReq, doneEn := t.doneEn, errEn := t.errEn,
                 inStart := t.inStart, inLen := t.inLen, dictLen := t.dictLen, ckSrc := t.ckSrc, ckOff := t.ckOff,
                 ckLen := t.ckLen, adlerSeed := t.adlerSeed, crcSeed := t.crcSeed } := by
  rcases regWrite_cases off v s with hsame | ⟨-, hclear⟩ | ⟨hw, hstore⟩
  · rw [hsame]
  · rw [hclear]
    rfl
  · rw [hstore]
    rcases mem_writableOffsets.1 hw with rfl | rfl | rfl | rfl | rfl | rfl | rfl | rfl | rfl | rfl | rfl <;> rfl

/-- The host's aligned 32-bit write to a register other than CMD, as a step of an idle core. -/
theorem step_registerWrite {s : State} {a v : Word} {rest : List HostAct} (hbusy : s.busy = false)
    (hhost : s.host = .write a .b4 v :: rest) (ha : a ≠ 0#32) (hreg : a.toNat < 0x100) (halign : a.toNat % 4 = 0) :
    step s = .next (regWrite a.toNat v (tick { s with host := rest })) := by
  have h0 : a.toNat ≠ 0 := fun h => ha (BitVec.eq_of_toNat_eq h)
  simp [step, nextMove, hbusy, hhost, memWrite, hreg, halign, h0]

/-- What the register at `a` reads after the write of `v` to it while idle. -/
theorem regRead_regWrite_same {s : State} (h : s.busy = false) (a v : Word) :
    regRead (regWrite a.toNat v s) a.toNat = (
      if a = 0x0C#32 then v &&& 1#32
      else if a = 0x10#32 then regRead s 0x10 &&& ~~~v
      else if a = 0x14#32 then v &&& 3#32
      else if a = 0x18#32 then v &&& 0xFFFFFF#32
      else if a = 0x1C#32 then BitVec.ofNat 32 (min v.toNat s.inMax.toNat)
      else if a = 0x20#32 then BitVec.ofNat 32 (min v.toNat 32768)
      else if a = 0x34#32 then v &&& 3#32
      else if a = 0x38#32 ∨ a = 0x3C#32 ∨ a = 0x40#32 ∨ a = 0x44#32 then v
      else regRead s a.toNat) := by
  split_ifs with hctrl hstat hen hstart hlen hdict hsrc hwhole
  · subst hctrl; exact regRead_regWrite_ctrl v h
  · subst hstat; exact regRead_regWrite_intStatus v
  · subst hen; exact regRead_regWrite_intEnable v h
  · subst hstart; exact regRead_regWrite_inStart v h
  · subst hlen; exact regRead_regWrite_inLen v h
  · subst hdict; exact regRead_regWrite_dictLen v h
  · subst hsrc; exact regRead_regWrite_ckSrc v h
  · exact regRead_regWrite_wholeWord v h (by bv_omega)
  · have hro : a.toNat ∉ writableOffsets := by
      rw [mem_writableOffsets]
      bv_omega
    rw [regWrite_of_readOnly v s hro]

end Sys2Proof.Machine

namespace Sys2Proof.Proofs

open Sys2Proof.Machine

/-- Settles O60: each register's word read off its definition, field by field. -/
theorem statusWord : Obligations.StatusWord := by
  unfold Obligations.StatusWord
  refine ⟨by decide, fun s => ?_⟩
  obtain ⟨hbusy, hstate, herr, hok, hres, hlast, htop⟩ := statusWord_fields s
  obtain ⟨hdone, hierr, hires⟩ := intStatusWord_fields s
  obtain ⟨hdoneEn, herrEn, heres⟩ := intEnableWord_fields s
  obtain ⟨hlow, hhigh⟩ := inConsumedWord_bounds s
  have hwide {k : Nat} (x : BitVec k) : k ≤ 32 → (x.setWidth 32).toNat = x.toNat := BitVec.toNat_setWidth_of_le
  exact ⟨⟨hbusy, hstate.trans rfl, herr, hok, hres, hlast.trans rfl, htop⟩, errcodeWord_of_none,
    fun e => errcodeWord_of_some, blkinfoWord_fields s,
    ⟨hdone, hierr, hires, hdoneEn, herrEn, heres, ctrlWord_fields s⟩,
    ⟨hwide s.outLen (by decide), hwide s.bitpos (by decide), hlow, hhigh, hwide s.inStart (by decide),
      hwide s.inLen (by decide), hwide s.dictLen (by decide)⟩,
    ⟨hwide s.ckSrc (by decide), rfl, rfl, rfl, rfl, rfl⟩, ⟨rfl, fun off h _ => regRead_reserved s h⟩, irq_eq_true⟩

/-- Settles O59: the step is `regWrite` on the state with the access taken from the queue, which no register shows. -/
theorem registerWrites : Obligations.RegisterWrites := by
  unfold Obligations.RegisterWrites
  intro s a v rest hbusy hhost ha hreg halign
  refine ⟨_, step_registerWrite hbusy hhost ha hreg halign, ?_, ?_, ?_⟩
  · exact regRead_regWrite_same (s := tick { s with host := rest }) hbusy a v
  · exact fun off h => regRead_regWrite_other v _ h
  · rw [regWrite_frame]
    exact ⟨rfl, rfl, rfl, rfl, rfl, rfl, rfl, rfl, rfl, rfl, rfl⟩

end Sys2Proof.Proofs
end

