-- ==== Sys2Proof/Proofs/Elements.lean ====
section
/-! PROOF. The induction over the parts of an INFLATE element, once: what every write of a part keeps, every instruction of the stream
keeps. -/

namespace Sys2Proof.Machine

/-! ### What holds of every state a part or an instruction answers with -/

/-- The state that a part of an element leaves, with a value or with an error, satisfies `P`. -/
inductive Res.Leaves {α : Type} (P : State → Prop) : Res α → Prop
  | val {a : α} {t : State} (h : P t) : Res.Leaves P (.val a t)
  | err {e : Err} {t : State} (h : P t) : Res.Leaves P (.err e t)
  | stop {f : Fault} : Res.Leaves P (.stop f)

/-- One part after another: what the first leaves, the second goes on from. -/
theorem Res.Leaves.bind {α β : Type} {P : State → Prop} {r : Res α} {k : α → State → Res β} (hr : r.Leaves P)
    (hk : ∀ a t, P t → (k a t).Leaves P) : (r.bind k).Leaves P := by
  cases hr with
  | val h => exact hk _ _ h
  | err h => exact .err h
  | stop => exact .stop

/-- The next state of an outcome, where there is one, satisfies `P`. -/
def NextSatisfies (P : State → Prop) (o : Host.Outcome State Fault Refusal) : Prop := ∀ t, o = .next t → P t

theorem nextSatisfies_next {P : State → Prop} {t : State} (h : P t) : NextSatisfies P (.next t) := by
  rintro _ ⟨⟩
  exact h

/-- An element's outcome is what its parts leave, entered as an error or not. -/
theorem nextSatisfies_finish {P : State → Prop} {r : Res Unit} (hr : r.Leaves P) (hraise : ∀ e t, P t → P (raise e t)) :
    NextSatisfies P (finish r) := by
  intro t ht
  rcases finish_eq_next.1 ht with rfl | ⟨e, u, rfl, rfl⟩
  · cases hr with
    | val h => exact h
  · cases hr with
    | err h => exact hraise e u h

/-! ### What the parts of an element write -/

/-- `t` is `s` but for registers that an element moves between its checks: the cursor, BLKINFO and the internal registers (10_state.md
R31, R65). -/
def RegistersMoved (s t : State) : Prop :=
  t = { s with bitpos := t.bitpos, bfinal := t.bfinal, btype := t.btype, blkcnt := t.blkcnt, phase := t.phase, litSel := t.litSel,
               distSel := t.distSel, litTree := t.litTree, distTree := t.distTree, clenTree := t.clenTree, lens := t.lens,
               inner := t.inner }

/-- `P` survives each write that an INFLATE element can make past its start: the registers of `RegistersMoved`, a byte appended to OUT
where it fits, completion and error entry. -/
structure KeptByElements (P : State → Prop) : Prop where
  moved : ∀ {s t}, RegistersMoved s t → P s → P t
  append : ∀ {s} b, s.outLen.toNat + 1 ≤ s.outMax.toNat → P s → P (outAppend b s)
  complete : ∀ {s}, P s → P (complete s)
  raise : ∀ {s} e, P s → P (raise e s)

theorem registersMoved_of_cursorOnly {s t : State} (h : CursorOnly s t) : RegistersMoved s t := by
  unfold CursorOnly at h
  rw [h]
  rfl

/-- OUT_LEN does not wrap while the byte fits in OUT. -/
theorem outAppend_outLen_toNat {s : State} (b : Byte) (hroom : s.outLen.toNat + 1 ≤ s.outMax.toNat) :
    (outAppend b s).outLen.toNat = s.outLen.toNat + 1 := by
  have hmax := s.outMax.isLt
  simp only [outAppend_outLen, BitVec.toNat_add, BitVec.toNat_ofNat]
  omega

/-! ### The parts of an element -/

/-- The check of a tree writes nothing. -/
theorem checkTree_leaves {P : State → Prop} {s : State} (h : P s) (tree : HTree) : (checkTree tree s).Leaves P := by
  unfold checkTree
  split
  · exact .err h
  · exact .val h

section
variable {P : State → Prop} (hP : KeptByElements P) {s : State} (h : P s)
include hP h

theorem copyLoop_kept {n d : Nat} (hroom : s.outLen.toNat + n ≤ s.outMax.toNat) : P (copyLoop n d s) := by
  induction n generalizing s with
  | zero => exact h
  | succ n ih =>
    refine ih (hP.append _ (by omega) h) ?_
    rw [outAppend_outLen_toNat _ (by omega), outAppend_outMax]
    omega

theorem storedLoop_kept {n b : Nat} (hroom : s.outLen.toNat + n ≤ s.outMax.toNat) : P (storedLoop n b s) := by
  induction n generalizing s b with
  | zero => exact h
  | succ n ih =>
    refine ih (hP.append _ (by omega) h) ?_
    rw [outAppend_outLen_toNat _ (by omega), outAppend_outMax]
    omega

theorem endOfBlock_kept : P (endOfBlock s) := by
  by_cases hfinal : s.bfinal = 1#1
  · rw [endOfBlock_final hfinal]
    refine hP.complete (hP.moved ?_ h)
    rfl
  · rw [endOfBlock_more hfinal]
    exact hP.moved rfl h

theorem readBits_leaves (n : Nat) : (readBits n s).Leaves P := by
  unfold readBits
  split
  · exact .err h
  · exact .val (hP.moved rfl h)

theorem symbolBelow_leaves (limit : Nat) (tree : HTree) : (symbolBelow limit tree s).Leaves P := by
  unfold symbolBelow decodeSymbol
  rcases decodeLoop_cases tree.symbol tree.count 0 0 0 s with ⟨v, t, hval, hc⟩ | ⟨e, t, herr, hc, -⟩
  · rw [hval, Res.bind_val]
    split
    · exact .val (hP.moved (registersMoved_of_cursorOnly hc) h)
    · exact .stop
  · rw [herr]
    exact .err (hP.moved (registersMoved_of_cursorOnly hc) h)

theorem putLengths_leaves (v : BitVec 4) (r : Nat) : (putLengths v r s).Leaves P := by
  unfold putLengths
  split
  · split
    · exact .err h
    · exact .val (hP.moved rfl h)
  · exact .stop
  · exact .stop

theorem copyPrevious_leaves : (copyPrevious s).Leaves P := by
  unfold copyPrevious
  split
  · split
    · exact .err h
    · exact (readBits_leaves hP h 2).bind fun _ _ ht => putLengths_leaves hP ht _ _
  · exact .stop
  · exact .stop

theorem zeroRun_leaves (base extra : Nat) : (zeroRun base extra s).Leaves P := by
  unfold zeroRun
  split
  · exact (readBits_leaves hP h extra).bind fun _ _ ht => putLengths_leaves hP ht _ _
  · exact .stop
  · exact .stop

theorem lengthSymbol_leaves (sym : Nat) : (lengthSymbol sym s).Leaves P := by
  unfold lengthSymbol
  split
  · exact putLengths_leaves hP h _ _
  split
  · exact copyPrevious_leaves hP h
  split
  · exact zeroRun_leaves hP h _ _
  · exact zeroRun_leaves hP h _ _

theorem lengthsLoop_leaves (fuel : Nat) : (lengthsLoop fuel s).Leaves P := by
  induction fuel generalizing s with
  | zero => exact .val h
  | succ fuel ih =>
    unfold lengthsLoop
    split
    · split
      · exact ((symbolBelow_leaves hP h _ _).bind fun _ _ ht => lengthSymbol_leaves hP ht _).bind fun _ _ ht => ih ht
      · exact .val h
    · exact .stop
    · exact .stop

theorem readClen_leaves (syms clen : List Nat) : (readClen syms clen s).Leaves P := by
  induction syms generalizing s clen with
  | nil => exact .val h
  | cons sym rest ih => exact (readBits_leaves hP h 3).bind fun _ _ ht => ih ht _

theorem buildLitTree_leaves (L : List Nat) : (buildLitTree L s).Leaves P := by
  unfold buildLitTree
  split
  · exact .err (hP.moved rfl h)
  · refine checkTree_leaves ?_ _
    exact hP.moved rfl h

theorem buildDistTree_leaves (L : List Nat) : (buildDistTree L s).Leaves P := by
  unfold buildDistTree
  split
  · exact .err (hP.moved rfl h)
  · refine checkTree_leaves ?_ _
    exact hP.moved rfl h

theorem buildClenTree_leaves (clen : List Nat) : (buildClenTree clen s).Leaves P := by
  unfold buildClenTree
  split
  · exact .err (hP.moved rfl h)
  · exact .val (hP.moved rfl h)

theorem dynTrees_leaves : (dynTrees s).Leaves P := by
  unfold dynTrees
  split
  · exact (buildLitTree_leaves hP h _).bind fun _ _ ht =>
      (buildDistTree_leaves hP ht _).bind fun _ _ hu => .val (hP.moved rfl hu)
  · exact .stop
  · exact .stop

theorem dynCounts_leaves : (dynCounts s).Leaves P :=
  (readBits_leaves hP h 5).bind fun _ _ h =>
  (readBits_leaves hP h 5).bind fun _ _ h =>
  (readBits_leaves hP h 4).bind fun _ _ h =>
  (readClen_leaves hP h _ _).bind fun _ _ h =>
  (buildClenTree_leaves hP h _).bind fun _ _ h => .val (hP.moved rfl h)

theorem dynHeader_leaves : (dynHeader s).Leaves P :=
  (dynCounts_leaves hP h).bind fun _ _ h => (lengthsLoop_leaves hP h _).bind fun _ _ h => dynTrees_leaves hP h

theorem storedCopy_leaves (len : Nat) : (storedCopy len s).Leaves P := by
  unfold storedCopy
  dsimp only
  split
  · exact .err h
  split
  · exact .err h
  · exact .val (hP.moved rfl (storedLoop_kept hP h (by omega)))

theorem storedBody_leaves : (storedBody s).Leaves P := by
  have hAligned : P (alignToByte s) := hP.moved rfl h
  refine (readBits_leaves hP hAligned 16).bind fun len _ h => (readBits_leaves hP h 16).bind fun nlen _ h => ?_
  split
  · exact .err h
  · exact (storedCopy_leaves hP h len).bind fun _ _ h => .val (endOfBlock_kept hP h)

theorem literal_leaves (byte : Byte) : (literal byte s).Leaves P := by
  unfold literal
  split
  · exact .err h
  · exact .val (hP.append _ (by omega) h)

theorem copyMatch_leaves (length distance : Nat) : (copyMatch length distance s).Leaves P := by
  unfold copyMatch
  split
  · exact .err h
  split
  · exact .err h
  · exact .val (hP.moved rfl (copyLoop_kept hP h (by omega)))

theorem distanceSymbol_leaves (dsym : Nat) : (distanceSymbol dsym s).Leaves P := by
  unfold distanceSymbol
  split
  · split
    · exact .err h
    · exact (readBits_leaves hP h _).bind fun _ _ h => copyMatch_leaves hP h _ _
  · exact .stop
  · exact .stop

theorem lengthPart_leaves (sym : Nat) : (lengthPart sym s).Leaves P :=
  (readBits_leaves hP h _).bind fun _ _ h => .val (hP.moved rfl h)

theorem backReference_leaves (sym : Nat) : (backReference sym s).Leaves P :=
  (lengthPart_leaves hP h sym).bind fun _ _ h =>
    (symbolBelow_leaves hP h _ _).bind fun _ _ h => distanceSymbol_leaves hP h _

/-- Every instruction of the stream keeps what each write of its parts keeps. -/
theorem exec_element_kept {i : Instr} (hi : i.format ≠ .cmd) : NextSatisfies P (exec i s) := by
  have element {r : Res Unit} (hr : r.Leaves P) : NextSatisfies P (finish r) := nextSatisfies_finish hr fun e _ => hP.raise e
  cases i with
  | blockStored | blockFixed | blockDynamic => exact nextSatisfies_next (hP.moved (s := s) rfl h)
  | blockReserved f =>
    have hLatched : P (latchHeader f 3#2 s) := hP.moved rfl h
    exact element (.err hLatched)
  | storedBody => exact element (storedBody_leaves hP h)
  | dynHeader => exact element (dynHeader_leaves hP h)
  | clLen v => exact element (putLengths_leaves hP h v 1)
  | clCopyPrev => exact element (copyPrevious_leaves hP h)
  | clZeroShort | clZeroLong => exact element (zeroRun_leaves hP h _ _)
  | lit b => exact element (literal_leaves hP h b)
  | eob => exact nextSatisfies_next (endOfBlock_kept hP h)
  | len257 | len258 | len259 | len260 | len261 | len262 | len263 | len264 | len265 | len266 | len267 | len268 | len269 | len270
  | len271 | len272 | len273 | len274 | len275 | len276 | len277 | len278 | len279 | len280 | len281 | len282 | len283 | len284
  | len285 => exact element (backReference_leaves hP h _)
  | illegalLen286 | illegalLen287 => exact element (.err h)
  | dist0 | dist1 | dist2 | dist3 | dist4 | dist5 | dist6 | dist7 | dist8 | dist9 | dist10 | dist11 | dist12 | dist13 | dist14
  | dist15 | dist16 | dist17 | dist18 | dist19 | dist20 | dist21 | dist22 | dist23 | dist24 | dist25 | dist26 | dist27 | dist28
  | dist29 | illegalDist30 | illegalDist31 => exact element (distanceSymbol_leaves hP h _)
  | nop | inflate | adler32 | crc32 | reset | illegalCmd => exact absurd rfl hi

end

end Sys2Proof.Machine
end

