-- ==== Sys2Proof/Proofs/AppendOnly.lean ====
section
/-! PROOF. OUT is append-only (O35; 10_state.md R49; 43_symbols_window.md R366): each write of an element appends to OUT or leaves it, and
so does each command but INFLATE and RESET. -/

namespace Sys2Proof.Machine

/-- From `s` to `t` OUT was appended to, by no byte or more, and within OUT_MAX if it was so before. -/
structure AppendsOut (s t : State) : Prop where
  outMax : t.outMax = s.outMax
  grows : s.outLen.toNat ≤ t.outLen.toNat
  fits : s.outLen.toNat ≤ s.outMax.toNat → t.outLen.toNat ≤ t.outMax.toNat
  bytes : ∀ a, a < s.outLen.toNat → byteAt t .out a = byteAt s .out a

theorem AppendsOut.trans {s t u : State} (h1 : AppendsOut s t) (h2 : AppendsOut t u) : AppendsOut s u where
  outMax := h2.outMax.trans h1.outMax
  grows := h1.grows.trans h2.grows
  fits h := h2.fits (h1.fits h)
  bytes a ha := (h2.bytes a (ha.trans_le h1.grows)).trans (h1.bytes a ha)

/-- A change that leaves OUT, OUT_LEN and the free values alone. -/
theorem AppendsOut.of_kept {s t : State} (hmax : t.outMax = s.outMax) (hlen : t.outLen = s.outLen)
    (hmem : t.outMem = s.outMem) (hepoch : t.epoch = s.epoch) : AppendsOut s t where
  outMax := hmax
  grows := by rw [hlen]
  fits h := by rwa [hlen, hmax]
  bytes a _ := by simp [byteAt, State.mem, hmem, hepoch]

theorem AppendsOut.refl (s : State) : AppendsOut s s := .of_kept rfl rfl rfl rfl

/-- Every write of an element appends to OUT, and only where there is room. -/
theorem appendsOut_keptByElements (s₀ : State) : KeptByElements (AppendsOut s₀) where
  moved hmoved h := h.trans (by rw [hmoved]; exact .of_kept rfl rfl rfl rfl)
  append {s} b hroom h := by
    have hlen := outAppend_outLen_toNat b hroom
    refine h.trans ⟨rfl, ?_, fun _ => ?_, fun a ha => byteAt_outAppend_other b s ha.ne⟩
    · omega
    · rwa [hlen, outAppend_outMax]
  complete h := h.trans (.of_kept rfl rfl rfl rfl)
  raise _ h := h.trans (.of_kept rfl rfl rfl rfl)

theorem checksumCommand_appends (op : Command) (f : List Byte → Word) (s : State) :
    NextSatisfies (AppendsOut s) (checksumCommand op f s) := by
  unfold checksumCommand
  split
  · exact nextSatisfies_next (.of_kept rfl rfl rfl rfl)
  · exact nextSatisfies_next (.of_kept rfl rfl rfl rfl)

theorem execIllegalCmd_appends (w : Word) (s : State) : NextSatisfies (AppendsOut s) (execIllegalCmd w s) := by
  unfold execIllegalCmd
  split
  · exact nextSatisfies_next (.refl s)
  · exact nextSatisfies_next (.of_kept rfl rfl rfl rfl)

/-- Every instruction but the two that reset OUT_LEN appends to OUT. -/
theorem exec_appends {i : Instr} (hinflate : i ≠ .inflate) (hreset : i ≠ .reset) (s : State) :
    NextSatisfies (AppendsOut s) (exec i s) := by
  by_cases hcmd : i.format = .cmd
  case neg => exact exec_element_kept (appendsOut_keptByElements s) (.refl s) hcmd
  cases i with
  | nop => exact nextSatisfies_next (.refl s)
  | inflate => exact absurd rfl hinflate
  | adler32 | crc32 => exact checksumCommand_appends _ _ s
  | reset => exact absurd rfl hreset
  | illegalCmd w => exact execIllegalCmd_appends w s
  | _ => cases hcmd

end Sys2Proof.Machine

namespace Sys2Proof.Proofs

open Sys2Proof.Machine

/-- Settles O35: OUT is only ever appended to, and each append is checked against OUT_MAX first. -/
theorem appendOnly : Obligations.AppendOnly := by
  unfold Obligations.AppendOnly
  intro i s t hinflate hreset hfits hexec
  have h := exec_appends hinflate hreset s t hexec
  exact ⟨h.grows, h.fits hfits, h.bytes⟩

end Sys2Proof.Proofs
end

