-- ==== Sys2Proof/Proofs/InputsKept.lean ====
section
/-! PROOF. What an instruction can write at all, and so that it leaves the inputs and the host's registers (O34; 20_memory.md R101, R103,
R124). -/

namespace Sys2Proof.Machine

/-- `t` is `s` but for the registers that a command other than RESET can write: no memory, tree store or `lens` is among them. -/
def CommandWrites (s t : State) : Prop :=
  t = { s with busy := t.busy, err := t.err, ok := t.ok, lastOp := t.lastOp, error := t.error, intDone := t.intDone,
               intErr := t.intErr, outLen := t.outLen, bitpos := t.bitpos, bfinal := t.bfinal, btype := t.btype,
               blkcnt := t.blkcnt, ckResult := t.ckResult, phase := t.phase, litSel := t.litSel, distSel := t.distSel,
               inner := t.inner }

/-- `t` is `s` but for OUT, the registers that the core sets and the internal registers (10_state.md R31, R65; 20_memory.md R101 to
R103). -/
def CoreWrites (s t : State) : Prop :=
  t = { s with outMem := t.outMem, busy := t.busy, err := t.err, ok := t.ok, lastOp := t.lastOp, error := t.error,
               intDone := t.intDone, intErr := t.intErr, outLen := t.outLen, bitpos := t.bitpos, bfinal := t.bfinal,
               btype := t.btype, blkcnt := t.blkcnt, ckResult := t.ckResult, phase := t.phase, litSel := t.litSel,
               distSel := t.distSel, litTree := t.litTree, distTree := t.distTree, clenTree := t.clenTree, lens := t.lens,
               inner := t.inner }

theorem CoreWrites.refl (s : State) : CoreWrites s s := rfl

theorem CoreWrites.trans {s t u : State} (h1 : CoreWrites s t) (h2 : CoreWrites t u) : CoreWrites s u := by
  unfold CoreWrites at *
  rw [h2, h1]

theorem CommandWrites.coreWrites {s t : State} (h : CommandWrites s t) : CoreWrites s t := by
  unfold CommandWrites at h
  rw [h]
  rfl

theorem coreWrites_keptByElements (s₀ : State) : KeptByElements (CoreWrites s₀) where
  moved hmoved h := h.trans (by rw [hmoved]; rfl)
  append _ _ h := h.trans rfl
  complete h := h.trans rfl
  raise _ h := h.trans rfl

theorem checksumCommand_writes (op : Command) (f : List Byte → Word) (s : State) :
    NextSatisfies (CommandWrites s) (checksumCommand op f s) := by
  unfold checksumCommand
  split <;> exact nextSatisfies_next rfl

theorem execInflate_writes (s : State) : NextSatisfies (CommandWrites s) (execInflate s) := by
  unfold execInflate
  dsimp only
  split <;> exact nextSatisfies_next rfl

theorem execIllegalCmd_writes (w : Word) (s : State) : NextSatisfies (CommandWrites s) (execIllegalCmd w s) := by
  unfold execIllegalCmd
  split <;> exact nextSatisfies_next rfl

/-- Every command but RESET writes registers of the core only. -/
theorem exec_command_writes {i : Instr} (hcmd : i.format = .cmd) (hreset : i ≠ .reset) (s : State) :
    NextSatisfies (CommandWrites s) (exec i s) := by
  cases i with
  | nop => exact nextSatisfies_next rfl
  | inflate => exact execInflate_writes s
  | adler32 | crc32 => exact checksumCommand_writes _ _ s
  | reset => exact absurd rfl hreset
  | illegalCmd w => exact execIllegalCmd_writes w s
  | _ => cases hcmd

/-- Every instruction but RESET writes what is the core's to write. -/
theorem exec_coreWrites {i : Instr} (hreset : i ≠ .reset) (s : State) : NextSatisfies (CoreWrites s) (exec i s) := by
  by_cases hcmd : i.format = .cmd
  · exact fun t ht => (exec_command_writes hcmd hreset s t ht).coreWrites
  · exact exec_element_kept (coreWrites_keptByElements s) (.refl s) hcmd

end Sys2Proof.Machine

namespace Sys2Proof.Proofs

open Sys2Proof.Machine

/-- Settles O34: RESET keeps the memories, the sizes and the host's side by its definition; every other instruction writes what is the
core's to write. -/
theorem inputsKept : Obligations.InputsKept := by
  unfold Obligations.InputsKept
  intro i s t hexec
  by_cases hreset : i = .reset
  · subst hreset
    obtain rfl : resetRegisters s = t := Host.Outcome.next.inj hexec
    exact ⟨⟨rfl, rfl, rfl, rfl, rfl, rfl, rfl, rfl⟩, fun h => absurd rfl h⟩
  · rw [show t = _ from exec_coreWrites hreset s t hexec]
    exact ⟨⟨rfl, rfl, rfl, rfl, rfl, rfl, rfl, rfl⟩, fun _ => ⟨rfl, rfl, rfl, rfl, rfl, rfl, rfl, rfl, rfl, rfl, rfl⟩⟩

end Sys2Proof.Proofs
end

