-- ==== Sys2Proof/Proofs/Memories.lean ====
section
/-! PROOF. What the fetch leaves for the step, and so that every step keeps the memories in canonical form (O42; 20_memory.md R100; log
entry 1). -/

namespace Sys2Proof.Machine

/-! ### What a move leaves -/

/-- The state that a move has made, or hands to its instruction, satisfies `P`. -/
inductive Move.Leaves (P : State → Prop) : Move → Prop
  | run {i : Instr} {s : State} (h : P s) : Move.Leaves P (.run i s)
  | made {s : State} (h : P s) : Move.Leaves P (.made s)
  | fault {f : Fault} : Move.Leaves P (.fault f)
  | refused {r : Refusal} : Move.Leaves P (.refused r)

/-- A step keeps what the next move leaves and every instruction keeps. -/
theorem step_kept {P : State → Prop} {s : State} (hmove : (nextMove s).Leaves P)
    (hexec : ∀ i u, P u → NextSatisfies P (exec i u)) : NextSatisfies P (step s) := by
  intro t hstep
  rcases step_eq_next.1 hstep with ⟨i, u, hrun, ht⟩ | hmade
  · rw [hrun] at hmove
    cases hmove with
    | run h => exact hexec i u h t ht
  · rw [hmade] at hmove
    cases hmove with
    | made h => exact h

section
variable {P : State → Prop} (hP : KeptByElements P)
include hP

theorem decoded_leaves (f : Format) {r : Res Nat} (hr : r.Leaves P) : (decoded f r).Leaves P := by
  unfold decoded
  cases hr with
  | val h =>
    dsimp only
    split
    · exact .run h
    · exact .fault
  | err h => exact .made (hP.raise _ h)
  | stop => exact .fault

theorem part_leaves {r : Res Unit} (hr : r.Leaves P) : (part r).Leaves P := by
  cases hr with
  | val h => exact .made h
  | err h => exact .made (hP.raise _ h)
  | stop => exact .fault

variable {s : State} (h : P s)
include h

theorem headerBits_leaves : (headerBits s).Leaves P :=
  (readBits_leaves hP h 1).bind fun _ _ h => (readBits_leaves hP h 2).bind fun _ _ h => .val h

theorem inflateMove_leaves : (inflateMove s).Leaves P := by
  unfold inflateMove
  split
  · exact .run h
  · exact .run h
  · exact .run h
  · exact decoded_leaves hP _ (headerBits_leaves hP h)
  · exact decoded_leaves hP _ (.val h)
  · exact decoded_leaves hP _ (.val h)
  · exact decoded_leaves hP _ (symbolBelow_leaves hP h _ _)
  · exact decoded_leaves hP _ (symbolBelow_leaves hP h _ _)

/-- The core's move leaves what each write of an element keeps. -/
theorem coreMove_leaves : (coreMove s).Leaves P := by
  unfold coreMove
  split
  · split
    · exact decoded_leaves hP _ (symbolBelow_leaves hP h _ _)
    · exact part_leaves hP (dynTrees_leaves hP h)
  · exact decoded_leaves hP _ (symbolBelow_leaves hP h _ _)
  · split
    · exact inflateMove_leaves hP h
    · exact .run h
    · exact .run h
    · exact .fault

end

/-! ### The canonical form -/

theorem memoriesOk_keptByElements : KeptByElements State.memoriesOk where
  moved hmoved h := by rw [hmoved]; exact h
  append _ _ := fun ⟨hin, hout, hdict⟩ => ⟨hin, outAppend_wf _ hout, hdict⟩
  complete h := h
  raise _ h := h

theorem exec_memoriesOk (i : Instr) (s : State) (h : s.memoriesOk) : NextSatisfies State.memoriesOk (exec i s) := by
  by_cases hcmd : i.format = .cmd
  case neg => exact exec_element_kept memoriesOk_keptByElements h hcmd
  by_cases hreset : i = .reset
  · subst hreset
    exact nextSatisfies_next (t := resetRegisters s) h
  · intro t ht
    rw [show t = _ from exec_command_writes hcmd hreset s t ht]
    exact h

section
variable {s : State} (h : s.memoriesOk)
include h

theorem regWrite_memoriesOk (off : Nat) (v : Word) : (regWrite off v s).memoriesOk := by
  rw [regWrite_frame]
  exact h

theorem issue_memoriesOk (w : Word) : (issue w s).Leaves State.memoriesOk := by
  unfold issue
  dsimp only
  split_ifs
  · exact .run h
  · exact .made h
  · exact .made h
  · exact .made h
  · exact .made h
  · exact .run h

theorem memWrite_memoriesOk (a : Word) (n : Width) (v : Word) : (memWrite a n v s).Leaves State.memoriesOk := by
  unfold memWrite
  split_ifs
  · exact issue_memoriesOk h v
  · exact .made (regWrite_memoriesOk h _ v)
  · exact .made h
  · exact .refused
  · exact .made (busPuts_wf _ _ _ h)

theorem coreTurn_memoriesOk : (coreTurn s).Leaves State.memoriesOk := by
  unfold coreTurn
  split
  · exact coreMove_leaves (s := tick s) memoriesOk_keptByElements h
  · exact .made h

theorem nextMove_memoriesOk : (nextMove s).Leaves State.memoriesOk := by
  unfold nextMove
  split
  · exact coreMove_leaves (s := tick s) memoriesOk_keptByElements h
  · split
    · exact coreTurn_memoriesOk h
    · exact coreTurn_memoriesOk (s := { s with host := _ }) h
    · split
      · exact coreTurn_memoriesOk h
      · exact .made h
    · exact .made h
    · exact memWrite_memoriesOk (s := tick { s with host := _ }) h _ _ _
    · exact .made (resetWith_memories_wf s.inMax s.outMax)

end

end Sys2Proof.Machine

namespace Sys2Proof.Proofs

open Sys2Proof.Machine

/-- Settles O42: the next move, the core's or the host's, leaves the memories canonical, and so does the instruction it runs. -/
theorem memoriesStep : Obligations.MemoriesStep := by
  unfold Obligations.MemoriesStep
  exact fun s t h => step_kept (nextMove_memoriesOk h) exec_memoriesOk t

end Sys2Proof.Proofs
end

