-- ==== Sys2Proof/Proofs/Bus.lean ====
section
/-! PROOF. The host bus outside the registers: the address map, a read and a write byte by byte, and the host's accesses as steps (O56, O57;
20_memory.md R102, R105 to R107, R114). -/

namespace Sys2Proof.Machine

/-! ### The address map -/

theorem regionOf_eq_dict {s : State} {a i : Nat} :
    regionOf s a = .byteOf .dict i ↔ a = 0x00010000 + i ∧ i < 32768 := by
  unfold regionOf Config.dictMax
  split_ifs <;> simp <;> omega

theorem regionOf_eq_inp {s : State} {a i : Nat} :
    regionOf s a = .byteOf .inp i ↔ a = 0x01000000 + i ∧ i < s.inMax.toNat := by
  unfold regionOf Config.dictMax
  split_ifs <;> simp <;> omega

/-- OUT's window lies where the map says, since IN's ends below it (00_scope.md R6). -/
theorem regionOf_out {s : State} {i : Nat} (hsize : s.inMax.toNat ≤ 2 ^ 24) (hi : i < s.outMax.toNat) :
    regionOf s (0x02000000 + i) = .byteOf .out i := by
  unfold regionOf Config.dictMax
  simp (disch := omega) only [if_neg, if_pos, Nat.add_sub_cancel_left]

theorem regionOf_unmapped {s : State} {a : Nat} (hsize : s.inMax.toNat ≤ 2 ^ 24) (hreg : 0x100 ≤ a)
    (h : a < 0x00010000 ∨ 0x00018000 ≤ a ∧ a < 0x01000000 ∨ 0x01000000 + s.inMax.toNat ≤ a ∧ a < 0x02000000 ∨
      0x02000000 + s.outMax.toNat ≤ a) : regionOf s a = .unmapped := by
  unfold regionOf Config.dictMax
  simp (disch := omega) only [if_neg]

/-- No two addresses name the same byte of IN or DICT. -/
theorem regionOf_inj {s : State} {a b i : Nat} {sp : Space} (hsp : sp ≠ .out) (ha : regionOf s a = .byteOf sp i)
    (hb : regionOf s b = .byteOf sp i) : a = b := by
  cases sp with
  | inp => rw [(regionOf_eq_inp.1 ha).1, (regionOf_eq_inp.1 hb).1]
  | dict => rw [(regionOf_eq_dict.1 ha).1, (regionOf_eq_dict.1 hb).1]
  | out => exact absurd rfl hsp

/-! ### A read, byte by byte -/

theorem busByte_of_inp {s : State} {a i : Nat} (h : regionOf s a = .byteOf .inp i) : busByte s a = byteAt s .inp i := by
  simp only [busByte, h]

theorem busByte_of_dict {s : State} {a i : Nat} (h : regionOf s a = .byteOf .dict i) : busByte s a = byteAt s .dict i := by
  simp only [busByte, h]

theorem busByte_of_out {s : State} {a i : Nat} (h : regionOf s a = .byteOf .out i) (hi : i < s.outLen.toNat) :
    busByte s a = byteAt s .out i := by
  simp only [busByte, h, if_pos hi]

theorem busByte_of_unmapped {s : State} {a : Nat} (h : regionOf s a = .unmapped) : busByte s a = 0#8 := by
  simp only [busByte, h]

theorem busBytes_lt (s : State) (a n : Nat) : busBytes s a n < 256 ^ n := by
  induction n generalizing a with
  | zero => simp [busBytes]
  | succ n ih =>
    have hbyte := (busByte s a).isLt
    have hrest := ih (a + 1)
    simp only [busBytes, Nat.pow_succ]
    omega

/-- Byte `k` of the little-endian sum is the byte at `a + k` (20_memory.md R106). -/
theorem ofNat_busBytes_div (s : State) {a n k : Nat} (hk : k < n) :
    BitVec.ofNat 8 (busBytes s a n / 256 ^ k) = busByte s (a + k) := by
  induction n generalizing a k with
  | zero => omega
  | succ n ih =>
    have hbyte := (busByte s a).isLt
    cases k with
    | zero =>
      apply BitVec.eq_of_toNat_eq
      simp only [busBytes, BitVec.toNat_ofNat, Nat.pow_zero, Nat.div_one, Nat.add_zero]
      omega
    | succ k =>
      have hrest : busBytes s a (n + 1) / 256 = busBytes s (a + 1) n := by
        simp only [busBytes]
        omega
      rw [Nat.pow_succ', ← Nat.div_div_eq_div_mul, hrest, ih (by omega)]
      congr 1
      omega

/-- Bytes that are those of `v`, least significant first, sum to `v`'s low bytes. -/
theorem busBytes_eq_mod {s : State} {a n v : Nat} (h : ∀ k, k < n → busByte s (a + k) = BitVec.ofNat 8 (v / 256 ^ k)) :
    busBytes s a n = v % 256 ^ n := by
  induction n generalizing a v with
  | zero => simp [busBytes, Nat.mod_one]
  | succ n ih =>
    have hlow : busByte s a = BitVec.ofNat 8 v := by simpa using h 0 (by omega)
    have hrest : busBytes s (a + 1) n = v / 256 % 256 ^ n := by
      refine ih fun k hk => ?_
      rw [Nat.div_div_eq_div_mul, ← Nat.pow_succ', ← h (k + 1) (by omega)]
      congr 1
      omega
    rw [busBytes, hlow, hrest, Nat.pow_succ', Nat.mod_mul, BitVec.toNat_ofNat]

/-- A byte lane of a word, as a quotient. -/
theorem extractLsb'_byte (v : Word) (k : Nat) : v.extractLsb' (8 * k) 8 = BitVec.ofNat 8 (v.toNat / 256 ^ k) := by
  apply BitVec.eq_of_toNat_eq
  rw [BitVec.extractLsb'_toNat, BitVec.toNat_ofNat, Nat.shiftRight_eq_div_pow, Nat.pow_mul]

/-- A width's bytes are its bits. -/
theorem Width.pow_bytes (n : Width) : 256 ^ n.bytes = 2 ^ (8 * n.bytes) := by
  rw [Nat.pow_mul]

theorem Width.pow_bytes_le (n : Width) : 256 ^ n.bytes ≤ 2 ^ 32 := by
  cases n <;> decide

section
variable {a : Word} (ha : 0x100 ≤ a.toNat)
include ha

theorem memRead_eq (s : State) (n : Width) : memRead s a n = BitVec.ofNat 32 (busBytes s a.toNat n.bytes) :=
  if_neg (by omega)

theorem memRead_toNat (s : State) (n : Width) : (memRead s a n).toNat = busBytes s a.toNat n.bytes := by
  rw [memRead_eq ha, BitVec.toNat_ofNat]
  exact Nat.mod_eq_of_lt ((busBytes_lt s a.toNat n.bytes).trans_le n.pow_bytes_le)

theorem memRead_lt (s : State) (n : Width) : (memRead s a n).toNat < 2 ^ (8 * n.bytes) := by
  rw [memRead_toNat ha, ← n.pow_bytes]
  exact busBytes_lt s a.toNat n.bytes

theorem memRead_byte (s : State) {n : Width} {k : Nat} (hk : k < n.bytes) :
    (memRead s a n).extractLsb' (8 * k) 8 = busByte s (a.toNat + k) := by
  rw [extractLsb'_byte, memRead_toNat ha, ofNat_busBytes_div s hk]

end

/-! ### A write, byte by byte -/

/-- A byte of a host write goes to the byte of IN or DICT at its address. -/
theorem byteAt_busPut_same {s : State} {a i : Nat} {sp : Space} (b : Byte) (hsp : sp ≠ .out)
    (h : regionOf s a = .byteOf sp i) : byteAt (busPut a b s) sp i = b := by
  cases sp with
  | inp => simp [busPut, h, byteAt, State.mem]
  | dict => simp [busPut, h, byteAt, State.mem]
  | out => exact absurd rfl hsp

/-- A byte of a host write leaves every other byte, and OUT always (20_memory.md R102). -/
theorem byteAt_busPut_other {s : State} {a i : Nat} {sp : Space} (b : Byte)
    (h : sp = .out ∨ regionOf s a ≠ .byteOf sp i) : byteAt (busPut a b s) sp i = byteAt s sp i := by
  unfold busPut
  split
  · rename_i j hj
    cases sp with
    | inp =>
      have hij : i ≠ j := by rintro rfl; simp [hj] at h
      simp [byteAt, State.mem, Memory.read_write_other _ _ hij]
    | out | dict => rfl
  · rename_i j hj
    cases sp with
    | dict =>
      have hij : i ≠ j := by rintro rfl; simp [hj] at h
      simp [byteAt, State.mem, Memory.read_write_other _ _ hij]
    | out | inp => rfl
  · rfl
  · rfl
  · rfl

/-- A byte that meets neither IN nor DICT is ignored (20_memory.md R102, R105). -/
theorem busPut_ignored {s : State} {a : Nat} (b : Byte)
    (h : ∀ i, regionOf s a ≠ .byteOf .inp i ∧ regionOf s a ≠ .byteOf .dict i) : busPut a b s = s := by
  unfold busPut
  split
  · rename_i i hi
    exact absurd hi (h i).1
  · rename_i i hi
    exact absurd hi (h i).2
  · rfl
  · rfl
  · rfl

theorem busPut_frame (a : Nat) (b : Byte) (s : State) :
    busPut a b s = { s with inMem := (busPut a b s).inMem, dictMem := (busPut a b s).dictMem } := by
  unfold busPut
  split <;> rfl

/-- A host write changes IN and DICT only. -/
theorem busPuts_frame (a n v : Nat) (s : State) :
    busPuts a n v s = { s with inMem := (busPuts a n v s).inMem, dictMem := (busPuts a n v s).dictMem } := by
  induction n generalizing a v s with
  | zero => rfl
  | succ n ih =>
    rw [busPuts, ih, busPut_frame]

@[simp] theorem regionOf_busPut (a : Nat) (b : Byte) (s : State) : regionOf (busPut a b s) = regionOf s := by
  rw [busPut_frame]
  rfl

@[simp] theorem regionOf_busPuts (a n v : Nat) (s : State) : regionOf (busPuts a n v s) = regionOf s := by
  rw [busPuts_frame]
  rfl

theorem byteAt_busPuts_other {s : State} {a n v i : Nat} {sp : Space}
    (h : sp = .out ∨ ∀ k, k < n → regionOf s (a + k) ≠ .byteOf sp i) :
    byteAt (busPuts a n v s) sp i = byteAt s sp i := by
  induction n generalizing a v s with
  | zero => rfl
  | succ n ih =>
    have hfirst : sp = .out ∨ regionOf s a ≠ .byteOf sp i := h.imp_right fun h => h 0 (by omega)
    rw [busPuts, ih (h.imp_right fun h k hk => ?_), byteAt_busPut_other _ hfirst]
    rw [regionOf_busPut, show a + 1 + k = a + (k + 1) by omega]
    exact h (k + 1) (by omega)

/-- Byte `k` of a host write is stored in the byte of IN or DICT at `a + k` (20_memory.md R105, R106). -/
theorem byteAt_busPuts_same {s : State} {a n v k i : Nat} {sp : Space} (hsp : sp ≠ .out) (hk : k < n)
    (h : regionOf s (a + k) = .byteOf sp i) : byteAt (busPuts a n v s) sp i = BitVec.ofNat 8 (v / 256 ^ k) := by
  induction n generalizing a v s k with
  | zero => omega
  | succ n ih =>
    rw [busPuts]
    cases k with
    | zero =>
      have hlater : ∀ j, j < n → regionOf (busPut a (BitVec.ofNat 8 v) s) (a + 1 + j) ≠ .byteOf sp i := by
        intro j _ hj
        rw [regionOf_busPut] at hj
        have hsame : a + 0 = a + 1 + j := regionOf_inj hsp h hj
        omega
      rw [byteAt_busPuts_other (.inr hlater), byteAt_busPut_same (a := a) _ hsp h, Nat.pow_zero, Nat.div_one]
    | succ k =>
      rw [ih (k := k) (by omega), Nat.div_div_eq_div_mul, ← Nat.pow_succ']
      rwa [regionOf_busPut, show a + 1 + k = a + (k + 1) by omega]

theorem busPuts_ignored {s : State} {a n : Nat} (v : Nat)
    (h : ∀ k i, k < n → regionOf s (a + k) ≠ .byteOf .inp i ∧ regionOf s (a + k) ≠ .byteOf .dict i) : busPuts a n v s = s := by
  induction n generalizing a v with
  | zero => rfl
  | succ n ih =>
    rw [busPuts, busPut_ignored (a := a) _ fun i => h 0 i (by omega)]
    refine ih _ fun k i hk => ?_
    rw [show a + 1 + k = a + (k + 1) by omega]
    exact h (k + 1) i (by omega)

/-- A write within one memory reads back as the value's low bytes. -/
theorem memRead_busPuts {s : State} {a v : Word} {n : Width} {i : Nat} {sp : Space} (ha : 0x100 ≤ a.toNat) (hsp : sp ≠ .out)
    (h : ∀ k, k < n.bytes → regionOf s (a.toNat + k) = .byteOf sp (i + k)) :
    memRead (busPuts a.toNat n.bytes v.toNat s) a n = BitVec.ofNat 32 (v.toNat % 2 ^ (8 * n.bytes)) := by
  rw [memRead_eq ha, ← n.pow_bytes, busBytes_eq_mod fun k hk => ?_]
  have hr : regionOf (busPuts a.toNat n.bytes v.toNat s) (a.toNat + k) = .byteOf sp (i + k) := by
    rw [regionOf_busPuts, h k hk]
  rw [← byteAt_busPuts_same hsp hk (h k hk)]
  cases sp with
  | inp => exact busByte_of_inp hr
  | dict => exact busByte_of_dict hr
  | out => exact absurd rfl hsp

/-! ### The host's accesses as steps -/

/-- The host's read, as a step: it changes its queue and its list of values (20_memory.md R114). -/
theorem step_hostRead {s : State} {a : Word} {n : Width} {rest : List HostAct} (hidle : s.busy = true → s.inner = .none)
    (hhost : s.host = .read a n :: rest) :
    step s = .next { s with host := rest, hostGot := s.hostGot ++ [memRead s a n] } := by
  have hbetween : ¬(s.busy = true ∧ s.inner ≠ .none) := fun ⟨hb, hi⟩ => hi (hidle hb)
  simp only [step, nextMove, if_neg hbetween, hhost]

/-- The host's write between two elements, as the next move. -/
theorem nextMove_hostWrite {s : State} {a v : Word} {n : Width} {rest : List HostAct} (hidle : s.busy = true → s.inner = .none)
    (hhost : s.host = .write a n v :: rest) : nextMove s = memWrite a n v (tick { s with host := rest }) := by
  have hbetween : ¬(s.busy = true ∧ s.inner ≠ .none) := fun ⟨hb, hi⟩ => hi (hidle hb)
  simp only [nextMove, if_neg hbetween, hhost]

/-- A write in the register region that is not an aligned 32-bit one is ignored (20_memory.md R107). -/
theorem step_partialRegisterWrite {s : State} {a v : Word} {n : Width} {rest : List HostAct}
    (hidle : s.busy = true → s.inner = .none) (hhost : s.host = .write a n v :: rest) (ha : a.toNat < 0x100)
    (hpart : ¬(n = .b4 ∧ a.toNat % 4 = 0)) : step s = .next { s with host := rest, draw := s.draw + 1 } := by
  simp only [step, nextMove_hostWrite hidle hhost, memWrite, if_pos ha, if_neg hpart, tick]

/-- A write outside the registers while idle. -/
theorem step_memoryWrite {s : State} {a v : Word} {n : Width} {rest : List HostAct} (hbusy : s.busy = false)
    (hhost : s.host = .write a n v :: rest) (ha : 0x100 ≤ a.toNat) :
    step s = .next (busPuts a.toNat n.bytes v.toNat (tick { s with host := rest })) := by
  have hmove := nextMove_hostWrite (fun hb => absurd (hbusy.symm.trans hb) (by decide)) hhost
  simp [step, hmove, memWrite, Nat.not_lt.2 ha, hbusy]

end Sys2Proof.Machine

namespace Sys2Proof.Proofs

open Sys2Proof.Machine

/-- Settles O56: the step is `busPuts` on the state with the access taken from the queue, and each byte goes by the address map. -/
theorem busMemory : Obligations.BusMemory := by
  unfold Obligations.BusMemory
  intro s a v n rest hhost hbusy
  let u := tick { s with host := rest }
  let t := busPuts a.toNat n.bytes v.toNat u
  have hframe : t = { u with inMem := t.inMem, dictMem := t.dictMem } := busPuts_frame _ _ _ _
  refine ⟨fun sp i hin => ?_, fun _ ha => ?_⟩
  · have ha : 0x100 ≤ a.toNat := by omega
    have hsp : sp ≠ .out := by rcases hin with ⟨rfl, -⟩ | ⟨rfl, -⟩ <;> decide
    have hr : ∀ k, k < n.bytes → regionOf u (a.toNat + k) = .byteOf sp (i + k) := by
      intro k hk
      rcases hin with ⟨rfl, haddr, hfit⟩ | ⟨rfl, haddr, hfit⟩
      · exact regionOf_eq_inp.2 ⟨by omega, show i + k < s.inMax.toNat by omega⟩
      · exact regionOf_eq_dict.2 ⟨by omega, by omega⟩
    refine ⟨t, step_memoryWrite hbusy hhost ha, fun k hk => ?_, fun sp' j hother => ?_, memRead_busPuts ha hsp hr, hframe⟩
    · rw [extractLsb'_byte]
      exact byteAt_busPuts_same hsp hk (hr k hk)
    · refine byteAt_busPuts_other (s := u) (.inr fun k hk h => ?_)
      obtain ⟨rfl, rfl⟩ := Region.byteOf.inj ((hr k hk).symm.trans h)
      have hout := hother.resolve_left (not_not_intro rfl)
      omega
  · dsimp only
    refine ⟨t, step_memoryWrite hbusy hhost ha, fun k i hk h => ?_, fun k i hk h => ?_, fun i h => ?_, fun i h => ?_, hframe,
      fun h => ?_⟩
    · rw [extractLsb'_byte]
      exact byteAt_busPuts_same (by decide) hk (regionOf_eq_inp.2 h)
    · rw [extractLsb'_byte]
      exact byteAt_busPuts_same (by decide) hk (regionOf_eq_dict.2 h)
    · exact byteAt_busPuts_other (s := u) (.inr fun k hk => mt regionOf_eq_inp.1 (h k hk))
    · exact byteAt_busPuts_other (s := u) (.inr fun k hk => mt regionOf_eq_dict.1 (h k hk))
    · exact busPuts_ignored (s := u) _ fun k i hk => (h k i hk).imp (mt regionOf_eq_inp.1) (mt regionOf_eq_dict.1)

/-- Settles O57: the step is the read's own, and each byte of the value is the one that the address map names. -/
theorem busAccess : Obligations.BusAccess := by
  unfold Obligations.BusAccess
  intro s a v n rest hidle
  refine ⟨step_hostRead hidle, fun ha hn halign => ?_, fun ha hpart => ⟨?_, fun hhost => ?_⟩,
    fun hsize ha => ⟨memRead_lt ha s n, ?_⟩⟩
  · rw [memRead, if_pos ha, if_pos ⟨hn, halign⟩]
  · rw [memRead, if_pos ha, if_neg hpart]
  · exact step_partialRegisterWrite hidle hhost ha hpart
  · intro k hk
    dsimp only
    rw [memRead_byte ha s hk]
    refine ⟨fun i hp hi => ?_, fun i hp hi => ?_, fun i hp hi hout => ?_, fun hp => ?_⟩
    · exact busByte_of_inp (regionOf_eq_inp.2 ⟨hp, hi⟩)
    · exact busByte_of_dict (regionOf_eq_dict.2 ⟨hp, hi⟩)
    · exact busByte_of_out (hp ▸ regionOf_out hsize hi) hout
    · exact busByte_of_unmapped (regionOf_unmapped hsize (by omega) hp)

end Sys2Proof.Proofs
end

