-- ==== Sys2Proof/Proofs/Encoding.lean ====
section
/-! PROOF. Decoder and encoder are inverse, format by format (O1, O2; 30_encoding.md R152 to R164), what a command word is (O3; R163),
samples (O4), and the shared parts that the inner symbols run (O25). -/

namespace Sys2Proof

/-! ### Opcodes -/

/-- `i` is an instruction of format `f`, and `w` is its opcode there. -/
abbrev Instr.HasOpcode (i : Instr) (f : Format) (w : Nat) : Prop := i.format = f ∧ encode i = w ∧ i.wellFormed = true

/-- Each place of the list holds the instruction of its symbol (30_encoding.md R160). -/
theorem lengthInstrs_hasOpcode (k : Fin lengthInstrs.length) : lengthInstrs[k].HasOpcode .llsym (257 + k) := by
  decide +revert

/-- Each place of the list holds the instruction of its symbol (30_encoding.md R161). -/
theorem distanceInstrs_hasOpcode (k : Fin distanceInstrs.length) : distanceInstrs[k].HasOpcode .dsym k := by
  decide +revert

/-! ### What each format decodes to -/

theorem hasOpcode_of_decodeHdr {h : Nat} {i : Instr} (hd : decodeHdr h = .ok i) : i.HasOpcode .hdr h := by
  have encoded {t : Nat} (ht : h / 2 = t) : (BitVec.ofNat 1 h).toNat + 2 * t = h := by
    rw [BitVec.toNat_ofNat]
    omega
  unfold decodeHdr at hd
  split_ifs at hd with hover h0 h1 h2
  all_goals obtain rfl := Except.ok.inj hd
  · exact ⟨rfl, encoded h0, rfl⟩
  · exact ⟨rfl, encoded h1, rfl⟩
  · exact ⟨rfl, encoded h2, rfl⟩
  · exact ⟨rfl, encoded (t := 3) (by omega), rfl⟩

theorem hasOpcode_of_decodeClsym {sym : Nat} {i : Instr} (hd : decodeClsym sym = .ok i) : i.HasOpcode .clsym sym := by
  unfold decodeClsym at hd
  split_ifs at hd with hlen h16 h17 h18
  all_goals obtain rfl := Except.ok.inj hd
  · exact ⟨rfl, Nat.mod_eq_of_lt (by omega), rfl⟩
  · exact ⟨rfl, h16.symm, rfl⟩
  · exact ⟨rfl, h17.symm, rfl⟩
  · exact ⟨rfl, h18.symm, rfl⟩

theorem hasOpcode_of_decodeLlsym {sym : Nat} {i : Instr} (hd : decodeLlsym sym = .ok i) : i.HasOpcode .llsym sym := by
  unfold decodeLlsym at hd
  split_ifs at hd with hlit h256
  · obtain rfl := Except.ok.inj hd
    exact ⟨rfl, Nat.mod_eq_of_lt (by omega), rfl⟩
  · obtain rfl := Except.ok.inj hd
    exact ⟨rfl, h256.symm, rfl⟩
  · split at hd
    · rename_i hget
      obtain rfl := Except.ok.inj hd
      obtain ⟨hk, rfl⟩ := List.getElem?_eq_some_iff.1 hget
      have hop := lengthInstrs_hasOpcode ⟨sym - 257, hk⟩
      rwa [show 257 + (sym - 257) = sym by omega] at hop
    · cases hd

theorem hasOpcode_of_decodeDsym {sym : Nat} {i : Instr} (hd : decodeDsym sym = .ok i) : i.HasOpcode .dsym sym := by
  unfold decodeDsym at hd
  split at hd
  · rename_i hget
    obtain rfl := Except.ok.inj hd
    obtain ⟨hk, rfl⟩ := List.getElem?_eq_some_iff.1 hget
    exact distanceInstrs_hasOpcode ⟨sym, hk⟩
  · cases hd

theorem decodeCmd_hasOpcode (w : Word) : (decodeCmd w).HasOpcode .cmd w.toNat := by
  unfold decodeCmd
  split_ifs with h0 h1 h2 h3 hff
  · exact ⟨rfl, by rw [h0]; rfl, rfl⟩
  · exact ⟨rfl, by rw [h1]; rfl, rfl⟩
  · exact ⟨rfl, by rw [h2]; rfl, rfl⟩
  · exact ⟨rfl, by rw [h3]; rfl, rfl⟩
  · exact ⟨rfl, by rw [hff]; rfl, rfl⟩
  · exact ⟨rfl, rfl, by simp [Instr.wellFormed, commandWords, h0, h1, h2, h3, hff]⟩

/-- What a number decodes to in a format has that number as its opcode there. -/
theorem hasOpcode_of_decode {f : Format} {w : Nat} {i : Instr} (hd : decode f w = .ok i) : i.HasOpcode f w := by
  cases f with
  | hdr => exact hasOpcode_of_decodeHdr hd
  | clsym => exact hasOpcode_of_decodeClsym hd
  | llsym => exact hasOpcode_of_decodeLlsym hd
  | dsym => exact hasOpcode_of_decodeDsym hd
  | stored | dynhdr =>
    simp only [decode] at hd
    split_ifs at hd with h0
    obtain rfl := Except.ok.inj hd
    exact ⟨rfl, h0.symm, rfl⟩
  | cmd =>
    simp only [decode] at hd
    split_ifs at hd with hw
    obtain rfl := Except.ok.inj hd
    have hop := decodeCmd_hasOpcode (BitVec.ofNat 32 w)
    rwa [BitVec.toNat_ofNat, Nat.mod_eq_of_lt hw] at hop

/-! ### What an operand's bits decode to -/

theorem decode_toNat_clLen (v : BitVec 4) : decode .clsym v.toNat = .ok (.clLen v) := by
  simp only [decode, decodeClsym, Nat.le_of_lt_succ v.isLt, if_true, BitVec.ofNat_toNat, BitVec.setWidth_eq]

theorem decode_toNat_lit (b : Byte) : decode .llsym b.toNat = .ok (.lit b) := by
  simp only [decode, decodeLlsym, Nat.le_of_lt_succ b.isLt, if_true, BitVec.ofNat_toNat, BitVec.setWidth_eq]

theorem decode_toNat_cmd (w : Word) : decode .cmd w.toNat = .ok (decodeCmd w) := by
  simp only [decode, w.isLt, if_true, BitVec.ofNat_toNat, BitVec.setWidth_eq]

theorem decodeCmd_of_illegal {w : Word} (hw : (Instr.illegalCmd w).wellFormed = true) : decodeCmd w = .illegalCmd w := by
  have hnone : w ∉ commandWords := by simpa [Instr.wellFormed] using hw
  simp only [commandWords, List.mem_cons, not_or] at hnone
  obtain ⟨h0, h1, h2, h3, hff, -⟩ := hnone
  rw [decodeCmd, if_neg h0, if_neg h1, if_neg h2, if_neg h3, if_neg hff]

/-- A word is its upper 24 bits and its low byte. -/
theorem word_eq_iff {w c : Word} : w = c ↔ w.extractLsb' 8 24 = c.extractLsb' 8 24 ∧ w.extractLsb' 0 8 = c.extractLsb' 0 8 := by
  have := w.isLt
  have := c.isLt
  simp only [← BitVec.toNat_inj, BitVec.extractLsb'_toNat, Nat.shiftRight_eq_div_pow]
  omega

end Sys2Proof

namespace Sys2Proof.Machine

/-! ### What the symbols inside an element run -/

theorem exec_clsym {i : Instr} (hi : i.format = .clsym) (s : State) : exec i s = finish (lengthSymbol (encode i) s) := by
  cases i with
  | clLen v =>
    have hv : encode (.clLen v) ≤ 15 := Nat.le_of_lt_succ v.isLt
    rw [lengthSymbol, if_pos hv, encode, BitVec.ofNat_toNat, BitVec.setWidth_eq]
    rfl
  | clCopyPrev | clZeroShort | clZeroLong => rfl
  | _ => cases hi

theorem exec_dsym {i : Instr} (hi : i.format = .dsym) (s : State) : exec i s = finish (distanceSymbol (encode i) s) := by
  cases i with
  | dist0 | dist1 | dist2 | dist3 | dist4 | dist5 | dist6 | dist7 | dist8 | dist9 | dist10 | dist11 | dist12 | dist13 | dist14
  | dist15 | dist16 | dist17 | dist18 | dist19 | dist20 | dist21 | dist22 | dist23 | dist24 | dist25 | dist26 | dist27 | dist28
  | dist29 | illegalDist30 | illegalDist31 => rfl
  | _ => cases hi

end Sys2Proof.Machine

namespace Sys2Proof.Proofs

open Sys2Proof.Machine

/-- Settles O1, along the instructions: an operand's bits decode to the operand, and an opcode without operands is decoded as it
stands. -/
theorem decodeEncode : Obligations.DecodeEncode := by
  unfold Obligations.DecodeEncode
  intro i hwf
  cases i with
  | blockStored f | blockFixed f | blockDynamic f | blockReserved f => decide +revert
  | clLen v => exact decode_toNat_clLen v
  | lit b => exact decode_toNat_lit b
  | illegalCmd w => exact (decode_toNat_cmd w).trans (congrArg _ (decodeCmd_of_illegal hwf))
  | _ => rfl

/-- Settles O2: each format's decoder gives an instruction whose opcode is the number it was given. -/
theorem encodeDecode : Obligations.EncodeDecode := by
  unfold Obligations.EncodeDecode
  exact fun _ _ _ => hasOpcode_of_decode

/-- Settles O3: the five words that name a command have no upper bits, so a word is one of them just when its upper bits are 0 and its
low byte is that word's. -/
theorem commandWords : Obligations.CommandWords := by
  unfold Obligations.CommandWords
  intro w
  rw [decode_toNat_cmd, decodeCmd]
  by_cases hupper : w.extractLsb' 8 24 = 0#24
  · simp [word_eq_iff (w := w), hupper]
  · simp [word_eq_iff (w := w), hupper]

/-- Settles O4: each word is the encoding of its instruction. -/
theorem sampleWords : Obligations.SampleWords := by
  unfold Obligations.SampleWords
  decide

/-- Settles O25: what decodes from a symbol has that symbol as its opcode, and its meaning is the shared part at its opcode. -/
theorem partsAreShared : Obligations.PartsAreShared := by
  unfold Obligations.PartsAreShared
  refine fun s sym i => ⟨fun hd => ?_, fun hd => ?_⟩
  · obtain ⟨hformat, rfl, -⟩ := hasOpcode_of_decode hd
    exact exec_clsym hformat s
  · obtain ⟨hformat, rfl, -⟩ := hasOpcode_of_decode hd
    exact exec_dsym hformat s

end Sys2Proof.Proofs
end

