-- ==== Sys2Proof/Proofs/FixedCodes.lean ====
section
/-! PROOF. A run of equal lengths has consecutive canonical codes (41_huffman.md R253), and so the rows of the two fixed trees (O8;
30_encoding.md R170; 41_huffman.md R270, R271). -/

namespace Sys2Proof.Machine

/-! ### Lengths that come in runs -/

theorem countOf_append (A B : List Nat) (len : Nat) : countOf (A ++ B) len = countOf A len + countOf B len :=
  List.countP_append

theorem countOf_replicate (n l len : Nat) : countOf (List.replicate n l) len = if l = len then n else 0 := by
  simp [countOf, List.countP_replicate]

/-- In a run of equal lengths the codes rise by 1 per symbol: symbol `k` of the run has the code `first + k`. -/
theorem symbolBits_run {L A B : List Nat} {n l at0 first k : Nat} (hL : L = A ++ List.replicate n l ++ B) (hat0 : A.length = at0)
    (hfirst : firstCode L l + countOf A l = first) (hk : k < n) : symbolBits L (at0 + k) = codeBits l (first + k) := by
  subst hat0
  have hrun : A.length + k < (A ++ List.replicate n l).length := by
    rw [List.length_append, List.length_replicate]
    omega
  have hlen : L.getD (A.length + k) 0 = l := by
    rw [hL, List.getD_append _ _ _ _ hrun, List.getD_append_right _ _ _ _ (Nat.le_add_right ..), Nat.add_sub_cancel_left,
      List.getD_replicate _ hk]
  have hsmaller : countOf (L.take (A.length + k)) l = countOf A l + k := by
    rw [hL, List.take_append_of_le_length hrun.le, List.take_length_add_append, countOf_append, List.take_replicate,
      countOf_replicate, if_pos rfl, Nat.min_eq_left hk.le]
  rw [symbolBits, canonicalCode, hlen, hsmaller, ← Nat.add_assoc, hfirst]

/-- The run that begins with symbol 0. -/
theorem symbolBits_firstRun {L B : List Nat} {n l first k : Nat} (hL : L = List.replicate n l ++ B) (hfirst : firstCode L l = first)
    (hk : k < n) : symbolBits L k = codeBits l (first + k) := by
  simpa only [Nat.zero_add] using symbolBits_run (A := []) (at0 := 0) hL rfl hfirst hk

/-- Where the capacity loop of 41_huffman.md R250 ends with `left`, the build does not fail, so no default is taken. -/
theorem buildCanonicalTree_of_leftLoop {L : List Nat} {left used : Nat} (hleft : leftLoop (countsOf L) 1 = some left)
    (hused : L.length - countOf L 0 = used) (d : HTree) :
    buildCanonicalTree L = some ((buildCanonicalTree L).getD d) ∧ ((buildCanonicalTree L).getD d).left = left ∧
    ((buildCanonicalTree L).getD d).used = used := by
  simp [buildCanonicalTree, hleft, hused]

/-! ### FIXED_LIT -/

theorem length_fixedLitLengths : fixedLitLengths.length = 288 := by
  simp only [fixedLitLengths, List.length_append, List.length_replicate]

theorem countOf_fixedLitLengths (len : Nat) :
    countOf fixedLitLengths len = if len = 7 then 24 else if len = 8 then 152 else if len = 9 then 112 else 0 := by
  simp only [fixedLitLengths, countOf_append, countOf_replicate]
  split_ifs <;> omega

theorem firstCode_fixedLitLengths :
    firstCode fixedLitLengths 7 = 0x00 ∧ firstCode fixedLitLengths 8 = 0x30 ∧ firstCode fixedLitLengths 9 = 0x190 := by
  simp [firstCode, countOf_fixedLitLengths]

theorem fixedLit_built : buildCanonicalTree fixedLitLengths = some fixedLit ∧ fixedLit.left = 0 ∧ fixedLit.used = 288 := by
  have hcounts : countsOf fixedLitLengths = [0, 0, 0, 0, 0, 0, 24, 152, 112, 0, 0, 0, 0, 0, 0] := by
    simp [countsOf, List.range', countOf_fixedLitLengths]
  refine buildCanonicalTree_of_leftLoop ?_ ?_ HTree.noCodes
  · rw [hcounts]
    rfl
  · rw [length_fixedLitLengths, countOf_fixedLitLengths]
    rfl

/-! ### FIXED_DIST -/

theorem countOf_fixedDistLengths (len : Nat) : countOf fixedDistLengths len = if len = 5 then 30 else 0 := by
  simp only [fixedDistLengths, countOf_replicate, eq_comm]

theorem firstCode_fixedDistLengths : firstCode fixedDistLengths 5 = 0x00 := by
  simp [firstCode, countOf_fixedDistLengths]

theorem fixedDist_built : buildCanonicalTree fixedDistLengths = some fixedDist ∧ fixedDist.left = 2048 ∧ fixedDist.used = 30 := by
  have hcounts : countsOf fixedDistLengths = [0, 0, 0, 0, 30, 0, 0, 0, 0, 0, 0, 0, 0, 0, 0] := by
    simp [countsOf, List.range', countOf_fixedDistLengths]
  refine buildCanonicalTree_of_leftLoop ?_ ?_ HTree.noCodes
  · rw [hcounts]
    rfl
  · rw [fixedDistLengths, List.length_replicate, countOf_replicate]
    rfl

end Sys2Proof.Machine

namespace Sys2Proof.Proofs

open Sys2Proof.Machine

/-- Settles O8: each row is one run of equal lengths, so its codes rise by 1 from its first, which is `first_len` of 41_huffman.md
R253 plus the number of symbols of that length in the rows before. -/
theorem fixedCodes : Obligations.FixedCodes := by
  unfold Obligations.FixedCodes
  obtain ⟨hseven, height, hnine⟩ := firstCode_fixedLitLengths
  obtain ⟨hlit, hlitLeft, hlitUsed⟩ := fixedLit_built
  obtain ⟨hdist, hdistLeft, hdistUsed⟩ := fixedDist_built
  refine ⟨fun sym h => ?_, fun sym h => ?_, fun sym h => ?_, fun sym h => ?_, fun sym h => ?_, hlit, hlitLeft, hlitUsed, hdist,
    hdistLeft, hdistUsed⟩
  · refine symbolBits_run (A := List.replicate 144 8 ++ List.replicate 112 9) (B := List.replicate 8 8) rfl ?_ ?_ h
    · simp only [List.length_append, List.length_replicate]
    · simp only [hseven, countOf_append, countOf_replicate]
      decide
  · refine symbolBits_firstRun (B := List.replicate 112 9 ++ List.replicate 24 7 ++ List.replicate 8 8) ?_ height h
    simp only [fixedLitLengths, List.append_assoc]
  · refine symbolBits_run (A := List.replicate 144 8 ++ List.replicate 112 9 ++ List.replicate 24 7) (B := []) ?_ ?_ ?_ h
    · exact (List.append_nil _).symm
    · simp only [List.length_append, List.length_replicate]
    · simp only [height, countOf_append, countOf_replicate]
      decide
  · refine symbolBits_run (A := List.replicate 144 8) (B := List.replicate 24 7 ++ List.replicate 8 8) ?_ ?_ ?_ h
    · exact List.append_assoc ..
    · exact List.length_replicate
    · simp only [hnine, countOf_replicate]
      decide
  · exact symbolBits_firstRun (B := []) (List.append_nil _).symm firstCode_fixedDistLengths h

end Sys2Proof.Proofs
end

