-- ==== Sys2Proof/Proofs/BitReader.lean ====
section
/-! PROOF. The Bit Reader (O12, O13; 40_bit_reader.md R200 to R205). -/

namespace Sys2Proof.Machine

/-- `InBit(p)` is the bit of IN that 40_bit_reader.md R200 names. -/
theorem inBit_eq (s : State) (p : Nat) : inBit s p = ((byteAt s .inp (p / 8)).getLsbD (p % 8)).toNat := by
  rw [inBit, Nat.shiftRight_eq_div_pow, ← Nat.toNat_testBit, BitVec.testBit_toNat]

/-- The first bit read is the least significant (40_bit_reader.md R201). -/
theorem testBit_bitsAt (s : State) {p n k : Nat} (hk : k < n) :
    (bitsAt s p n).testBit k = (byteAt s .inp ((p + k) / 8)).getLsbD ((p + k) % 8) := by
  induction n generalizing p k with
  | zero => omega
  | succ n ih =>
    cases k with
    | zero =>
      rw [bitsAt, Nat.testBit_zero, Nat.add_mul_mod_self_left, inBit_eq, Nat.add_zero]
      cases (byteAt s .inp (p / 8)).getLsbD (p % 8) <;> rfl
    | succ k =>
      have hrest : bitsAt s p (n + 1) / 2 = bitsAt s (p + 1) n := by
        have hbit := inBit_lt s p
        rw [bitsAt]
        omega
      rw [Nat.testBit_succ, hrest, ih (by omega), Nat.add_right_comm, Nat.add_assoc]

/-- From a cursor within the input, the next byte boundary is within it too (40_bit_reader.md R204). -/
theorem alignToByte_toNat {s : State} (h : s.bitpos.toNat ≤ 8 * s.inLen.toNat) :
    (alignToByte s).bitpos.toNat = ceil8 s.bitpos.toNat :=
  setCursor_toNat (by unfold ceil8; omega)

end Sys2Proof.Machine

namespace Sys2Proof.Proofs

open Sys2Proof.Machine

/-- Settles O12: `readBits` answers with `bitsAt`, whose bits are those of IN, and moves the cursor only. -/
theorem readBits : Obligations.ReadBits := by
  unfold Obligations.ReadBits
  refine fun n s _ => ⟨fun henough => ?_, fun hshort => readBits_eq_err.2 ⟨by omega, rfl, rfl⟩⟩
  exact ⟨_, _, readBits_eq_val.2 ⟨henough, rfl, rfl⟩, bitsAt_lt s _ n, fun k => testBit_bitsAt s, setCursor_toNat henough, rfl⟩

/-- Settles O13: the cursor goes to `ceil8` of itself, which is at most `8 * IN_LEN`. -/
theorem alignToByte : Obligations.AlignToByte := by
  unfold Obligations.AlignToByte
  intro s hin
  refine ⟨(Machine.alignToByte s).bitpos, rfl, ?_⟩
  rw [alignToByte_toNat hin, ceil8]
  omega

end Sys2Proof.Proofs
end

