-- ==== Sys2Proof/Proofs/Invariant.lean ====
section
/-! PROOF. Every step keeps the invariant (O40; 40_bit_reader.md R205; 45_commands.md R451; 60_exceptions.md R520, R521; 10_state.md
R65). A part of an INFLATE element keeps `State.Live`; what an element ends in has the invariant, whether it raises an error or
not. -/

namespace Sys2Proof.Machine

/-! ### The parts of the invariant -/

/-- What no error changes: the sizes, the memories and the lengths keep their bounds. -/
abbrev State.Stored (s : State) : Prop := s.sizesOk ∧ s.memoriesOk ∧ s.boundsOk

/-- OUT and OUT_LEN keep their bounds. -/
abbrev State.outOk (s : State) : Prop :=
  s.outLen.toNat ≤ s.outMax.toNat ∧ Memory.wf s.outMem ∧ Memory.below s.outMax.toNat s.outMem

/-- An INFLATE runs and has raised no error. -/
abbrev State.inflating (s : State) : Prop :=
  s.busy = true ∧ s.ok = false ∧ s.err = false ∧ s.error = none ∧ s.lastOp = some .inflate

/-- The cursor lies between the stream's start and the end of the input (40_bit_reader.md R205). -/
abbrev State.cursorWithin (s : State) : Prop :=
  8 * s.inStart.toNat ≤ s.bitpos.toNat ∧ s.bitpos.toNat ≤ 8 * s.inLen.toNat

/-- What holds all through an INFLATE element, up to its end or its error. -/
abbrev State.Live (s : State) : Prop := s.Stored ∧ s.inflating ∧ s.cursorWithin

/-- The state that an element's opcode is run on: the invariant holds, and the cursor lies within the input. -/
abbrev State.Ready (s : State) : Prop := s.Live ∧ s.engineOk ∧ s.inner = .none

theorem State.Live.stored {s : State} (h : s.Live) : s.Stored := by
  obtain ⟨hstored, -⟩ := h
  exact hstored

theorem State.Ready.live {s : State} (h : s.Ready) : s.Live := by
  obtain ⟨hlive, -⟩ := h
  exact hlive

theorem State.Ready.inv {s : State} (h : s.Ready) : s.Inv := by
  obtain ⟨⟨⟨hsizes, hmems, hbounds⟩, ⟨hbusy, hok, herr, herror, hop⟩, hcursor⟩, hengine, hinner⟩ := h
  have hflags : s.flagsOk := by simp [State.flagsOk, hbusy, hok, herr, herror, hop]
  have hstart : s.inStart.toNat ≤ s.inLen.toNat := by omega
  exact ⟨hsizes, hmems, hbounds, hflags, hengine, fun _ => by rwa [if_pos hstart], hinner⟩

/-- While no INFLATE is past its start, the engine and the cursor are not bound. -/
theorem inv_of_not_running {s : State} (hstored : s.Stored) (hflags : s.flagsOk) (hrun : s.running = false)
    (hinner : s.inner = .none) : s.Inv := by
  obtain ⟨hsizes, hmems, hbounds⟩ := hstored
  have hnot : s.running ≠ true := ne_true_of_eq_false hrun
  have hphase {p : Phase} (hp : State.running { s with phase := p } = true) : s.phase ≠ p := by
    rintro rfl
    exact hnot hp
  exact ⟨hsizes, hmems, hbounds, hflags, ⟨fun h => absurd h hnot, fun h => absurd h (hphase rfl), fun h => absurd h (hphase rfl)⟩,
    fun h => absurd h hnot, hinner⟩

/-- Error entry ends the element and the command (60_exceptions.md R520). -/
theorem raise_inv {s : State} (h : s.Stored) (e : Err) : (raise e s).Inv :=
  inv_of_not_running (s := raise e s) h (by simp [State.flagsOk]) rfl rfl

theorem State.Inv.stored {s : State} (h : s.Inv) : s.Stored := by
  obtain ⟨hsizes, hmems, hbounds, -⟩ := h
  exact ⟨hsizes, hmems, hbounds⟩

theorem State.Inv.inner {s : State} (h : s.Inv) : s.inner = .none := by
  obtain ⟨-, -, -, -, -, -, hinner⟩ := h
  exact hinner

/-- Between two elements of an INFLATE the next one's opcode can be read, once the cursor is known to lie within the input. -/
theorem State.Inv.ready {s : State} (h : s.Inv) (hrun : s.running = true) (hin : s.bitpos.toNat ≤ 8 * s.inLen.toNat) :
    s.Ready := by
  obtain ⟨hsizes, hmems, hbounds, ⟨hflags, -, -, herr⟩, hengine, hcursor, hinner⟩ := h
  obtain ⟨hbusy, hop⟩ := hengine.1 hrun
  obtain ⟨hok, hnoerr, -⟩ := hflags hbusy
  have herror : s.error = none := by simpa [hnoerr] using herr
  have hwithin : s.cursorWithin := by
    have hcur := hcursor hrun
    split at hcur
    · exact hcur
    · omega
  exact ⟨⟨⟨hsizes, hmems, hbounds⟩, ⟨hbusy, hok, hnoerr, herror, hop⟩, hwithin⟩, hengine, hinner⟩

/-- Past the first header the stream starts within the input. -/
theorem State.Inv.ready_of_phase {s : State} (h : s.Inv) (hrun : s.running = true) (hphase : s.phase ≠ .header) : s.Ready := by
  obtain ⟨-, -, -, -, -, hcursor, -⟩ := id h
  refine h.ready hrun ?_
  have hcur := hcursor hrun
  split at hcur
  · exact hcur.2
  · exact absurd hcur.1 hphase

/-! ### What a part of an element ends in -/

/-- A part of an element answers with `V`, or with an error in a state that keeps its bounds. -/
inductive Res.Ends {α : Type} (V : α → State → Prop) : Res α → Prop
  | val {a : α} {t : State} (h : V a t) : Res.Ends V (.val a t)
  | err {e : Err} {t : State} (h : t.Stored) : Res.Ends V (.err e t)
  | stop {f : Fault} : Res.Ends V (.stop f)

theorem Res.Ends.bind {α β : Type} {V : α → State → Prop} {W : β → State → Prop} {r : Res α} {k : α → State → Res β}
    (hr : r.Ends V) (hk : ∀ a t, V a t → (k a t).Ends W) : (r.bind k).Ends W := by
  cases hr with
  | val h => exact hk _ _ h
  | err h => exact .err h
  | stop => exact .stop

theorem Res.Ends.imp {α : Type} {V W : α → State → Prop} {r : Res α} (hr : r.Ends V) (h : ∀ a t, V a t → W a t) : r.Ends W := by
  cases hr with
  | val hv => exact .val (h _ _ hv)
  | err hs => exact .err hs
  | stop => exact .stop

theorem nextSatisfies_fault {P : State → Prop} {f : Fault} : NextSatisfies P (.fault f) := by
  rintro _ ⟨⟩

/-- An element whose parts end in the invariant keeps it. -/
theorem finish_inv {r : Res Unit} (hr : r.Ends fun _ t => t.Inv) : NextSatisfies State.Inv (finish r) := by
  cases hr with
  | val h => exact nextSatisfies_next h
  | err h => exact nextSatisfies_next (raise_inv h _)
  | stop => exact nextSatisfies_fault

/-! ### Reads -/

/-- The cursor moves on, within the input. -/
theorem State.Live.setCursor {s : State} (h : s.Live) {p : Nat} (hon : s.bitpos.toNat ≤ p) (hin : p ≤ 8 * s.inLen.toNat) :
    (setCursor p s).Live := by
  obtain ⟨hstored, hinflating, hstart, -⟩ := h
  have hp := setCursor_toNat hin
  exact ⟨hstored, hinflating, by rw [hp]; exact hstart.trans hon, by rwa [hp]⟩

/-- A read leaves all but the cursor. -/
theorem State.Ready.read {s : State} (h : s.Ready) {p : Nat} (hlive : (setCursor p s).Live) :
    (setCursor p s).Ready := by
  obtain ⟨-, hengine, hinner⟩ := h
  exact ⟨hlive, hengine, hinner⟩

section
variable {s : State} (h : s.Live)
include h

/-- Reading `n` bits leads on with a value of `n` bits, from the state with the cursor moved by `n`. -/
theorem readBits_bind {α : Type} {n : Nat} {k : Nat → State → Res α} {W : α → State → Prop}
    (hk : ∀ v p, v < 2 ^ n → (setCursor p s).bitpos.toNat = s.bitpos.toNat + n → (setCursor p s).Live →
      (k v (setCursor p s)).Ends W) : ((readBits n s).bind k).Ends W := by
  rcases hread : readBits n s with ⟨v, t⟩ | ⟨e, t⟩ | f
  · obtain ⟨henough, rfl, rfl⟩ := readBits_eq_val.1 hread
    exact hk _ _ (bitsAt_lt ..) (setCursor_toNat henough) (h.setCursor (Nat.le_add_right ..) henough)
  · obtain ⟨-, -, rfl⟩ := readBits_eq_err.1 hread
    exact .err h.stored
  · exact .stop

theorem decodeLoop_ends (symbol count : List Nat) (code first index : Nat) :
    (decodeLoop symbol count code first index s).Ends fun _ t => ∃ p, t = setCursor p s ∧ t.Live := by
  induction count generalizing code first index s with
  | nil => exact .err h.stored
  | cons c cs ih =>
    refine readBits_bind h fun bit p _ _ hlive => ?_
    split
    · exact .val ⟨p, rfl, hlive⟩
    · exact ih hlive _ _ _

theorem symbolBelow_ends (limit : Nat) (tree : HTree) :
    (symbolBelow limit tree s).Ends fun _ t => ∃ p, t = setCursor p s ∧ t.Live := by
  refine (decodeLoop_ends h _ _ _ _ _).bind fun sym t ht => ?_
  split
  · exact .val ht
  · exact .stop

/-- Reading a symbol leads on from the state with the cursor moved, and nothing else. -/
theorem symbolBelow_bind {α : Type} {limit : Nat} {tree : HTree} {k : Nat → State → Res α} {W : α → State → Prop}
    (hk : ∀ sym p, (setCursor p s).Live → (k sym (setCursor p s)).Ends W) : ((symbolBelow limit tree s).bind k).Ends W := by
  refine (symbolBelow_ends h limit tree).bind fun sym t ht => ?_
  obtain ⟨p, rfl, hlive⟩ := ht
  exact hk sym p hlive

end

/-! ### Writes to OUT -/

theorem outOk_keptByElements : KeptByElements State.outOk where
  moved hmoved h := by rw [hmoved]; exact h
  append {s} b hroom := fun ⟨_, hwf, hbelow⟩ =>
    ⟨by rwa [outAppend_outLen_toNat b hroom], outAppend_wf b hwf, Memory.below_write b hbelow hroom⟩
  complete h := h
  raise _ h := h

/-- A change of OUT alone that keeps to OUT's bounds. -/
theorem State.Ready.out {s t : State} (h : s.Ready) (ht : t = { s with outMem := t.outMem, outLen := t.outLen })
    (hout : s.outOk → t.outOk) : t.Ready := by
  obtain ⟨⟨⟨hsizes, ⟨hin, hwf, hdict⟩, hinLen, hdictLen, houtLen, hlens, hinBelow, hbelow, hdictBelow⟩, hlive⟩, hready⟩ := h
  obtain ⟨houtLen', hwf', hbelow'⟩ := hout ⟨houtLen, hwf, hbelow⟩
  rw [ht] at houtLen' hbelow' ⊢
  exact ⟨⟨⟨hsizes, ⟨hin, hwf', hdict⟩, hinLen, hdictLen, houtLen', hlens, hinBelow, hbelow', hdictBelow⟩, hlive⟩, hready⟩

/-- The engine is ready in whatever phase an element enters, once that phase has its trees. -/
theorem State.Live.ready {s : State} (h : s.Live) (hinner : s.inner = .none)
    (hfixed : s.phase = .fixedCodes → s.litSel = false ∧ s.distSel = false)
    (hdyn : s.phase = .dynCodes → s.litSel = true ∧ s.distSel = true ∧ s.litTree.builtFrom 288 ∧ s.distTree.builtFrom 32) :
    s.Ready := by
  obtain ⟨-, ⟨hbusy, -, -, -, hop⟩, -⟩ := id h
  exact ⟨h, ⟨fun _ => ⟨hbusy, hop⟩, hfixed, hdyn⟩, hinner⟩

/-! ### Blocks and symbols -/

section
variable {s : State} (h : s.Ready)
include h

theorem endOfBlock_inv : (endOfBlock s).Inv := by
  obtain ⟨hlive, -, hinner⟩ := h
  obtain ⟨hstored, ⟨-, -, -, herror, -⟩, -⟩ := id hlive
  by_cases hfinal : s.bfinal = 1#1
  · rw [endOfBlock_final hfinal]
    exact inv_of_not_running (s := complete { s with blkcnt := s.blkcnt + 1#24, phase := .done }) hstored
      (by simp [State.flagsOk, complete, herror]) rfl hinner
  · rw [endOfBlock_more hfinal]
    exact State.Ready.inv (State.Live.ready (s := { s with blkcnt := _, phase := _ }) hlive hinner nofun nofun)

theorem storedCopy_ends (halign : s.bitpos.toNat % 8 = 0) (len : Nat) : (storedCopy len s).Ends fun _ t => t.Ready := by
  unfold storedCopy
  dsimp only
  split
  · exact .err h.live.stored
  split
  · exact .err h.live.stored
  · have hcopy : (storedLoop len (s.bitpos.toNat / 8) s).Ready :=
      h.out (storedLoop_frame ..) fun hout => storedLoop_kept outOk_keptByElements hout (by omega)
    have hpos : (storedLoop len (s.bitpos.toNat / 8) s).bitpos = s.bitpos := by rw [storedLoop_frame]
    have hlen : (storedLoop len (s.bitpos.toNat / 8) s).inLen = s.inLen := by rw [storedLoop_frame]
    exact .val (hcopy.read (hcopy.live.setCursor (by rw [hpos]; omega) (by rw [hlen]; omega)))

theorem storedBody_ends : (storedBody s).Ends fun _ t => t.Inv := by
  obtain ⟨-, -, -, hin⟩ := h.live
  have halign : (alignToByte s).bitpos.toNat = ceil8 s.bitpos.toNat := alignToByte_toNat hin
  have hAligned : (alignToByte s).Ready := h.read (h.live.setCursor (by unfold ceil8; omega) (by unfold ceil8; omega))
  refine readBits_bind hAligned.live fun len p _ hlenPos hlenLive => ?_
  refine readBits_bind hlenLive fun nlen q _ hnlenPos hnlenLive => ?_
  split
  · exact .err hnlenLive.stored
  · have hboundary : (setCursor q (setCursor p (alignToByte s))).bitpos.toNat % 8 = 0 := by
      rw [hnlenPos, hlenPos, halign, ceil8]
      omega
    exact (storedCopy_ends ((hAligned.read hlenLive).read hnlenLive) hboundary len).bind fun _ _ h => .val (endOfBlock_inv h)

theorem literal_ends (byte : Byte) : (literal byte s).Ends fun _ t => t.Inv := by
  unfold literal
  split
  · exact .err h.live.stored
  · exact .val (h.out rfl (outOk_keptByElements.append byte (by omega))).inv

end

section
variable {s : State} (hlive : s.Live) (hengine : s.engineOk)
include hlive hengine

theorem copyMatch_ends (length distance : Nat) : (copyMatch length distance s).Ends fun _ t => t.Inv := by
  unfold copyMatch
  split
  · exact .err hlive.stored
  split
  · exact .err hlive.stored
  · have hready : State.Ready { s with inner := .none } := ⟨hlive, hengine, rfl⟩
    refine .val (hready.out ?_ fun hout => ?_).inv
    · rw [copyLoop_frame]
    · exact copyLoop_kept (s := s) outOk_keptByElements hout (by omega)

theorem distanceSymbol_ends (dsym : Nat) : (distanceSymbol dsym s).Ends fun _ t => t.Inv := by
  unfold distanceSymbol
  split
  · split
    · exact .err hlive.stored
    · exact readBits_bind hlive fun dx p _ _ hlive => copyMatch_ends hlive hengine _ _
  · exact .stop
  · exact .stop

theorem lengthPart_ends (sym : Nat) : (lengthPart sym s).Ends fun _ t => t.Live ∧ t.engineOk :=
  readBits_bind hlive fun _ p _ _ hlive => .val (t := { setCursor p s with inner := _ }) ⟨hlive, hengine⟩

theorem backReference_ends (sym : Nat) : (backReference sym s).Ends fun _ t => t.Inv := by
  refine (lengthPart_ends hlive hengine sym).bind fun _ t ⟨hlive, hengine⟩ => ?_
  exact symbolBelow_bind hlive fun dsym p hlive => distanceSymbol_ends hlive hengine dsym

end

/-! ### The dynamic header -/

theorem checkTree_ends {V : Unit → State → Prop} {s : State} {tree : HTree} (hstored : s.Stored) (hval : V () s) :
    (checkTree tree s).Ends V := by
  unfold checkTree
  split
  · exact .err hstored
  · exact .val hval

/-- A tree of a dynamic block is built of code lengths of four bits, no more of them than its count says (42_blocks.md R329). -/
theorem builtFrom_of_lensSlice {s : State} {start n m : Nat} {tree : HTree} (hn : n ≤ m)
    (hbuilt : buildCanonicalTree (lensSlice start n s) = some tree) : tree.builtFrom m := by
  refine ⟨lensSlice start n s, ?_, fun l hl => ?_, hbuilt⟩
  · rw [lensSlice, List.length_map]
    exact (List.length_take_le ..).trans hn
  · obtain ⟨len, -, rfl⟩ := List.mem_map.1 hl
    exact Nat.le_of_lt_succ len.isLt

/-- Inside a dynamic header the counts keep to the alphabets (42_blocks.md R320). -/
abbrev State.countsOk (s : State) : Prop := ∀ hlit hdist i, s.inner = .lengths hlit hdist i → hlit ≤ 288 ∧ hdist ≤ 32

section
variable {s : State} (hlive : s.Live)
include hlive

section
variable (hcounts : s.countsOk)
include hcounts

theorem putLengths_ends (v : BitVec 4) (r : Nat) : (putLengths v r s).Ends fun _ t => t.Live ∧ t.countsOk := by
  unfold putLengths
  split
  · rename_i hlit hdist i hinner
    split
    · exact .err hlive.stored
    · obtain ⟨⟨hsizes, hmems, hinLen, hdictLen, houtLen, hlens, hbelow⟩, hrest⟩ := hlive
      refine .val ⟨⟨⟨hsizes, hmems, hinLen, hdictLen, houtLen, (setRun_length ..).trans hlens, hbelow⟩, hrest⟩, ?_⟩
      rintro _ _ _ ⟨⟩
      exact hcounts hlit hdist i hinner
  · exact .stop
  · exact .stop

theorem copyPrevious_ends : (copyPrevious s).Ends fun _ t => t.Live ∧ t.countsOk := by
  unfold copyPrevious
  split
  · split
    · exact .err hlive.stored
    · exact readBits_bind hlive fun rep p _ _ hlive => putLengths_ends hlive hcounts _ _
  · exact .stop
  · exact .stop

theorem zeroRun_ends (base extra : Nat) : (zeroRun base extra s).Ends fun _ t => t.Live ∧ t.countsOk := by
  unfold zeroRun
  split
  · exact readBits_bind hlive fun rep p _ _ hlive => putLengths_ends hlive hcounts _ _
  · exact .stop
  · exact .stop

theorem lengthSymbol_ends (sym : Nat) : (lengthSymbol sym s).Ends fun _ t => t.Live ∧ t.countsOk := by
  unfold lengthSymbol
  split
  · exact putLengths_ends hlive hcounts _ _
  split
  · exact copyPrevious_ends hlive hcounts
  split
  · exact zeroRun_ends hlive hcounts _ _
  · exact zeroRun_ends hlive hcounts _ _

theorem lengthsLoop_ends (fuel : Nat) : (lengthsLoop fuel s).Ends fun _ t => t.Live ∧ t.countsOk := by
  induction fuel generalizing s with
  | zero => exact .val ⟨hlive, hcounts⟩
  | succ fuel ih =>
    unfold lengthsLoop
    split
    · split
      · have hsymbol : ((clSymbol s).bind lengthSymbol).Ends fun _ t => t.Live ∧ t.countsOk :=
          symbolBelow_bind hlive fun sym p hlive => lengthSymbol_ends hlive hcounts sym
        exact hsymbol.bind fun _ _ ⟨hlive, hcounts⟩ => ih hlive hcounts
      · exact .val ⟨hlive, hcounts⟩
    · exact .stop
    · exact .stop

end

theorem readClen_ends (syms clen : List Nat) : (readClen syms clen s).Ends fun _ t => t.Live := by
  induction syms generalizing s clen with
  | nil => exact .val hlive
  | cons sym rest ih => exact readBits_bind hlive fun _ _ _ _ hlive => ih hlive _

theorem buildClenTree_ends (clen : List Nat) : (buildClenTree clen s).Ends fun _ t => t.Live := by
  unfold buildClenTree
  split
  · exact .err (t := { s with clenTree := _ }) hlive.stored
  · exact .val (t := { s with clenTree := _ }) hlive

theorem dynCounts_ends : (dynCounts s).Ends fun _ t => t.Live ∧ t.countsOk := by
  refine readBits_bind hlive fun hlit5 _ hlit _ hlive => readBits_bind hlive fun hdist5 _ hdist _ hlive => ?_
  refine readBits_bind hlive fun hclen4 _ _ _ hlive => (readClen_ends hlive _ _).bind fun clen _ hlive => ?_
  refine (buildClenTree_ends hlive clen).bind fun _ t hlive => ?_
  refine .val (t := { t with inner := _ }) ⟨hlive, ?_⟩
  rintro _ _ _ ⟨⟩
  omega

theorem buildLitTree_ends (L : List Nat) :
    (buildLitTree L s).Ends fun _ t => ∃ tree, buildCanonicalTree L = some tree ∧ t = { s with litTree := tree } := by
  unfold buildLitTree
  split
  · exact .err (t := { s with litTree := _ }) hlive.stored
  · rename_i tree hbuilt
    exact checkTree_ends (s := { s with litTree := tree }) hlive.stored ⟨tree, hbuilt, rfl⟩

theorem buildDistTree_ends (L : List Nat) :
    (buildDistTree L s).Ends fun _ t => ∃ tree, buildCanonicalTree L = some tree ∧ t = { s with distTree := tree } := by
  unfold buildDistTree
  split
  · exact .err (t := { s with distTree := _ }) hlive.stored
  · rename_i tree hbuilt
    exact checkTree_ends (s := { s with distTree := tree }) hlive.stored ⟨tree, hbuilt, rfl⟩

theorem dynTrees_ends (hcounts : s.countsOk) : (dynTrees s).Ends fun _ t => t.Inv := by
  unfold dynTrees
  split
  · rename_i hlit hdist i hinner
    obtain ⟨hlit288, hdist32⟩ := hcounts hlit hdist i hinner
    refine (buildLitTree_ends hlive _).bind fun _ t ⟨lit, hlitBuilt, ht⟩ => ?_
    subst ht
    refine (buildDistTree_ends (s := { s with litTree := lit }) hlive _).bind fun _ u ⟨dist, hdistBuilt, hu⟩ => ?_
    subst hu
    let t := { s with litTree := lit, distTree := dist, litSel := true, distSel := true, phase := .dynCodes, inner := .none }
    have hready : t.Ready := State.Live.ready (s := t) hlive rfl nofun fun _ =>
      ⟨rfl, rfl, builtFrom_of_lensSlice hlit288 hlitBuilt, builtFrom_of_lensSlice hdist32 hdistBuilt⟩
    exact .val hready.inv
  · exact .stop
  · exact .stop

theorem dynHeader_ends : (dynHeader s).Ends fun _ t => t.Inv :=
  (dynCounts_ends hlive).bind fun _ _ ⟨hlive, hcounts⟩ =>
  (lengthsLoop_ends hlive hcounts _).bind fun _ _ ⟨hlive, hcounts⟩ => dynTrees_ends hlive hcounts

end

/-! ### Every instruction of the stream -/

theorem lengthSymbol_outside {s : State} (h : s.inner = .none) (sym : Nat) : lengthSymbol sym s = .stop .symbolOutsideElement := by
  simp only [lengthSymbol, putLengths, copyPrevious, zeroRun, h, ite_self]

theorem distanceSymbol_outside {s : State} (h : s.inner = .none) (dsym : Nat) :
    distanceSymbol dsym s = .stop .symbolOutsideElement := by
  simp only [distanceSymbol, h]

/-- An instruction of the stream, run between two elements with the cursor within the input, ends in the invariant. -/
theorem exec_element_inv {i : Instr} (hi : i.format ≠ .cmd) {s : State} (h : s.Ready) : NextSatisfies State.Inv (exec i s) := by
  obtain ⟨hlive, hengine, hinner⟩ := id h
  have enters (f : BitVec 1) (t : BitVec 2) {p : Phase} (hp : p ≠ .fixedCodes) (hq : p ≠ .dynCodes) :
      State.Inv { latchHeader f t s with phase := p } :=
    State.Ready.inv (State.Live.ready (s := { latchHeader f t s with phase := p }) hlive hinner (absurd · hp) (absurd · hq))
  cases i with
  | blockStored f | blockDynamic f => exact nextSatisfies_next (enters f _ (by decide) (by decide))
  | blockFixed f =>
    let t := { latchHeader f 1#2 s with litSel := false, distSel := false, phase := .fixedCodes }
    exact nextSatisfies_next (State.Live.ready (s := t) hlive hinner (fun _ => ⟨rfl, rfl⟩) nofun).inv
  | blockReserved f => exact finish_inv (.err (t := latchHeader f 3#2 s) hlive.stored)
  | storedBody => exact finish_inv (storedBody_ends h)
  | dynHeader => exact finish_inv (dynHeader_ends hlive)
  | clLen | clCopyPrev | clZeroShort | clZeroLong =>
    rw [exec_clsym rfl, lengthSymbol_outside hinner]
    exact finish_inv .stop
  | lit b => exact finish_inv (literal_ends h b)
  | eob => exact nextSatisfies_next (endOfBlock_inv h)
  | len257 | len258 | len259 | len260 | len261 | len262 | len263 | len264 | len265 | len266 | len267 | len268 | len269 | len270
  | len271 | len272 | len273 | len274 | len275 | len276 | len277 | len278 | len279 | len280 | len281 | len282 | len283 | len284
  | len285 => exact finish_inv (backReference_ends hlive hengine _)
  | illegalLen286 | illegalLen287 => exact finish_inv (.err hlive.stored)
  | dist0 | dist1 | dist2 | dist3 | dist4 | dist5 | dist6 | dist7 | dist8 | dist9 | dist10 | dist11 | dist12 | dist13 | dist14
  | dist15 | dist16 | dist17 | dist18 | dist19 | dist20 | dist21 | dist22 | dist23 | dist24 | dist25 | dist26 | dist27 | dist28
  | dist29 | illegalDist30 | illegalDist31 =>
    rw [exec_dsym rfl, distanceSymbol_outside hinner]
    exact finish_inv .stop
  | nop | inflate | adler32 | crc32 | reset | illegalCmd => exact absurd rfl hi

/-! ### Commands -/

section
variable {s : State} (h : s.Inv)
include h

theorem resetRegisters_inv : (resetRegisters s).Inv := by
  obtain ⟨hsizes, hmems, ⟨-, -, -, hlens, hbelow⟩, -⟩ := h
  exact inv_of_not_running (s := resetRegisters s)
    ⟨hsizes, hmems, Nat.zero_le _, Nat.zero_le _, Nat.zero_le _, hlens, hbelow⟩ (by simp [State.flagsOk]) rfl rfl

theorem powerOn_inv : (powerOn s).Inv := by
  obtain ⟨hsizes, -⟩ := h
  have hbounds : (powerOn s).boundsOk :=
    ⟨Nat.zero_le _, Nat.zero_le _, Nat.zero_le _, List.length_replicate, nofun, nofun, nofun⟩
  exact inv_of_not_running (s := powerOn s) ⟨hsizes, resetWith_memories_wf s.inMax s.outMax, hbounds⟩
    (by simp [State.flagsOk]) rfl rfl

/-- Acceptance of a command while no INFLATE is past its start. -/
theorem accept_inv (hidle : s.running = false) (op : Command) : (accept op s).Inv :=
  inv_of_not_running (s := accept op s) h.stored (by simp [State.flagsOk]) hidle h.inner

theorem checksumCommand_inv (hidle : s.running = false) (op : Command) (f : List Byte → Word) :
    NextSatisfies State.Inv (checksumCommand op f s) := by
  unfold checksumCommand
  split
  · exact nextSatisfies_next (inv_of_not_running (s := raiseCommand _ (accept op s)) h.stored
      (by simp [State.flagsOk]) hidle h.inner)
  · exact nextSatisfies_next (inv_of_not_running (s := complete { accept op s with ckResult := _ }) h.stored
      (by simp [State.flagsOk, complete]) hidle h.inner)

/-- INFLATE's start sets the cursor to the stream's start, which may lie past the input (45_commands.md R452; 40_bit_reader.md
R205). -/
theorem startInflate_inv : (startInflate (accept .inflate s)).Inv := by
  obtain ⟨hsizes, hmems, ⟨hinLen, hdictLen, -, hrest⟩, -⟩ := h
  have hpos : (startInflate (accept .inflate s)).bitpos.toNat = 8 * s.inStart.toNat := by
    have hwidth := s.inStart.isLt
    simp only [startInflate_bitpos, accept_inStart, BitVec.toNat_ofNat]
    omega
  refine ⟨hsizes, hmems, ⟨hinLen, hdictLen, Nat.zero_le _, hrest⟩, by simp [State.flagsOk], ⟨fun _ => ⟨rfl, rfl⟩, nofun, nofun⟩,
    fun _ => ?_, rfl⟩
  split
  · rename_i hstart
    rw [hpos]
    exact ⟨le_rfl, Nat.mul_le_mul_left 8 hstart⟩
  · exact ⟨rfl, hpos⟩

theorem execInflate_inv : NextSatisfies State.Inv (execInflate s) := by
  have hstart := startInflate_inv h
  unfold execInflate
  dsimp only
  split
  · exact nextSatisfies_next (raise_inv hstart.stored _)
  · exact nextSatisfies_next hstart

theorem execIllegalCmd_inv (hidle : s.running = false) (w : Word) : NextSatisfies State.Inv (execIllegalCmd w s) := by
  unfold execIllegalCmd
  split
  · exact nextSatisfies_next h
  · exact nextSatisfies_next
      (inv_of_not_running (s := raiseCommand _ s) h.stored (by simp [State.flagsOk]) hidle h.inner)

/-- Every command, run while no INFLATE is past its start, ends in the invariant. -/
theorem exec_command_inv (hidle : s.running = false) {i : Instr} (hcmd : i.format = .cmd) :
    NextSatisfies State.Inv (exec i s) := by
  cases i with
  | nop => exact nextSatisfies_next h
  | inflate => exact execInflate_inv h
  | adler32 | crc32 => exact checksumCommand_inv h hidle _ _
  | reset => exact nextSatisfies_next (resetRegisters_inv h)
  | illegalCmd w => exact execIllegalCmd_inv h hidle w
  | _ => cases hcmd

end

/-! ### What a move leads to -/

/-- The next state of a move, made or still to be run, satisfies `P`. -/
inductive Move.LeadsTo (P : State → Prop) : Move → Prop
  | run {i : Instr} {s : State} (h : NextSatisfies P (exec i s)) : Move.LeadsTo P (.run i s)
  | made {s : State} (h : P s) : Move.LeadsTo P (.made s)
  | fault {f : Fault} : Move.LeadsTo P (.fault f)
  | refused {r : Refusal} : Move.LeadsTo P (.refused r)

theorem step_of_leadsTo {P : State → Prop} {s : State} (h : (nextMove s).LeadsTo P) : NextSatisfies P (step s) := by
  intro t hstep
  rcases step_eq_next.1 hstep with ⟨i, u, hrun, ht⟩ | hmade
  · rw [hrun] at h
    cases h with
    | run h => exact h t ht
  · rw [hmade] at h
    cases h with
    | made h => exact h

/-- An element whose opcode is read with the state ready leads to the invariant. -/
theorem decoded_inv {f : Format} (hf : f ≠ .cmd) {r : Res Nat} (hr : r.Ends fun _ t => t.Ready) :
    (decoded f r).LeadsTo State.Inv := by
  unfold decoded
  cases hr with
  | val h =>
    dsimp only
    split
    · rename_i hd
      obtain ⟨hformat, -, -⟩ := hasOpcode_of_decode hd
      exact .run (exec_element_inv (hformat ▸ hf) h)
    · exact .fault
  | err h => exact .made (raise_inv h _)
  | stop => exact .fault

theorem symbolBelow_ready {s : State} (h : s.Ready) (limit : Nat) (tree : HTree) :
    (symbolBelow limit tree s).Ends fun _ t => t.Ready := by
  refine (symbolBelow_ends h.live limit tree).imp fun sym t ht => ?_
  obtain ⟨p, rfl, hlive⟩ := ht
  exact h.read hlive

theorem headerBits_ready {s : State} (h : s.Ready) : (headerBits s).Ends fun _ t => t.Ready :=
  readBits_bind h.live fun _ _ _ _ hlive => readBits_bind hlive fun _ _ _ _ hlive' => .val ((h.read hlive).read hlive')

/-- A register that takes a written value up to a bound keeps to that bound, whichever register is written. -/
theorem regRead_regWrite_le {s : State} {reg m : Nat} {v : Word}
    (hsame : regRead (regWrite reg v s) reg = BitVec.ofNat 32 (min v.toNat m)) (hbefore : (regRead s reg).toNat ≤ m) (off : Nat) :
    (regRead (regWrite off v s) reg).toNat ≤ m := by
  by_cases hoff : off = reg
  · rw [hoff, hsame, BitVec.toNat_ofNat]
    exact (Nat.mod_le ..).trans (Nat.min_le_right ..)
  · rwa [regRead_regWrite_other v s (Ne.symm hoff)]

/-- Where the stream starts past the input, the first header cannot be read (40_bit_reader.md R202, R205). -/
theorem headerBits_of_past {s : State} (h : 8 * s.inLen.toNat < s.bitpos.toNat) :
    headerBits s = .err .unexpectedEndOfInput s := by
  rw [headerBits, readBits_eq_err.2 ⟨by omega, rfl, rfl⟩, Res.bind_err]

section
variable {s : State} (h : s.Inv)
include h

/-! ### The core's moves -/

theorem inflateMove_inv : (inflateMove s).LeadsTo State.Inv := by
  have ready {p : Phase} (hp : s.phase = p) (hrun : State.running { s with phase := p } = true) (hne : p ≠ .header) :
      s.Ready := by
    subst hp
    exact h.ready_of_phase hrun hne
  unfold inflateMove
  cases hphase : s.phase with
  | idle | done | error =>
    have hidle : s.running = false := by simp only [State.running, hphase]
    exact .run (exec_command_inv h hidle rfl)
  | header =>
    have hrun : s.running = true := by simp only [State.running, hphase]
    refine decoded_inv (by decide) ?_
    by_cases hin : s.bitpos.toNat ≤ 8 * s.inLen.toNat
    · exact headerBits_ready (h.ready hrun hin)
    · rw [headerBits_of_past (by omega)]
      exact .err h.stored
  | stored | dynHeader => exact decoded_inv (by decide) (.val (ready hphase rfl nofun))
  | fixedCodes | dynCodes => exact decoded_inv (by decide) (symbolBelow_ready (ready hphase rfl nofun) _ _)

theorem coreMove_inv : (coreMove s).LeadsTo State.Inv := by
  obtain ⟨-, -, -, -, ⟨hrunning, -, -⟩, -, hinner⟩ := id h
  have idle (hop : s.lastOp ≠ some .inflate) : s.running = false :=
    Bool.eq_false_iff.2 fun hrun => hop (hrunning hrun).2
  simp only [coreMove, hinner]
  split
  · exact inflateMove_inv h
  · rename_i hop
    exact .run (exec_command_inv h (idle (by simp [hop])) rfl)
  · rename_i hop
    exact .run (exec_command_inv h (idle (by simp [hop])) rfl)
  · exact .fault

theorem coreTurn_inv : (coreTurn s).LeadsTo State.Inv := by
  unfold coreTurn
  split
  · exact coreMove_inv (s := tick s) h
  · exact .made h

/-! ### The host's writes -/

/-- An idle core is not past the start of an INFLATE. -/
theorem State.Inv.not_running (hbusy : s.busy = false) : s.running = false := by
  obtain ⟨-, -, -, -, ⟨hrunning, -, -⟩, -⟩ := h
  exact Bool.eq_false_iff.2 fun hrun => by simp [(hrunning hrun).1] at hbusy

theorem issue_inv (w : Word) : (issue w s).LeadsTo State.Inv := by
  unfold issue
  dsimp only
  split_ifs with hbusy
  · exact .run (nextSatisfies_next (resetRegisters_inv h))
  · exact .made h
  all_goals have hidle : s.running = false := h.not_running (Bool.eq_false_iff.2 hbusy)
  · exact .made (accept_inv h hidle _)
  · exact .made (accept_inv h hidle _)
  · exact .made (accept_inv h hidle _)
  · obtain ⟨hcmd, -, -⟩ := decodeCmd_hasOpcode w
    exact .run (exec_command_inv h hidle hcmd)

/-- IN_LEN is held to IN_MAX (10_state.md R46). -/
theorem regWrite_inLen_le (hidle : s.busy = false) (off : Nat) (v : Word) : (regWrite off v s).inLen.toNat ≤ s.inMax.toNat := by
  obtain ⟨-, -, hinLen, -⟩ := h.stored
  have hread := regRead_regWrite_le (regRead_regWrite_inLen v hidle)
    (by rwa [regRead_inLen, BitVec.toNat_setWidth_of_le (by decide)]) off
  rwa [regRead_inLen, BitVec.toNat_setWidth_of_le (by decide)] at hread

/-- DICT_LEN is held to DICT_MAX (10_state.md R50). -/
theorem regWrite_dictLen_le (hidle : s.busy = false) (off : Nat) (v : Word) :
    (regWrite off v s).dictLen.toNat ≤ Config.dictMax := by
  obtain ⟨-, -, -, hdictLen, -⟩ := h.stored
  have hread := regRead_regWrite_le (regRead_regWrite_dictLen v hidle)
    (by rwa [regRead_dictLen, BitVec.toNat_setWidth_of_le (by decide)]) off
  rwa [regRead_dictLen, BitVec.toNat_setWidth_of_le (by decide)] at hread

/-- While busy a register write clears interrupt flags or is ignored (70_reset_and_hazards.md R620). -/
theorem regWrite_inv (off : Nat) (v : Word) : (regWrite off v s).Inv := by
  cases hbusy : s.busy with
  | true =>
    unfold regWrite
    split
    · exact h
    · exact h
  | false =>
    have hrun := h.not_running hbusy
    have hinLen := regWrite_inLen_le h hbusy off v
    have hdictLen := regWrite_dictLen_le h hbusy off v
    obtain ⟨hsizes, hmems, ⟨-, -, hbounds⟩, hflags, -, -, hinner⟩ := h
    rw [regWrite_frame]
    exact inv_of_not_running ⟨hsizes, hmems, hinLen, hdictLen, hbounds⟩ hflags hrun hinner

/-- A byte of a host write goes to IN or DICT within its size, or is ignored (20_memory.md R102, R105). -/
theorem busPut_inv (a : Nat) (b : Byte) : (busPut a b s).Inv := by
  obtain ⟨hsizes, ⟨hin, hout, hdict⟩, ⟨hinLen, hdictLen, houtLen, hlens, hinBelow, houtBelow, hdictBelow⟩, hrest⟩ := id h
  unfold busPut
  split
  · rename_i i hi
    have hinBelow' := Memory.below_write b hinBelow (regionOf_eq_inp.1 hi).2
    exact ⟨hsizes, ⟨Memory.wf_write i b hin, hout, hdict⟩,
      ⟨hinLen, hdictLen, houtLen, hlens, hinBelow', houtBelow, hdictBelow⟩, hrest⟩
  · rename_i i hi
    have hdictBelow' := Memory.below_write b hdictBelow (regionOf_eq_dict.1 hi).2
    exact ⟨hsizes, ⟨hin, hout, Memory.wf_write i b hdict⟩,
      ⟨hinLen, hdictLen, houtLen, hlens, hinBelow, houtBelow, hdictBelow'⟩, hrest⟩
  · exact h
  · exact h
  · exact h

theorem busPuts_inv (a n v : Nat) : (busPuts a n v s).Inv := by
  induction n generalizing a v s with
  | zero => exact h
  | succ n ih => exact ih (busPut_inv h a _) _ _

theorem memWrite_inv (a : Word) (n : Width) (v : Word) : (memWrite a n v s).LeadsTo State.Inv := by
  unfold memWrite
  split_ifs
  · exact issue_inv h v
  · exact .made (regWrite_inv h _ v)
  · exact .made h
  · exact .refused
  · exact .made (busPuts_inv h _ _ _)

theorem nextMove_inv : (nextMove s).LeadsTo State.Inv := by
  unfold nextMove
  split
  · rename_i hinside
    exact absurd h.inner hinside.2
  · split
    · exact coreTurn_inv h
    · exact coreTurn_inv (s := { s with host := _ }) h
    · split
      · exact coreTurn_inv h
      · exact .made h
    · exact .made h
    · exact memWrite_inv (s := tick { s with host := _ }) h _ _ _
    · exact .made (powerOn_inv (s := tick { s with host := _ }) h)

end

end Sys2Proof.Machine

namespace Sys2Proof.Proofs

open Sys2Proof.Machine

/-- Settles O40: the next move, the core's or the host's, leads to a state of the invariant. -/
theorem invStep : Obligations.InvStep := by
  unfold Obligations.InvStep
  exact fun s t h => step_of_leadsTo (nextMove_inv h) t

end Sys2Proof.Proofs
end

