-- ==== Sys2Proof/Proofs/Trees.lean ====
section
/-! PROOF. What `buildCanonicalTree` builds, and when it fails (O9, O10, O11; 41_huffman.md R250 to R256). -/

namespace Sys2Proof.Machine

theorem length_countsOf (L : List Nat) : (countsOf L).length = 15 := by
  rw [countsOf, List.length_map, List.length_range']

/-! ### The capacity loop -/

/-- The number of `n`-bit patterns that begin with a code of at most `n` bits, while the codes still fit: what R252's `left` subtracts
from `2^n` (41_huffman.md R252). -/
def codesUsed (L : List Nat) : Nat → Nat
  | 0 => 0
  | n + 1 => 2 * codesUsed L n + countOf L (n + 1)

/-- R252's closed form. -/
theorem codesUsed_eq_sum (L : List Nat) (n : Nat) :
    codesUsed L n = ((List.range' 1 n).map fun l => countOf L l * 2 ^ (n - l)).sum := by
  induction n with
  | zero => rfl
  | succ n ih =>
    have hdouble : ((List.range' 1 n).map fun l => countOf L l * 2 ^ (n + 1 - l)) =
        (List.range' 1 n).map fun l => 2 * (countOf L l * 2 ^ (n - l)) := by
      refine List.map_congr_left fun l hl => ?_
      obtain ⟨-, hle⟩ := List.mem_range'_1.1 hl
      rw [Nat.sub_add_comm (by omega : l ≤ n), Nat.pow_succ']
      exact Nat.mul_left_comm ..
    rw [codesUsed, ih, List.range'_1_concat, List.map_append, List.sum_append, hdouble, List.sum_map_mul_left, Nat.add_comm 1 n]
    simp

/-- `first_len` of 41_huffman.md R253 counts the patterns that the shorter codes take. -/
theorem firstCode_succ (L : List Nat) (n : Nat) : firstCode L (n + 1) = 2 * codesUsed L n := by
  induction n with
  | zero => rfl
  | succ n ih =>
    rw [firstCode, ih, codesUsed]
    omega

/-- From a `left` that is right after length `n`, the loop ends in a `left` that is right after `m` more lengths, unless it was
negative at one of them. -/
theorem leftLoop_eq_some {L : List Nat} {n m left left' : Nat} (hleft : left + codesUsed L n = 2 ^ n) :
    leftLoop ((List.range' (n + 1) m).map (countOf L)) left = some left' ↔
      (∀ len, n < len → len ≤ n + m → codesUsed L len ≤ 2 ^ len) ∧ left' + codesUsed L (n + m) = 2 ^ (n + m) := by
  induction m generalizing n left with
  | zero =>
    simp only [List.range'_zero, List.map_nil, leftLoop, Option.some.injEq, Nat.add_zero]
    exact ⟨fun h => ⟨fun len _ _ => by omega, by omega⟩, fun ⟨_, h⟩ => by omega⟩
  | succ m ih =>
    have hused : codesUsed L (n + 1) = 2 * codesUsed L n + countOf L (n + 1) := rfl
    have hpow : 2 ^ (n + 1) = 2 * 2 ^ n := Nat.pow_succ'
    rw [List.range'_succ, List.map_cons, leftLoop]
    split
    · refine ⟨nofun, fun ⟨hfits, _⟩ => ?_⟩
      have := hfits (n + 1) (by omega) (by omega)
      omega
    · rw [ih (by omega), Nat.add_right_comm n 1 m, ← Nat.add_assoc n m 1]
      refine and_congr_left fun _ => ⟨fun h len hn hlen => ?_, fun h len hn => h len (by omega)⟩
      rcases Nat.lt_or_eq_of_le hn with hlt | rfl
      · exact h len hlt hlen
      · change codesUsed L (n + 1) ≤ 2 ^ (n + 1)
        omega

/-- Where the build succeeds, no length is over-subscribed, and `left` counts the free 15-bit patterns. -/
theorem build_some_left {L : List Nat} {t : HTree} (h : buildCanonicalTree L = some t) :
    (∀ n, n ≤ 15 → codesUsed L n ≤ 2 ^ n) ∧ t.left + codesUsed L 15 = 2 ^ 15 := by
  obtain ⟨hleft, -⟩ := buildCanonicalTree_some.1 h
  obtain ⟨hfits, hlast⟩ := (leftLoop_eq_some (L := L) (n := 0) (m := 15) rfl).1 hleft
  refine ⟨fun n hn => ?_, hlast⟩
  rcases Nat.eq_zero_or_pos n with rfl | hpos
  · exact Nat.zero_le _
  · exact hfits n hpos (by omega)

/-- The build fails just when a length is over-subscribed (41_huffman.md R252). -/
theorem build_none_iff {L : List Nat} :
    buildCanonicalTree L = none ↔ ∃ len, 1 ≤ len ∧ len ≤ 15 ∧ 2 ^ len < codesUsed L len := by
  constructor
  · intro hnone
    by_contra! hfits
    have hroom := hfits 15 (by omega) (by omega)
    have hloop : leftLoop (countsOf L) 1 = some (2 ^ 15 - codesUsed L 15) :=
      (leftLoop_eq_some (L := L) (n := 0) (m := 15) rfl).2 ⟨fun len h1 h2 => hfits len h1 (by omega), Nat.sub_add_cancel hroom⟩
    rw [buildCanonicalTree, hloop] at hnone
    cases hnone
  · rintro ⟨len, -, hle, hover⟩
    rw [Option.eq_none_iff_forall_ne_some]
    intro t ht
    obtain ⟨hfits, -⟩ := build_some_left ht
    exact absurd (hfits len hle) (by omega)

/-! ### The symbol table -/

/-- The symbols that have a code of at most `n` bits, in the table's order; `offs[n + 1]` is their number (41_huffman.md R254). -/
def symbolsUpTo (L : List Nat) (n : Nat) : List Nat := (List.range' 1 n).flatMap fun len => symbolsOf len L 0

theorem symbolTable_eq (L : List Nat) : symbolTable L = symbolsUpTo L 15 := rfl

theorem symbolsUpTo_succ (L : List Nat) (n : Nat) : symbolsUpTo L (n + 1) = symbolsUpTo L n ++ symbolsOf (n + 1) L 0 := by
  simp [symbolsUpTo, List.range'_1_concat, Nat.add_comm 1 n]

theorem symbolsUpTo_prefix (L : List Nat) {n m : Nat} (h : n ≤ m) : symbolsUpTo L n <+: symbolsUpTo L m := by
  induction m, h using Nat.le_induction with
  | base => exact List.prefix_rfl
  | succ m _ ih =>
    rw [symbolsUpTo_succ]
    exact ih.trans (List.prefix_append ..)

/-- A symbol's length as an entry of `L`, and as the statements of the obligations write it. -/
theorem getElem?_eq_some_iff_getD {L : List Nat} {sym len : Nat} : L[sym]? = some len ↔ sym < L.length ∧ L.getD sym 0 = len := by
  rw [List.getElem?_eq_some_iff]
  refine ⟨fun ⟨hlt, h⟩ => ⟨hlt, (List.getD_eq_getElem _ _ hlt).trans h⟩, fun ⟨hlt, h⟩ => ⟨hlt, ?_⟩⟩
  rwa [← List.getD_eq_getElem _ 0 hlt]

theorem symbolsOf_eq_idxsOf (len : Nat) (L : List Nat) (at0 : Nat) : symbolsOf len L at0 = L.idxsOf len at0 := by
  induction L generalizing at0 with
  | nil => rfl
  | cons l L ih => simp [symbolsOf, ih]

theorem mem_symbolsOf {len : Nat} {L : List Nat} {sym : Nat} : sym ∈ symbolsOf len L 0 ↔ L[sym]? = some len := by
  rw [symbolsOf_eq_idxsOf, List.mem_idxsOf_iff_exists_getElem_pos, List.getElem?_eq_some_iff]
  simp

theorem length_symbolsOf (len : Nat) (L : List Nat) : (symbolsOf len L 0).length = countOf L len := by
  rw [symbolsOf_eq_idxsOf, List.length_idxsOf, List.count, countOf]

theorem length_symbolsUpTo_succ (L : List Nat) (n : Nat) :
    (symbolsUpTo L (n + 1)).length = (symbolsUpTo L n).length + countOf L (n + 1) := by
  rw [symbolsUpTo_succ, List.length_append, length_symbolsOf]

/-- Among the symbols of its length, a symbol stands behind the smaller ones. -/
theorem getElem?_symbolsOf {len : Nat} {L : List Nat} {sym : Nat} (h : L[sym]? = some len) :
    (symbolsOf len L 0)[countOf (L.take sym) len]? = some sym := by
  obtain ⟨hlt, rfl⟩ := List.getElem?_eq_some_iff.1 h
  have hrank : countOf (L.take sym) L[sym] = L.countBefore L[sym] sym := List.countBefore_eq_count_take.symm
  have hbound : L.countBefore L[sym] sym < (L.idxsOf L[sym]).length := by simp
  rw [hrank, symbolsOf_eq_idxsOf, List.getElem?_eq_getElem hbound, List.getElem_idxOf_eq_idxOfNth, List.idxOfNth_countBefore_getElem]

/-- Each rank below the number of symbols of a length is that of one of them. -/
theorem exists_symbol_of_rank {L : List Nat} {len k : Nat} (hk : k < countOf L len) :
    ∃ sym, L[sym]? = some len ∧ countOf (L.take sym) len = k := by
  have hlt : L.idxOfNth len k < L.length := List.idxOfNth_lt_length_of_lt_count hk
  refine ⟨L.idxOfNth len k, ?_, ?_⟩
  · rw [List.getElem?_eq_getElem hlt, List.getElem_idxOfNth_eq]
  · exact List.countBefore_eq_count_take.symm.trans (List.countBefore_idxOfNth_of_lt_count hk)

/-- The index of a symbol with a code of `len` bits in the table: behind those of fewer bits and the smaller ones of as many. -/
def tableIndex (L : List Nat) (len sym : Nat) : Nat := (symbolsUpTo L (len - 1)).length + countOf (L.take sym) len

theorem getElem?_symbolTable {L : List Nat} {len sym : Nat} (h : L[sym]? = some len) (hpos : 0 < len) (hle : len ≤ 15) :
    (symbolTable L)[tableIndex L len sym]? = some sym := by
  obtain ⟨n, rfl⟩ := Nat.exists_eq_add_of_lt hpos
  have hhere : (symbolsUpTo L (0 + n + 1))[tableIndex L (0 + n + 1) sym]? = some sym := by
    rw [tableIndex, Nat.add_sub_cancel, symbolsUpTo_succ, List.getElem?_append_right (Nat.le_add_right ..), Nat.add_sub_cancel_left]
    exact getElem?_symbolsOf h
  obtain ⟨hbound, hentry⟩ := List.getElem?_eq_some_iff.1 hhere
  rw [symbolTable_eq, List.prefix_iff_getElem?.1 (symbolsUpTo_prefix L hle) _ hbound, hentry]

/-- The table lists the symbols that have a code. -/
theorem mem_symbolTable {L : List Nat} (hL : ∀ l ∈ L, l ≤ 15) {sym : Nat} :
    sym ∈ symbolTable L ↔ sym < L.length ∧ 0 < L.getD sym 0 := by
  simp only [symbolTable, List.mem_flatMap, List.mem_range'_1, mem_symbolsOf]
  constructor
  · rintro ⟨len, ⟨hpos, -⟩, hsym⟩
    obtain ⟨hlt, hlen⟩ := getElem?_eq_some_iff_getD.1 hsym
    exact ⟨hlt, hlen ▸ hpos⟩
  · rintro ⟨hlt, hpos⟩
    have hsym := getElem?_eq_some_iff_getD.2 ⟨hlt, rfl⟩
    have hle := hL _ (List.mem_of_getElem? hsym)
    exact ⟨_, by omega, hsym⟩

/-- The table's order (41_huffman.md R254). -/
theorem symbolTable_pairwise (L : List Nat) :
    (symbolTable L).Pairwise fun a b => L.getD a 0 < L.getD b 0 ∨ (L.getD a 0 = L.getD b 0 ∧ a < b) := by
  have hlen {len sym : Nat} (h : sym ∈ symbolsOf len L 0) : L.getD sym 0 = len :=
    (getElem?_eq_some_iff_getD.1 (mem_symbolsOf.1 h)).2
  rw [symbolTable, List.pairwise_flatMap]
  constructor
  · intro len _
    have hsorted : (symbolsOf len L 0).Pairwise (· < ·) := by
      rw [symbolsOf_eq_idxsOf]
      exact List.pairwise_idxsOf
    exact hsorted.imp_of_mem fun ha hb hlt => .inr ⟨(hlen ha).trans (hlen hb).symm, hlt⟩
  · refine (List.pairwise_lt_range' 1).imp fun hlt a ha b hb => .inl ?_
    rwa [hlen ha, hlen hb]

theorem symbolTable_nodup (L : List Nat) : (symbolTable L).Nodup :=
  (symbolTable_pairwise L).imp fun h => by rintro rfl; omega

theorem countP_le_succ (L : List Nat) (n : Nat) : L.countP (· ≤ n + 1) = L.countP (· ≤ n) + countOf L (n + 1) := by
  induction L with
  | nil => rfl
  | cons l L ih =>
    simp only [countOf, List.countP_cons, decide_eq_true_eq, beq_iff_eq] at ih ⊢
    split_ifs <;> omega

/-- The symbols of at most `n` bits and those without a code. -/
theorem length_symbolsUpTo (L : List Nat) (n : Nat) : (symbolsUpTo L n).length + countOf L 0 = L.countP (· ≤ n) := by
  induction n with
  | zero => simp [symbolsUpTo, countOf, beq_eq_decide]
  | succ n ih => rw [length_symbolsUpTo_succ, countP_le_succ, ← ih, Nat.add_right_comm]

/-- `used` is the number of symbols with a code (41_huffman.md R256). -/
theorem length_symbolTable {L : List Nat} (hL : ∀ l ∈ L, l ≤ 15) : (symbolTable L).length = L.length - countOf L 0 := by
  have hall : L.countP (· ≤ 15) = L.length := List.countP_eq_length.2 fun l hl => by simpa using hL l hl
  rw [← hall, ← length_symbolsUpTo, Nat.add_sub_cancel, symbolTable_eq]

/-! ### The placement loop -/

theorem length_offsetsFrom (at0 : Nat) (counts : List Nat) : (offsetsFrom at0 counts).length = counts.length := by
  induction counts generalizing at0 with
  | nil => rfl
  | cons count rest ih => simp [offsetsFrom, ih]

/-- `offs[len]` is where the symbols of `len` bits begin in the table (41_huffman.md R254). -/
theorem getD_offsetsFrom (L : List Nat) {n m k : Nat} (hk : k < m) :
    (offsetsFrom (symbolsUpTo L n).length ((List.range' (n + 1) m).map (countOf L))).getD k 0 =
      (symbolsUpTo L (n + k)).length := by
  induction m generalizing n k with
  | zero => omega
  | succ m ih =>
    rw [List.range'_succ, List.map_cons, offsetsFrom, ← length_symbolsUpTo_succ]
    cases k with
    | zero => rfl
    | succ k => rw [List.getD_cons_succ, ih (by omega), Nat.add_right_comm, Nat.add_assoc]

/-- The loop has placed the symbols of `A`, the first of the lengths `L`: each stands at its index of the table, and the offsets are
past them. -/
structure Placed (L A offs symbol : List Nat) : Prop where
  offsLength : offs.length = 15
  offsAt : ∀ len, 0 < len → len ≤ 15 → offs.getD (len - 1) 0 = (symbolsUpTo L (len - 1)).length + countOf A len
  symbolLength : symbol.length = (symbolTable L).length
  symbolAt : ∀ sym len, sym < A.length → L[sym]? = some len → 0 < len → symbol[tableIndex L len sym]? = some sym

/-- No symbol is placed yet. -/
theorem Placed.start (L : List Nat) {before : List Nat} (h : before.length = (symbolTable L).length) :
    Placed L [] (offsetsFrom 0 (countsOf L)) before where
  offsLength := (length_offsetsFrom ..).trans (length_countsOf L)
  offsAt := fun len hpos hle => by
    have := getD_offsetsFrom L (n := 0) (m := 15) (k := len - 1) (by omega)
    simpa [countsOf, countOf, symbolsUpTo] using this
  symbolLength := h
  symbolAt := fun sym len hlt => absurd hlt (Nat.not_lt_zero sym)

/-- A symbol without a code is not placed. -/
theorem Placed.skip {L A B offs symbol : List Nat} (hL : L = A ++ 0 :: B) (h : Placed L A offs symbol) :
    Placed L (A ++ [0]) offs symbol where
  offsLength := h.offsLength
  offsAt := fun len hpos hle => by
    rw [h.offsAt len hpos hle, countOf_append]
    simp [countOf, hpos.ne]
  symbolLength := h.symbolLength
  symbolAt := fun sym len hlt hsym hpos => by
    have hne : sym ≠ A.length := by
      rintro rfl
      simp only [hL, List.getElem?_append_right le_rfl, Nat.sub_self, List.getElem?_cons_zero, Option.some.injEq] at hsym
      omega
    rw [List.length_append, List.length_singleton] at hlt
    exact h.symbolAt sym len (by omega) hsym hpos

/-- A symbol with a code goes to its index of the table, which is no other symbol's. -/
theorem Placed.place {L A B offs symbol : List Nat} {l : Nat} (hL : L = A ++ l :: B) (hpos : 0 < l) (hle : l ≤ 15)
    (hall : ∀ l ∈ L, l ≤ 15) (h : Placed L A offs symbol) :
    Placed L (A ++ [l]) (offs.set (l - 1) (offs.getD (l - 1) 0 + 1)) (symbol.set (offs.getD (l - 1) 0) A.length) := by
  have hnew : L[A.length]? = some l := by simp [hL]
  have hindex : offs.getD (l - 1) 0 = tableIndex L l A.length := by
    rw [h.offsAt l hpos hle, tableIndex, hL, List.take_left]
  have hentry := getElem?_symbolTable hnew hpos hle
  refine ⟨by rw [List.length_set, h.offsLength], fun len hlpos hlle => ?_, by rw [List.length_set, h.symbolLength],
    fun sym len hlt hsym hspos => ?_⟩
  · have hin : l - 1 < offs.length := by rw [h.offsLength]; omega
    by_cases heq : len = l
    · subst heq
      rw [List.getD_eq_getElem?_getD, List.getElem?_set_self hin, Option.getD_some, h.offsAt len hpos hle, countOf_append]
      simp [countOf, Nat.add_assoc]
    · rw [List.getD_eq_getElem?_getD, List.getElem?_set_ne (by omega), ← List.getD_eq_getElem?_getD, h.offsAt len hlpos hlle,
        countOf_append]
      simp [countOf, Ne.symm heq]
  · rw [hindex]
    rw [List.length_append, List.length_singleton] at hlt
    rcases Nat.lt_or_eq_of_le (Nat.le_of_lt_succ hlt) with hold | rfl
    · have hother := getElem?_symbolTable hsym hspos (hall len (List.mem_of_getElem? hsym))
      have hne : tableIndex L l A.length ≠ tableIndex L len sym := by
        intro heq
        rw [heq, hother] at hentry
        exact hold.ne (Option.some.inj hentry)
      rw [List.getElem?_set_ne hne, h.symbolAt sym len hold hsym hspos]
    · obtain rfl : l = len := Option.some.inj (hnew.symm.trans hsym)
      obtain ⟨hbound, -⟩ := List.getElem?_eq_some_iff.1 hentry
      rw [List.getElem?_set_self (by rw [h.symbolLength]; exact hbound)]

/-- Where all symbols are placed, the array is the table. -/
theorem Placed.eq_symbolTable {L offs symbol : List Nat} (hall : ∀ l ∈ L, l ≤ 15) (h : Placed L L offs symbol) :
    symbol = symbolTable L := by
  refine List.ext_getElem? fun i => ?_
  rcases Nat.lt_or_ge i (symbolTable L).length with hi | hi
  · obtain ⟨hlt, hpos⟩ := (mem_symbolTable hall).1 (List.getElem_mem hi)
    have hsym := getElem?_eq_some_iff_getD.2 ⟨hlt, rfl⟩
    have hentry := getElem?_symbolTable hsym hpos (hall _ (List.mem_of_getElem? hsym))
    have hindex := (List.getElem?_inj hi (symbolTable_nodup L)).1 ((List.getElem?_eq_getElem hi).trans hentry.symm)
    have hplaced := h.symbolAt _ _ hlt hsym hpos
    rwa [← hindex, ← List.getElem?_eq_getElem hi] at hplaced
  · rw [List.getElem?_eq_none hi, List.getElem?_eq_none (by rw [h.symbolLength]; exact hi)]

/-- The rest of the loop places the rest of the symbols. -/
theorem placeLoop_eq_symbolTable {L A B offs symbol : List Nat} (hL : L = A ++ B) (hall : ∀ l ∈ L, l ≤ 15)
    (h : Placed L A offs symbol) : placeLoop B A.length offs symbol = symbolTable L := by
  induction B generalizing A offs symbol with
  | nil =>
    rw [List.append_nil] at hL
    subst hL
    exact h.eq_symbolTable hall
  | cons l B ih =>
    have hnext : L = (A ++ [l]) ++ B := by rw [hL, List.append_assoc, List.singleton_append]
    have hlength : A.length + 1 = (A ++ [l]).length := by rw [List.length_append, List.length_singleton]
    rw [placeLoop, hlength]
    split
    · rename_i hzero
      subst hzero
      exact ih hnext (h.skip hL)
    · exact ih hnext (h.place hL (by omega) (hall l (by simp [hL])) hall)

end Sys2Proof.Machine

namespace Sys2Proof.Proofs

open Sys2Proof.Machine

/-- Settles O9: the capacity loop keeps `left = 2^len - codesUsed`, and `codesUsed` is R252's sum. -/
theorem overSubscribed : Obligations.OverSubscribed := by
  unfold Obligations.OverSubscribed
  intro L _
  simp only [build_none_iff, codesUsed_eq_sum]

/-- Settles O10: the parts of the tree are those of the lemmas on `countsOf`, `symbolTable` and the capacity loop. -/
theorem builtTree : Obligations.BuiltTree := by
  unfold Obligations.BuiltTree
  rintro L t ⟨hL, hbuild⟩
  obtain ⟨-, hcount, hsymbol, hused⟩ := buildCanonicalTree_some.1 hbuild
  obtain ⟨-, hleft⟩ := build_some_left hbuild
  rw [hcount, hsymbol, hused, ← codesUsed_eq_sum]
  refine ⟨length_countsOf L, fun len hpos hle => ?_, fun _ => mem_symbolTable hL, symbolTable_pairwise L,
    (length_symbolTable hL).symm, hleft⟩
  have hin : len - 1 < (countsOf L).length := by rw [length_countsOf]; omega
  have hlen : 1 + (len - 1) = len := by omega
  rw [List.getD_eq_getElem _ _ hin, ← List.countP_eq_length_filter]
  simp [countsOf, hlen, countOf]

/-- Settles O11: from no symbol placed, the loop places them all, and what it then holds is the table. -/
theorem placementLoop : Obligations.PlacementLoop := by
  unfold Obligations.PlacementLoop
  rintro L t before ⟨hL, hbuild⟩ hbefore
  obtain ⟨-, hcount, hsymbol, hused⟩ := buildCanonicalTree_some.1 hbuild
  rw [hused, ← length_symbolTable hL] at hbefore
  rw [hcount, hsymbol]
  exact placeLoop_eq_symbolTable (A := []) rfl hL (.start L hbefore)

end Sys2Proof.Proofs
end

