-- ==== Sys2Proof/Proofs/Symbols.lean ====
section
/-! PROOF. `decodeSymbol` reads the canonical code (O5, O6, O7; 41_huffman.md R253, R260 to R266). -/

namespace Sys2Proof.Machine

/-! ### The bits of a code -/

/-- The next `n` bits of the stream as the running code of `decodeSymbol`: first bit most significant (41_huffman.md R262). -/
def State.code (s : State) : Nat → Nat
  | 0 => 0
  | n + 1 => 2 * s.code n + inBit s (s.bitpos.toNat + n)

@[simp] theorem length_codeBits (n c : Nat) : (codeBits n c).length = n := by
  induction n with
  | zero => rfl
  | succ n ih => rw [codeBits, List.length_cons, ih]

/-- The last bit sent is the least significant. -/
theorem codeBits_succ (n c : Nat) : codeBits (n + 1) c = codeBits n (c / 2) ++ [c % 2 == 1] := by
  induction n with
  | zero => simp [codeBits]
  | succ n ih =>
    rw [codeBits, ih, codeBits, Nat.div_div_eq_div_mul, Nat.pow_succ']
    rfl

theorem streamHas_concat {s : State} {bits : List Bool} {b : Bool} :
    s.streamHas (bits ++ [b]) ↔
      s.streamHas bits ∧ s.hasBits (bits.length + 1) ∧ (inBit s (s.bitpos.toNat + bits.length) == 1) = b := by
  simp only [State.streamHas, State.hasBits, List.length_append, List.length_singleton]
  constructor
  · rintro ⟨hbits, hall⟩
    refine ⟨⟨by omega, fun k hk => ?_⟩, hbits, ?_⟩
    · rw [hall k (by omega), List.getD_append _ _ _ _ hk]
    · rw [hall _ (Nat.lt_succ_self _), List.getD_append_right _ _ _ _ le_rfl, Nat.sub_self]
      rfl
  · rintro ⟨⟨-, hall⟩, hbits, hlast⟩
    refine ⟨hbits, fun k hk => ?_⟩
    rcases Nat.lt_or_eq_of_le (Nat.le_of_lt_succ hk) with hlt | rfl
    · rw [hall k hlt, List.getD_append _ _ _ _ hlt]
    · rw [hlast, List.getD_append_right _ _ _ _ le_rfl, Nat.sub_self]
      rfl

/-- The stream begins with the bits of a number just when the running code is that number. -/
theorem streamHas_codeBits {s : State} {n c : Nat} (hc : c < 2 ^ n) :
    s.streamHas (codeBits n c) ↔ s.hasBits n ∧ s.code n = c := by
  induction n generalizing c with
  | zero =>
    obtain rfl : c = 0 := Nat.lt_one_iff.1 hc
    simp [codeBits, State.streamHas, State.code]
  | succ n ih =>
    have hbit := inBit_lt s (s.bitpos.toNat + n)
    have hlast : (inBit s (s.bitpos.toNat + n) == 1) = (c % 2 == 1) ↔ inBit s (s.bitpos.toNat + n) = c % 2 := by
      rw [Bool.eq_iff_iff, beq_iff_eq, beq_iff_eq]
      omega
    rw [codeBits_succ, streamHas_concat, ih (by omega), length_codeBits, hlast, State.code]
    omega

/-! ### The code of a symbol, and the window of its length -/

section

variable {L : List Nat} {t : HTree} {s : State} (hcodes : t.codes L)

/-- A code exceeds what the shorter codes take by the rank of its symbol (41_huffman.md R253). -/
theorem canonicalCode_eq {sym n : Nat} (hsym : L[sym]? = some (n + 1)) :
    canonicalCode L sym = 2 * codesUsed L n + countOf (L.take sym) (n + 1) := by
  obtain ⟨-, hlen⟩ := getElem?_eq_some_iff_getD.1 hsym
  rw [canonicalCode, hlen, firstCode_succ]

/-- A symbol's rank is below the number of symbols of its length. -/
theorem rank_lt {sym len : Nat} (hsym : L[sym]? = some len) : countOf (L.take sym) len < countOf L len := by
  obtain ⟨hlt, -⟩ := List.getElem?_eq_some_iff.1 (getElem?_symbolsOf hsym)
  rwa [length_symbolsOf] at hlt

include hcodes

/-- The stream codes a symbol of `n + 1` bits just when the running code after them is the symbol's. -/
theorem streamCodes_iff {sym n : Nat} (hsym : L[sym]? = some (n + 1)) :
    s.streamCodes L sym ↔ s.hasBits (n + 1) ∧ s.code (n + 1) = canonicalCode L sym := by
  obtain ⟨hL, hbuild⟩ := hcodes
  obtain ⟨hfits, -⟩ := build_some_left hbuild
  have hroom : canonicalCode L sym < 2 ^ (n + 1) := by
    have hrank := rank_lt hsym
    have := hfits (n + 1) (hL _ (List.mem_of_getElem? hsym))
    rw [codesUsed] at this
    rw [canonicalCode_eq hsym]
    omega
  obtain ⟨hlt, hlen⟩ := getElem?_eq_some_iff_getD.1 hsym
  rw [State.streamCodes, symbolBits, hlen, streamHas_codeBits hroom]
  exact ⟨fun ⟨_, _, h⟩ => h, fun h => ⟨hlt, Nat.succ_pos n, h⟩⟩

/-- A running code that has passed the windows of the shorter lengths and is in the window of this one is the code of a symbol
(41_huffman.md R263). -/
theorem exists_streamCodes {n : Nat} (hbits : s.hasBits (n + 1)) (hmiss : codesUsed L n ≤ s.code n)
    (hhit : s.code (n + 1) < codesUsed L (n + 1)) : ∃ sym, s.streamCodes L sym := by
  have hfirst : 2 * codesUsed L n ≤ s.code (n + 1) := by rw [State.code]; omega
  have hrank : s.code (n + 1) - 2 * codesUsed L n < countOf L (n + 1) := by rw [codesUsed] at hhit; omega
  obtain ⟨sym, hsym, hk⟩ := exists_symbol_of_rank hrank
  refine ⟨sym, (streamCodes_iff hcodes hsym).2 ⟨hbits, ?_⟩⟩
  rw [canonicalCode_eq hsym, hk]
  omega

/-- A stream that codes no symbol passes the window of every length (41_huffman.md R266). -/
theorem codesUsed_le_code (hnone : ∀ sym, ¬s.streamCodes L sym) {n : Nat} (hbits : s.hasBits n) : codesUsed L n ≤ s.code n := by
  induction n with
  | zero => exact Nat.zero_le _
  | succ n ih =>
    by_contra! hhit
    obtain ⟨sym, hsym⟩ := exists_streamCodes hcodes hbits (ih (by omega)) hhit
    exact hnone sym hsym

end

/-- A running code that has passed the window of a length has passed those of the shorter ones. -/
theorem codesUsed_le_code_of_succ {L : List Nat} {s : State} {n : Nat} (h : codesUsed L (n + 1) ≤ s.code (n + 1)) :
    codesUsed L n ≤ s.code n := by
  have hbit := inBit_lt s (s.bitpos.toNat + n)
  rw [codesUsed, State.code] at h
  omega

/-! ### The loop of `decodeSymbol` -/

theorem setCursor_self (s : State) : setCursor s.bitpos.toNat s = s := by
  simp [setCursor]

/-- `decodeSymbol` after `n` bits none of whose windows held the running code: `code` and `first` are doubled for the next bit
(41_huffman.md R260). -/
def decodeAfter (L : List Nat) (s : State) (n : Nat) : Res Nat :=
  decodeLoop (symbolTable L) ((List.range' (n + 1) (15 - n)).map (countOf L)) (2 * s.code n) (2 * codesUsed L n)
    (symbolsUpTo L n).length (setCursor (s.bitpos.toNat + n) s)

section

variable {L : List Nat} {s : State} {n : Nat}

theorem decodeSymbol_eq_decodeAfter {t : HTree} (hcodes : t.codes L) : decodeSymbol t s = decodeAfter L s 0 := by
  obtain ⟨-, hbuild⟩ := hcodes
  obtain ⟨-, hcount, hsymbol, -⟩ := buildCanonicalTree_some.1 hbuild
  rw [decodeSymbol, hcount, hsymbol]
  conv_lhs => rw [← setCursor_self s]
  rfl

/-- Where no more bit is there, the loop fails with the cursor where it is (40_bit_reader.md R202). -/
theorem decodeAfter_short (hn : n < 15) (hcursor : s.bitpos.toNat + n < 2 ^ 28) (hbits : ¬s.hasBits (n + 1)) :
    decodeAfter L s n = .err .unexpectedEndOfInput (setCursor (s.bitpos.toNat + n) s) := by
  have hshort : ¬(setCursor (s.bitpos.toNat + n) s).hasBits 1 := by
    simp only [State.hasBits, setCursor_bitpos, BitVec.toNat_ofNat, setCursor_inLen, Nat.mod_eq_of_lt hcursor] at hbits ⊢
    omega
  rw [decodeAfter, ← Nat.succ_sub_succ, Nat.succ_sub (by omega), List.range'_succ, List.map_cons, decodeLoop,
    readBits_eq_err.2 ⟨hshort, rfl, rfl⟩, Res.bind_err]

/-- Where a bit is there, the window of the next length decides. -/
theorem decodeAfter_bit (hn : n < 15) (hbits : s.hasBits (n + 1)) :
    decodeAfter L s n =
      if s.code (n + 1) < codesUsed L (n + 1) then
        .val ((symbolTable L).getD ((symbolsUpTo L n).length + (s.code (n + 1) - 2 * codesUsed L n)) noSymbol)
          (setCursor (s.bitpos.toNat + (n + 1)) s)
      else decodeAfter L s (n + 1) := by
  have hcursor : (setCursor (s.bitpos.toNat + n) s).bitpos.toNat = s.bitpos.toNat + n := setCursor_toNat (by omega)
  have hread : readBits 1 (setCursor (s.bitpos.toNat + n) s) =
      .val (inBit s (s.bitpos.toNat + n)) (setCursor (s.bitpos.toNat + (n + 1)) s) := by
    refine readBits_eq_val.2 ⟨?_, ?_, ?_⟩
    · simp only [State.hasBits, hcursor, setCursor_inLen]
      omega
    · rw [hcursor]
      rfl
    · rw [hcursor]
      rfl
  obtain ⟨m, hm⟩ : ∃ m, 15 - n = m + 1 := ⟨14 - n, by omega⟩
  have hrest : 15 - (n + 1) = m := by omega
  rw [decodeAfter, hm, List.range'_succ, List.map_cons, decodeLoop, hread, Res.bind_val, decodeAfter, hrest,
    length_symbolsUpTo_succ]
  rfl

/-- After 15 bits the loop fails (41_huffman.md R261). -/
theorem decodeAfter_all : decodeAfter L s 15 = .err .invalidCode (setCursor (s.bitpos.toNat + 15) s) := rfl

/-- The loop goes on past the bits whose windows the running code has passed. -/
theorem decodeAfter_zero (hn : n ≤ 15) (hbits : s.hasBits n) (hmiss : codesUsed L n ≤ s.code n) :
    decodeAfter L s 0 = decodeAfter L s n := by
  induction n with
  | zero => rfl
  | succ n ih =>
    rw [ih (by omega) (by omega) (codesUsed_le_code_of_succ hmiss), decodeAfter_bit hn hbits, if_neg (by omega)]

/-- The loop returns the symbol whose code the running code is: it is past the windows of the shorter lengths, and in that of its own
at the symbol's rank. -/
theorem decodeAfter_zero_of_code {sym : Nat} (hsym : L[sym]? = some (n + 1)) (hn : n + 1 ≤ 15) (hbits : s.hasBits (n + 1))
    (hcode : s.code (n + 1) = canonicalCode L sym) :
    decodeAfter L s 0 = .val sym (setCursor (s.bitpos.toNat + (n + 1)) s) := by
  rw [canonicalCode_eq hsym] at hcode
  have hbit := inBit_lt s (s.bitpos.toNat + n)
  have hmiss : codesUsed L n ≤ s.code n := by rw [State.code] at hcode; omega
  have hhit : s.code (n + 1) < codesUsed L (n + 1) := by
    have hrank := rank_lt hsym
    rw [hcode, codesUsed]
    omega
  have hentry : (symbolTable L)[(symbolsUpTo L n).length + countOf (L.take sym) (n + 1)]? = some sym :=
    getElem?_symbolTable hsym n.succ_pos hn
  rw [decodeAfter_zero (by omega) (by omega) hmiss, decodeAfter_bit hn hbits, if_pos hhit, hcode, Nat.add_sub_cancel_left,
    List.getD_eq_getElem?_getD, hentry, Option.getD_some]

end

end Sys2Proof.Machine

namespace Sys2Proof.Proofs

open Sys2Proof.Machine

/-- Settles O5: the running code after the symbol's length is its code, so the loop returns it. -/
theorem canonicalTree : Obligations.CanonicalTree := by
  unfold Obligations.CanonicalTree
  intro L t s sym hcodes hstream
  obtain ⟨hL, -⟩ := id hcodes
  obtain ⟨hlt, hpos, -⟩ := id hstream
  obtain ⟨n, hlen⟩ : ∃ n, L.getD sym 0 = n + 1 := Nat.exists_eq_add_one.2 hpos
  have hsym := getElem?_eq_some_iff_getD.2 ⟨hlt, hlen⟩
  have hn : n + 1 ≤ 15 := hL _ (List.mem_of_getElem? hsym)
  obtain ⟨hbits, hcode⟩ := (streamCodes_iff hcodes hsym).1 hstream
  rw [decodeSymbol_eq_decodeAfter hcodes, hlen]
  exact decodeAfter_zero_of_code hsym hn hbits hcode

/-- Settles O7: with no code in the stream the windows of all lengths are passed, as far as there are bits. -/
theorem noCodeFails : Obligations.NoCodeFails := by
  unfold Obligations.NoCodeFails
  intro L t s hcodes hcursor hnone
  have hafter {n : Nat} (hn : n ≤ 15) (hbits : s.hasBits n) : decodeSymbol t s = decodeAfter L s n := by
    rw [decodeSymbol_eq_decodeAfter hcodes, decodeAfter_zero hn hbits (codesUsed_le_code hcodes hnone hbits)]
  refine ⟨fun hbits => hafter le_rfl hbits, fun hshort => ?_⟩
  obtain ⟨n, hend⟩ := Nat.exists_eq_add_of_le hcursor
  have hin := s.inLen.isLt
  rw [hafter (n := n) (by omega) (by omega), decodeAfter_short (by omega) (by omega) (by omega), hend]
  rfl

/-- Settles O6: a stream that codes no symbol gives none (O7), and one that codes a symbol gives that symbol (O5). -/
theorem decodedIsCanonical : Obligations.DecodedIsCanonical := by
  unfold Obligations.DecodedIsCanonical
  intro L t s u sym hcodes hval
  by_cases hnone : ∀ sym, ¬s.streamCodes L sym
  · by_cases hcursor : s.bitpos.toNat ≤ 8 * s.inLen.toNat
    · obtain ⟨hinvalid, hshort⟩ := noCodeFails L t s hcodes hcursor hnone
      by_cases hbits : s.hasBits 15
      · rw [hinvalid hbits] at hval
        cases hval
      · rw [hshort hbits] at hval
        cases hval
    · rw [decodeSymbol_eq_decodeAfter hcodes, decodeAfter_short (by omega) s.bitpos.isLt (by omega)] at hval
      cases hval
  · obtain ⟨sym', hstream⟩ := not_forall_not.1 hnone
    rw [canonicalTree L t s sym' hcodes hstream] at hval
    obtain ⟨rfl, rfl⟩ := Res.val.inj hval
    exact ⟨hstream, rfl⟩

end Sys2Proof.Proofs
end

