-- ==== Sys2Proof/Proofs/Stream.lean ====
section
/-! PROOF. What the stream begins with, bit by bit, and what a read of a field, of a byte or of a symbol then answers (40_bit_reader.md
R200 to R202; 30_encoding.md R151; 41_huffman.md R264). -/

namespace Sys2Proof.Machine

/-! ### The cursor past some bits -/

/-- The state with the cursor past `bits`. -/
def State.past (s : State) (bits : List Bool) : State := setCursor (s.bitpos.toNat + bits.length) s

theorem past_past (s : State) (a b : List Bool) : (s.past a).past b = s.past (a ++ b) := by
  simp only [State.past, setCursor, List.length_append, ← Nat.add_assoc, State.mk.injEq, true_and, and_true]
  apply BitVec.eq_of_toNat_eq
  simp only [BitVec.toNat_ofNat, Nat.mod_add_mod]

@[simp] theorem past_nil (s : State) : s.past [] = s := setCursor_self s

theorem bitpos_past {s : State} {bits : List Bool} (h : s.hasBits bits.length) :
    (s.past bits).bitpos.toNat = s.bitpos.toNat + bits.length := setCursor_toNat h

/-- What the stream begins with, in two parts. -/
theorem streamHas_append {s : State} {a b : List Bool} :
    s.streamHas (a ++ b) ↔ s.streamHas a ∧ (s.past a).streamHas b := by
  by_cases ha : s.hasBits a.length
  case neg => exact ⟨fun ⟨hbits, _⟩ => absurd (hbits.trans' (by simp)) ha, fun ⟨⟨hbits, _⟩, _⟩ => absurd hbits ha⟩
  have hinBit (p : Nat) : inBit (s.past a) p = inBit s p := inBit_congr rfl rfl p
  have hlen : (s.past a).inLen = s.inLen := rfl
  simp only [State.streamHas, State.hasBits, bitpos_past ha, List.length_append, hinBit, hlen]
  constructor
  · rintro ⟨hbits, hall⟩
    refine ⟨⟨ha, fun k hk => ?_⟩, by omega, fun k hk => ?_⟩
    · rw [hall k (by omega), List.getD_append _ _ _ _ hk]
    · rw [Nat.add_assoc, hall (a.length + k) (by omega), List.getD_append_right _ _ _ _ (by omega), Nat.add_sub_cancel_left]
  · rintro ⟨⟨-, hfst⟩, hbits, hsnd⟩
    refine ⟨by omega, fun k hk => ?_⟩
    rcases Nat.lt_or_ge k a.length with hlt | hge
    · rw [hfst k hlt, List.getD_append _ _ _ _ hlt]
    · rw [List.getD_append_right _ _ _ _ hge, ← hsnd (k - a.length) (by omega), Nat.add_assoc, Nat.add_sub_cancel' hge]

/-! ### Fields -/

@[simp] theorem length_fieldBits (n v : Nat) : (fieldBits n v).length = n := by
  induction n generalizing v with
  | zero => rfl
  | succ n ih => rw [fieldBits, List.length_cons, ih]

/-- The bits of a field, read back first bit least significant, are its value (30_encoding.md R151; 40_bit_reader.md R201). -/
theorem bitsAt_of_fieldBits {s : State} {p n v : Nat} (hv : v < 2 ^ n)
    (hall : ∀ k, k < n → (inBit s (p + k) == 1) = (fieldBits n v).getD k false) : bitsAt s p n = v := by
  induction n generalizing p v with
  | zero => exact (Nat.lt_one_iff.1 hv).symm
  | succ n ih =>
    have hrest : bitsAt s (p + 1) n = v / 2 := by
      refine ih (by omega) fun k hk => ?_
      rw [Nat.add_assoc, Nat.add_comm 1 k, hall (k + 1) (by omega), fieldBits, List.getD_cons_succ]
    have hfirst : inBit s p = v % 2 := by
      have hbit := inBit_lt s p
      have hhead : (inBit s p == 1) = (v % 2 == 1) := hall 0 (by omega)
      rw [Bool.eq_iff_iff, beq_iff_eq, beq_iff_eq] at hhead
      omega
    rw [bitsAt, hrest, hfirst, Nat.mod_add_div]

/-- A field that the stream begins with is read as its value. -/
theorem readBits_fieldBits {s : State} {n v : Nat} (hv : v < 2 ^ n) (h : s.streamHas (fieldBits n v)) :
    readBits n s = .val v (s.past (fieldBits n v)) := by
  obtain ⟨hbits, hall⟩ := h
  rw [length_fieldBits] at hbits hall
  refine readBits_eq_val.2 ⟨hbits, (bitsAt_of_fieldBits hv hall).symm, ?_⟩
  rw [State.past, length_fieldBits]

/-! ### Bytes -/

theorem bitsAt_add (s : State) (p m n : Nat) : bitsAt s p (m + n) = bitsAt s p m + 2 ^ m * bitsAt s (p + m) n := by
  induction m generalizing p with
  | zero => simp [bitsAt]
  | succ m ih =>
    rw [Nat.add_right_comm, bitsAt, ih, bitsAt, Nat.add_right_comm p 1 m, Nat.pow_succ', Nat.add_assoc p m 1]
    ring

/-- Eight bits from a byte boundary on are that byte (40_bit_reader.md R200, R201). -/
theorem bitsAt_byte (s : State) (b : Nat) : bitsAt s (8 * b) 8 = (byteAt s .inp b).toNat := by
  refine Nat.eq_of_testBit_eq fun k => ?_
  rcases Nat.lt_or_ge k 8 with hk | hk
  · rw [testBit_bitsAt s hk, BitVec.testBit_toNat, Nat.mul_add_div (by decide), Nat.mul_add_mod, Nat.div_eq_of_lt hk,
      Nat.mod_eq_of_lt hk, Nat.add_zero]
  · rw [Nat.testBit_lt_two_pow ((bitsAt_lt s _ 8).trans_le (Nat.pow_le_pow_right (by decide) hk)),
      Nat.testBit_lt_two_pow ((byteAt s .inp b).isLt.trans_le (Nat.pow_le_pow_right (by decide) hk))]

/-- Sixteen bits from a byte boundary on are two bytes, the first least significant. -/
theorem bitsAt_two_bytes (s : State) (b : Nat) :
    bitsAt s (8 * b) 16 = (byteAt s .inp b).toNat + 256 * (byteAt s .inp (b + 1)).toNat := by
  rw [bitsAt_add s _ 8 8, bitsAt_byte, ← Nat.mul_succ, bitsAt_byte]
  rfl

/-! ### Symbols -/

/-- A symbol whose code the stream begins with is read, by the tree of an alphabet that holds it. -/
theorem symbolBelow_of_streamCodes {L : List Nat} {tree : HTree} {s : State} {sym limit : Nat} (hcodes : tree.codes L)
    (hlimit : L.length ≤ limit) (h : s.streamCodes L sym) :
    symbolBelow limit tree s = .val sym (s.past (symbolBits L sym)) := by
  obtain ⟨hlt, -, -⟩ := id h
  rw [symbolBelow, Proofs.canonicalTree L tree s sym hcodes h, Res.bind_val, if_pos (hlt.trans_le hlimit), State.past, symbolBits,
    length_codeBits]
  rfl

end Sys2Proof.Machine
end

