-- ==== Sys2Proof/Proofs/CodeLengths.lean ====
section
/-! PROOF. The code-length symbols of a dynamic header, one by one (O19, O20, O21; 42_blocks.md R324 to R328). -/

namespace Sys2Proof.Machine

/-! ### A run of lengths -/

/-- A run that fits is written over what stood there. -/
theorem setRun_append {r : Nat} {v : BitVec 4} {front tail : List (BitVec 4)} (h : r ≤ tail.length) :
    setRun r front.length v (front ++ tail) = front ++ List.replicate r v ++ tail.drop r := by
  induction r generalizing front tail with
  | zero => simp [setRun]
  | succ r ih =>
    obtain ⟨old, tail, rfl⟩ := List.exists_cons_of_length_pos (Nat.zero_lt_of_lt h)
    have hset : (front ++ old :: tail).set front.length v = (front ++ [v]) ++ tail := by
      rw [List.set_append_right _ _ le_rfl, Nat.sub_self, List.set_cons_zero, List.append_assoc, List.singleton_append]
    have hlen : front.length + 1 = (front ++ [v]).length := by simp
    rw [setRun, hset, hlen, ih (Nat.le_of_succ_le_succ h), List.append_assoc front, List.singleton_append, ← List.replicate_succ,
      List.drop_succ_cons]

/-- A run writes its indexes and no other. -/
theorem getD_setRun {r i j : Nat} {v : BitVec 4} {lens : List (BitVec 4)} (hj : j < lens.length) :
    (setRun r i v lens).getD j 0#4 = if i ≤ j ∧ j < i + r then v else lens.getD j 0#4 := by
  induction r generalizing i lens with
  | zero => rw [setRun, if_neg (by omega)]
  | succ r ih =>
    have hset : (lens.set i v).getD j 0#4 = if i = j then v else lens.getD j 0#4 := by
      rw [List.getD_eq_getElem?_getD, List.getElem?_set, List.getD_eq_getElem?_getD]
      split
      · simp_all
      · rfl
    rw [setRun, ih (by rwa [List.length_set]), hset]
    by_cases hij : i = j
    · rw [if_neg (by omega), if_pos hij, if_pos (by omega)]
    · rw [if_neg hij]
      exact if_congr (by omega) rfl rfl

section

variable {s : State} {hlit hdist i : Nat} (hinner : s.inner = .lengths hlit hdist i)
include hinner

theorem putLengths_fits {v : BitVec 4} {r : Nat} (hfits : i + r ≤ hlit + hdist) :
    putLengths v r s = .val () { s with lens := setRun r i v s.lens, inner := .lengths hlit hdist (i + r) } := by
  simp only [putLengths, hinner, if_neg (Nat.not_lt.2 hfits)]

/-- A run past the end of the lengths writes none (42_blocks.md R328). -/
theorem putLengths_over {v : BitVec 4} {r : Nat} (hover : hlit + hdist < i + r) :
    putLengths v r s = .err .tooManyCodeLengths s := by
  simp only [putLengths, hinner, if_pos hover]

end

/-! ### The repeat symbols -/

/-- A run of `v` whose count is `base` plus `extra` bits: the common tail of the three repeat symbols (42_blocks.md R325 to R327). -/
def repeatRun (v : BitVec 4) (base extra : Nat) (s : State) : Res Unit :=
  (readBits extra s).bind fun rep s => putLengths v (base + rep) s

section

variable {s : State} {hlit hdist i : Nat} (hinner : s.inner = .lengths hlit hdist i)
include hinner

/-- A first symbol 16 has no previous length (42_blocks.md R325). -/
theorem copyPrevious_first (hi : i = 0) : copyPrevious s = .err .invalidRepeatCode s := by
  simp only [copyPrevious, hinner, if_pos hi]

theorem copyPrevious_eq_repeatRun (hi : i ≠ 0) : copyPrevious s = repeatRun (s.lens.getD (i - 1) 0#4) 3 2 s := by
  simp only [copyPrevious, hinner, if_neg hi, repeatRun]
  rcases hread : readBits 2 s with ⟨rep, t⟩ | ⟨e, t⟩ | f
  · obtain ⟨-, -, rfl⟩ := readBits_eq_val.1 hread
    rfl
  · rfl
  · rfl

theorem zeroRun_eq_repeatRun (base extra : Nat) : zeroRun base extra s = repeatRun 0#4 base extra s := by
  simp only [zeroRun, hinner, repeatRun]

theorem repeatRun_fits {v : BitVec 4} {base extra : Nat} (hbits : s.hasBits extra)
    (hfits : i + (base + bitsAt s s.bitpos.toNat extra) ≤ hlit + hdist) :
    repeatRun v base extra s = .val () { setCursor (s.bitpos.toNat + extra) s with
      lens := setRun (base + bitsAt s s.bitpos.toNat extra) i v s.lens,
      inner := .lengths hlit hdist (i + (base + bitsAt s s.bitpos.toNat extra)) } := by
  rw [repeatRun, readBits_eq_val.2 ⟨hbits, rfl, rfl⟩, Res.bind_val, putLengths_fits (s := setCursor _ s) hinner hfits]
  rfl

omit hinner in
theorem repeatRun_short {v : BitVec 4} {base extra : Nat} (hbits : ¬s.hasBits extra) :
    repeatRun v base extra s = .err .unexpectedEndOfInput s := by
  rw [repeatRun, readBits_eq_err.2 ⟨hbits, rfl, rfl⟩, Res.bind_err]

theorem repeatRun_over {v : BitVec 4} {base extra : Nat} (hbits : s.hasBits extra)
    (hover : hlit + hdist < i + (base + bitsAt s s.bitpos.toNat extra)) :
    repeatRun v base extra s = .err .tooManyCodeLengths (setCursor (s.bitpos.toNat + extra) s) := by
  rw [repeatRun, readBits_eq_val.2 ⟨hbits, rfl, rfl⟩, Res.bind_val, putLengths_over (s := setCursor _ s) hinner hover]

/-- What each repeat symbol runs, inside a dynamic header. -/
theorem exec_repeat {instr : Instr} {v : BitVec 4} {base extra : Nat}
    (h : instr = .clCopyPrev ∧ i ≠ 0 ∧ v = s.lens.getD (i - 1) 0#4 ∧ base = 3 ∧ extra = 2 ∨
      instr = .clZeroShort ∧ v = 0#4 ∧ base = 3 ∧ extra = 3 ∨
      instr = .clZeroLong ∧ v = 0#4 ∧ base = 11 ∧ extra = 7) :
    exec instr s = finish (repeatRun v base extra s) := by
  rcases h with ⟨rfl, hi, rfl, rfl, rfl⟩ | ⟨rfl, rfl, rfl, rfl⟩ | ⟨rfl, rfl, rfl, rfl⟩
  · rw [← copyPrevious_eq_repeatRun hinner hi]
    rfl
  · rw [← zeroRun_eq_repeatRun hinner]
    rfl
  · rw [← zeroRun_eq_repeatRun hinner]
    rfl

end

end Sys2Proof.Machine

namespace Sys2Proof.Proofs

open Sys2Proof.Machine

/-- Settles O19: a run of one length, which fits. -/
theorem clLen : Obligations.ClLen := by
  unfold Obligations.ClLen
  intro v s hlit hdist i hinner hi
  exact congrArg finish (putLengths_fits hinner hi)

/-- Settles O20: each repeat symbol is a run whose count and extra bits are its own, and the run fits. -/
theorem clRuns : Obligations.ClRuns := by
  unfold Obligations.ClRuns
  rintro s hlit hdist i instr v base extra r hinner hinstr hbits rfl hfits
  rw [exec_repeat hinner hinstr, repeatRun_fits hinner hbits hfits]
  exact ⟨_, rfl, setRun_length .., fun j hj => getD_setRun hj, rfl⟩

/-- Settles O21: symbol 16 at index 0 fails before its extra bits; the others are runs that lack their bits or do not fit. -/
theorem clErrors : Obligations.ClErrors := by
  unfold Obligations.ClErrors
  intro s hlit hdist i hinner
  refine ⟨fun hi => congrArg finish (copyPrevious_first hinner hi), fun instr base extra hinstr => ?_⟩
  obtain ⟨v, hexec⟩ : ∃ v, exec instr s = finish (repeatRun v base extra s) := by
    rcases hinstr with ⟨hinstr, hi, hcount⟩ | ⟨hinstr, hcount⟩ | ⟨hinstr, hcount⟩
    · exact ⟨_, exec_repeat hinner (.inl ⟨hinstr, hi, rfl, hcount⟩)⟩
    · exact ⟨_, exec_repeat hinner (.inr (.inl ⟨hinstr, rfl, hcount⟩))⟩
    · exact ⟨_, exec_repeat hinner (.inr (.inr ⟨hinstr, rfl, hcount⟩))⟩
  rw [hexec]
  refine ⟨fun hshort => ?_, fun hbits hover => ?_⟩
  · rw [repeatRun_short hshort, finish_err]
  · rw [repeatRun_over hinner hbits hover, finish_err]
    rfl

end Sys2Proof.Proofs
end

