-- ==== Sys2Proof/Proofs/DynHeader.lean ====
section
/-! PROOF. The dynamic header as one element (O22, O23, O24; 42_blocks.md R320 to R330): its counts and code-length code, its code-length
symbols as the statements that send them, and its two trees. -/

namespace Sys2Proof.Machine

/-! ### The code-length code -/

/-- The code-length code lengths are read to the symbols of ORDER, one after another (42_blocks.md R321). -/
theorem readClen_of_streamHas {cl syms clen : List Nat} {s : State} (hlen : cl.length ≤ syms.length) (hcl : ∀ v ∈ cl, v ≤ 7)
    (h : s.streamHas (cl.flatMap fun v => fieldBits 3 v)) :
    readClen (syms.take cl.length) clen s =
      .val ((syms.zip cl).foldl (fun acc p => acc.set p.1 p.2) clen) (s.past (cl.flatMap fun v => fieldBits 3 v)) := by
  induction cl generalizing syms clen s with
  | nil => simp [readClen]
  | cons v cl ih =>
    obtain ⟨sym, syms, rfl⟩ := List.exists_cons_of_length_pos (Nat.zero_lt_of_lt hlen)
    rw [List.flatMap_cons, streamHas_append] at h
    obtain ⟨hfield, hrest⟩ := h
    have hv : v < 2 ^ 3 := Nat.lt_succ_of_le (hcl v List.mem_cons_self)
    rw [List.length_cons, List.take_succ_cons, readClen, readBits_fieldBits hv hfield, Res.bind_val,
      ih (Nat.le_of_succ_le_succ hlen) (fun w hw => hcl w (List.mem_cons_of_mem _ hw)) hrest, past_past]
    rfl

/-- Lengths set to symbols one after another: as many lengths as before, and each of them new or old. -/
theorem foldl_set_clen (pairs : List (Nat × Nat)) (clen : List Nat) :
    (pairs.foldl (fun acc p => acc.set p.1 p.2) clen).length = clen.length ∧
    ∀ v ∈ pairs.foldl (fun acc p => acc.set p.1 p.2) clen, v ∈ pairs.map Prod.snd ∨ v ∈ clen := by
  induction pairs generalizing clen with
  | nil => exact ⟨rfl, fun v hv => .inr hv⟩
  | cons p pairs ih =>
    obtain ⟨hlen, hmem⟩ := ih (clen.set p.1 p.2)
    refine ⟨hlen.trans List.length_set, fun v hv => ?_⟩
    rcases hmem v hv with hnew | hold
    · exact .inl (List.mem_cons_of_mem _ hnew)
    · rcases List.mem_or_eq_of_mem_set hold with hold | rfl
      · exact .inr hold
      · exact .inl List.mem_cons_self

/-- The code-length code has 19 lengths (42_blocks.md R321). -/
theorem length_clenOf (cl : List Nat) : (clenOf cl).length = 19 := (foldl_set_clen ..).1

/-- A code-length code whose tree is built, of lengths that the format can carry, is one for `decodeSymbol`. -/
theorem codes_clenOf {cl : List Nat} {tree : HTree} (hcl : ∀ v ∈ cl, v ≤ 7) (hbuild : buildCanonicalTree (clenOf cl) = some tree) :
    tree.codes (clenOf cl) := by
  refine ⟨fun l hl => ?_, hbuild⟩
  rcases (foldl_set_clen ..).2 l hl with hsent | hzero
  · obtain ⟨⟨sym, v⟩, hpair, rfl⟩ := List.mem_map.1 hsent
    exact (hcl v (List.of_mem_zip hpair).2).trans (by decide)
  · obtain rfl := List.eq_of_mem_replicate hzero
    exact Nat.zero_le _

/-- The counts and the code-length code of a header are read, then the tree of that code is built (42_blocks.md R320 to R323). -/
theorem dynCounts_of_streamHas {hlit hdist : Nat} {cl : List Nat} {s : State} (hcounts : countsInRange hlit hdist cl)
    (h : s.streamHas (dynCountBits hlit hdist cl)) :
    dynCounts s = (buildClenTree (clenOf cl) (s.past (dynCountBits hlit hdist cl))).bind fun _ s =>
      .val () { s with inner := .lengths hlit hdist 0 } := by
  obtain ⟨hlit1, hlit2, hdist1, hdist2, hcl1, hcl2, hcl⟩ := hcounts
  rw [dynCountBits, streamHas_append, streamHas_append, streamHas_append] at h
  obtain ⟨⟨⟨h1, h2⟩, h3⟩, h4⟩ := h
  rw [dynCounts, readBits_fieldBits (by omega) h1, Res.bind_val, readBits_fieldBits (by omega) h2, Res.bind_val, past_past,
    readBits_fieldBits (by omega) h3, Res.bind_val, past_past, Nat.sub_add_cancel hcl1, readClen_of_streamHas hcl2 hcl h4,
    Res.bind_val, past_past, Nat.sub_add_cancel hlit1, Nat.sub_add_cancel hdist1]
  rfl

/-! ### The lengths that statements send -/

theorem length_le_clSent (prog : List Stmt) (sent : List Nat) : sent.length ≤ (clSent prog sent).length := by
  induction prog generalizing sent with
  | nil => exact le_rfl
  | cons st rest ih =>
    refine Nat.le_trans ?_ (ih (sent ++ clLengths sent st))
    rw [List.length_append]
    exact Nat.le_add_right ..

/-- Every code-length symbol sends at least one length (42_blocks.md R324). -/
theorem clLengths_length_pos {clen sent : List Nat} {st : Stmt} (h : clOk clen sent st = true) :
    0 < (clLengths sent st).length := by
  cases st with
  | cl v => exact Nat.one_pos
  | cl16 r | cl17 r | cl18 r =>
    simp only [clOk, Bool.and_eq_true, decide_eq_true_eq] at h
    rw [clLengths, List.length_replicate]
    omega
  | _ => cases h

theorem clLengths_le {clen sent : List Nat} {st : Stmt} (h : clOk clen sent st = true) (hsent : ∀ v ∈ sent, v ≤ 15) :
    ∀ v ∈ clLengths sent st, v ≤ 15 := by
  cases st with
  | cl v =>
    simp only [clOk, Bool.and_eq_true, decide_eq_true_eq] at h
    simpa [clLengths] using h.1
  | cl16 r =>
    intro v hv
    obtain rfl := List.eq_of_mem_replicate hv
    rcases List.eq_nil_or_concat sent with rfl | ⟨init, last, rfl⟩
    · exact Nat.zero_le _
    · simpa using hsent last (by simp)
  | cl17 r | cl18 r =>
    intro v hv
    obtain rfl := List.eq_of_mem_replicate hv
    exact Nat.zero_le _
  | _ => cases h

/-- All code lengths that a header sends are of four bits. -/
theorem clSent_le {clen : List Nat} {prog : List Stmt} {sent : List Nat} (h : clProgOk clen prog sent = true)
    (hsent : ∀ v ∈ sent, v ≤ 15) : ∀ v ∈ clSent prog sent, v ≤ 15 := by
  induction prog generalizing sent with
  | nil => exact hsent
  | cons st rest ih =>
    obtain ⟨hst, hrest⟩ := Bool.and_eq_true_iff.1 h
    refine ih hrest fun v hv => ?_
    rcases List.mem_append.1 hv with hv | hv
    · exact hsent v hv
    · exact clLengths_le hst hsent v hv

/-! ### One statement -/

/-- Inside a dynamic header, past the code lengths `sent`: they stand in `lens` from 0 on, over what was there (42_blocks.md R324). -/
def withSent (hlit hdist : Nat) (sent : List Nat) (s : State) : State :=
  { s with lens := sent.map (BitVec.ofNat 4) ++ s.lens.drop sent.length, inner := .lengths hlit hdist sent.length }

section

variable {s : State} {hlit hdist : Nat} {sent : List Nat}

theorem past_withSent (bits : List Bool) :
    (withSent hlit hdist sent s).past bits = withSent hlit hdist sent (s.past bits) := rfl

theorem putLengths_withSent {v r : Nat} (hroom : hlit + hdist ≤ s.lens.length) (hfits : sent.length + r ≤ hlit + hdist) :
    putLengths (BitVec.ofNat 4 v) r (withSent hlit hdist sent s) =
      .val () (withSent hlit hdist (sent ++ List.replicate r v) s) := by
  have hrun := setRun_append (v := BitVec.ofNat 4 v) (front := sent.map (BitVec.ofNat 4)) (tail := s.lens.drop sent.length)
    (r := r) (by rw [List.length_drop]; omega)
  rw [List.length_map, List.drop_drop] at hrun
  rw [putLengths_fits rfl hfits]
  simp only [withSent, hrun, List.map_append, List.map_replicate, List.length_append, List.length_replicate]

theorem repeatRun_withSent {v r base extra : Nat} (hroom : hlit + hdist ≤ s.lens.length)
    (hfits : sent.length + r ≤ hlit + hdist) (hbase : base ≤ r) (hcount : r - base < 2 ^ extra)
    (h : s.streamHas (fieldBits extra (r - base))) :
    repeatRun (BitVec.ofNat 4 v) base extra (withSent hlit hdist sent s) =
      .val () (withSent hlit hdist (sent ++ List.replicate r v) (s.past (fieldBits extra (r - base)))) := by
  rw [repeatRun, readBits_fieldBits (s := withSent hlit hdist sent s) hcount h, Res.bind_val, Nat.add_sub_cancel' hbase,
    past_withSent]
  exact putLengths_withSent hroom hfits

theorem zeroRun_withSent {r base extra : Nat} (hroom : hlit + hdist ≤ s.lens.length) (hfits : sent.length + r ≤ hlit + hdist)
    (hbase : base ≤ r) (hcount : r - base < 2 ^ extra) (h : s.streamHas (fieldBits extra (r - base))) :
    zeroRun base extra (withSent hlit hdist sent s) =
      .val () (withSent hlit hdist (sent ++ List.replicate r 0) (s.past (fieldBits extra (r - base)))) := by
  rw [zeroRun_eq_repeatRun rfl]
  exact repeatRun_withSent (v := 0) hroom hfits hbase hcount h

/-- The previous length is the one sent last. -/
theorem getD_withSent_last (hsent : sent ≠ []) :
    (withSent hlit hdist sent s).lens.getD (sent.length - 1) 0#4 = BitVec.ofNat 4 (sent.getLastD 0) := by
  obtain ⟨init, last, rfl⟩ := (List.eq_nil_or_concat sent).resolve_left hsent
  simp [withSent]

theorem copyPrevious_withSent {r : Nat} (hroom : hlit + hdist ≤ s.lens.length) (hfits : sent.length + r ≤ hlit + hdist)
    (hsent : sent ≠ []) (hmin : 3 ≤ r) (hmax : r ≤ 6) (h : s.streamHas (fieldBits 2 (r - 3))) :
    copyPrevious (withSent hlit hdist sent s) =
      .val () (withSent hlit hdist (sent ++ List.replicate r (sent.getLastD 0)) (s.past (fieldBits 2 (r - 3)))) := by
  rw [copyPrevious_eq_repeatRun rfl (List.length_pos_of_ne_nil hsent).ne', getD_withSent_last hsent]
  exact repeatRun_withSent hroom hfits hmin (by omega) h

/-- A code-length symbol whose code the stream begins with. -/
theorem clSymbol_of_streamHas {clen : List Nat} {sym : Nat} (hcodes : s.clenTree.codes clen) (hlen : clen.length = 19)
    (hpos : 0 < clen.getD sym 0) (h : s.streamHas (symbolBits clen sym)) :
    clSymbol s = .val sym (s.past (symbolBits clen sym)) := by
  have hlt : sym < clen.length := by
    by_contra hge
    rw [List.getD_eq_default _ _ (Nat.le_of_not_lt hge)] at hpos
    exact hpos.false
  exact symbolBelow_of_streamCodes hcodes hlen.le ⟨hlt, hpos, h⟩

/-- The symbol that a statement sends is read and adds the statement's lengths (42_blocks.md R324 to R327). -/
theorem lengthSymbol_of_statement {clen : List Nat} {st : Stmt} (hcodes : s.clenTree.codes clen) (hlen : clen.length = 19)
    (hroom : hlit + hdist ≤ s.lens.length) (hok : clOk clen sent st = true)
    (hfits : (sent ++ clLengths sent st).length ≤ hlit + hdist) (h : s.streamHas (clBits clen st)) :
    (clSymbol (withSent hlit hdist sent s)).bind lengthSymbol =
      .val () (withSent hlit hdist (sent ++ clLengths sent st) (s.past (clBits clen st))) := by
  have read {sym : Nat} (hpos : 0 < clen.getD sym 0) (h : s.streamHas (symbolBits clen sym)) :
      (clSymbol (withSent hlit hdist sent s)).bind lengthSymbol =
        lengthSymbol sym (withSent hlit hdist sent (s.past (symbolBits clen sym))) := by
    rw [clSymbol_of_streamHas (s := withSent hlit hdist sent s) hcodes hlen hpos h, Res.bind_val, past_withSent]
  rw [List.length_append] at hfits
  cases st with
  | cl v =>
    simp only [clOk, Bool.and_eq_true, decide_eq_true_eq] at hok
    obtain ⟨hv, hpos⟩ := hok
    rw [read hpos h, lengthSymbol, if_pos hv]
    exact putLengths_withSent (s := s.past _) hroom hfits
  | cl16 r =>
    simp only [clOk, Bool.and_eq_true, decide_eq_true_eq, Bool.not_eq_true', List.isEmpty_eq_false_iff] at hok
    obtain ⟨⟨⟨hmin, hmax⟩, hsent⟩, hpos⟩ := hok
    obtain ⟨hsym, hextra⟩ := streamHas_append.1 h
    rw [clLengths, List.length_replicate] at hfits
    rw [read hpos hsym, lengthSymbol, if_neg (by decide), if_pos rfl,
      copyPrevious_withSent (s := s.past _) hroom hfits hsent hmin hmax hextra, past_past]
    rfl
  | cl17 r =>
    simp only [clOk, Bool.and_eq_true, decide_eq_true_eq] at hok
    obtain ⟨⟨hmin, hmax⟩, hpos⟩ := hok
    obtain ⟨hsym, hextra⟩ := streamHas_append.1 h
    rw [clLengths, List.length_replicate] at hfits
    rw [read hpos hsym, lengthSymbol, if_neg (by decide), if_neg (by decide), if_pos rfl,
      zeroRun_withSent (s := s.past _) hroom hfits hmin (by omega) hextra, past_past]
    rfl
  | cl18 r =>
    simp only [clOk, Bool.and_eq_true, decide_eq_true_eq] at hok
    obtain ⟨⟨hmin, hmax⟩, hpos⟩ := hok
    obtain ⟨hsym, hextra⟩ := streamHas_append.1 h
    rw [clLengths, List.length_replicate] at hfits
    rw [read hpos hsym, lengthSymbol, if_neg (by decide), if_neg (by decide), if_neg (by decide),
      zeroRun_withSent (s := s.past _) hroom hfits hmin (by omega) hextra, past_past]
    rfl
  | _ => cases hok

end

/-! ### All statements -/

/-- The loop reads the symbols of a header's statements, up to its last length (42_blocks.md R324). -/
theorem lengthsLoop_of_statements {clen : List Nat} {hlit hdist fuel : Nat} {prog : List Stmt} {sent : List Nat} {s : State}
    (hcodes : s.clenTree.codes clen) (hlen : clen.length = 19) (hroom : hlit + hdist ≤ s.lens.length)
    (hok : clProgOk clen prog sent = true) (htotal : (clSent prog sent).length = hlit + hdist)
    (hfuel : hlit + hdist ≤ sent.length + fuel) (h : s.streamHas (prog.flatMap (clBits clen))) :
    lengthsLoop fuel (withSent hlit hdist sent s) =
      .val () (withSent hlit hdist (clSent prog sent) (s.past (prog.flatMap (clBits clen)))) := by
  induction prog generalizing sent s fuel with
  | nil =>
    have hend : ¬sent.length < hlit + hdist := Nat.not_lt.2 htotal.ge
    rw [List.flatMap_nil, past_nil, clSent]
    cases fuel with
    | zero => rfl
    | succ fuel => simp only [lengthsLoop, withSent, if_neg hend]
  | cons st rest ih =>
    obtain ⟨hst, hrest⟩ := Bool.and_eq_true_iff.1 hok
    rw [List.flatMap_cons, streamHas_append] at h
    obtain ⟨hhead, htail⟩ := h
    have hpos := clLengths_length_pos hst
    have hle := (length_le_clSent rest (sent ++ clLengths sent st)).trans htotal.le
    have hsum := List.length_append (as := sent) (bs := clLengths sent st)
    obtain ⟨fuel, rfl⟩ := Nat.exists_eq_add_one.2 (show 0 < fuel by omega)
    have hloop : lengthsLoop (fuel + 1) (withSent hlit hdist sent s) =
        ((clSymbol (withSent hlit hdist sent s)).bind lengthSymbol).bind fun _ s => lengthsLoop fuel s :=
      if_pos (by omega)
    rw [hloop, lengthSymbol_of_statement hcodes hlen hroom hst hle hhead, Res.bind_val,
      ih (s := s.past _) hcodes hroom hrest htotal (by omega) htail, past_past]
    rfl

/-! ### The two trees -/

/-- The lengths that were sent, read back from `lens`. -/
theorem lensSlice_withSent {hlit hdist start n : Nat} {sent : List Nat} {s : State} (hsent : ∀ v ∈ sent, v ≤ 15)
    (hin : start + n ≤ sent.length) :
    lensSlice start n (withSent hlit hdist sent s) = (sent.drop start).take n := by
  have hback : (sent.map (BitVec.ofNat 4)).map BitVec.toNat = sent := by
    rw [List.map_map]
    refine (List.map_congr_left fun v hv => ?_).trans (List.map_id sent)
    exact Nat.mod_eq_of_lt (Nat.lt_succ_of_le (hsent v hv))
  simp only [lensSlice, withSent]
  rw [List.drop_append_of_le_length (by rw [List.length_map]; omega),
    List.take_append_of_le_length (by rw [List.length_drop, List.length_map]; omega), List.map_take, List.map_drop, hback]

/-- A dynamic block's lengths without an error build a tree that passes its check. -/
theorem dynTreeError_eq_none {L : List Nat} :
    dynTreeError L = none ↔ ∃ tree, buildCanonicalTree L = some tree ∧ ¬(0 < tree.left ∧ 1 < tree.used) := by
  unfold dynTreeError
  cases buildCanonicalTree L with
  | none => simp
  | some tree => simp

/-- A dynamic block's lengths with an error build no tree, or one that fails its check. -/
theorem dynTreeError_eq_some {L : List Nat} {e : Err} :
    dynTreeError L = some e ↔ buildCanonicalTree L = none ∧ e = .invalidHuffmanTree ∨
      ∃ tree, buildCanonicalTree L = some tree ∧ (0 < tree.left ∧ 1 < tree.used) ∧ e = .invalidCodeLengths := by
  unfold dynTreeError
  cases buildCanonicalTree L with
  | none => simp [eq_comm]
  | some tree => simp [eq_comm]

theorem checkTree_passes {tree : HTree} (h : ¬(0 < tree.left ∧ 1 < tree.used)) (s : State) : checkTree tree s = .val () s := if_neg h

theorem checkTree_fails {tree : HTree} (h : 0 < tree.left ∧ 1 < tree.used) (s : State) :
    checkTree tree s = .err .invalidCodeLengths s := if_pos h

section

variable {L : List Nat} {s : State}

theorem buildLitTree_val {tree : HTree} (hbuild : buildCanonicalTree L = some tree) (hcheck : ¬(0 < tree.left ∧ 1 < tree.used)) :
    buildLitTree L s = .val () { s with litTree := tree } := by
  simp only [buildLitTree, hbuild, checkTree_passes hcheck]

theorem buildDistTree_val {tree : HTree} (hbuild : buildCanonicalTree L = some tree) (hcheck : ¬(0 < tree.left ∧ 1 < tree.used)) :
    buildDistTree L s = .val () { s with distTree := tree } := by
  simp only [buildDistTree, hbuild, checkTree_passes hcheck]

theorem buildLitTree_err {e : Err} (h : dynTreeError L = some e) :
    ∃ tree, buildLitTree L s = .err e { s with litTree := tree } := by
  rcases dynTreeError_eq_some.1 h with ⟨hbuild, rfl⟩ | ⟨tree, hbuild, hcheck, rfl⟩
  · exact ⟨Config.freeTree s.draw, by simp only [buildLitTree, hbuild]⟩
  · exact ⟨tree, by simp only [buildLitTree, hbuild, checkTree_fails hcheck]⟩

theorem buildDistTree_err {e : Err} (h : dynTreeError L = some e) :
    ∃ tree, buildDistTree L s = .err e { s with distTree := tree } := by
  rcases dynTreeError_eq_some.1 h with ⟨hbuild, rfl⟩ | ⟨tree, hbuild, hcheck, rfl⟩
  · exact ⟨Config.freeTree s.draw, by simp only [buildDistTree, hbuild]⟩
  · exact ⟨tree, by simp only [buildDistTree, hbuild, checkTree_fails hcheck]⟩

end

section

variable {hlit hdist : Nat} {sent : List Nat} {s : State} (hsent : ∀ v ∈ sent, v ≤ 15) (htotal : sent.length = hlit + hdist)
include hsent htotal

/-- Past all lengths of a header, its first tree is built of the first HLIT of them (42_blocks.md R329). -/
theorem dynTrees_withSent :
    dynTrees (withSent hlit hdist sent s) =
      (buildLitTree (sent.take hlit) (withSent hlit hdist sent s)).bind fun _ s =>
      (buildDistTree (lensSlice hlit hdist s) s).bind fun _ s =>
      .val () { s with litSel := true, distSel := true, phase := .dynCodes, inner := .none } := by
  have hslice := lensSlice_withSent (hlit := hlit) (hdist := hdist) (start := 0) (n := hlit) (s := s) hsent (by omega)
  rw [List.drop_zero] at hslice
  rw [← hslice]
  rfl

/-- The second tree is built of the others. -/
theorem lensSlice_withSent_dist (lit : HTree) :
    lensSlice hlit hdist { withSent hlit hdist sent s with litTree := lit } = sent.drop hlit := by
  have hslice := lensSlice_withSent (hlit := hlit) (hdist := hdist) (start := hlit) (n := hdist) (s := s) hsent htotal.ge
  exact hslice.trans (List.take_of_length_le (by rw [List.length_drop]; omega))

theorem dynTrees_val {lit dist : HTree} (hlitBuild : buildCanonicalTree (sent.take hlit) = some lit)
    (hlitCheck : ¬(0 < lit.left ∧ 1 < lit.used)) (hdistBuild : buildCanonicalTree (sent.drop hlit) = some dist)
    (hdistCheck : ¬(0 < dist.left ∧ 1 < dist.used)) :
    dynTrees (withSent hlit hdist sent s) = .val () { withSent hlit hdist sent s with
      litTree := lit, distTree := dist, litSel := true, distSel := true, phase := .dynCodes, inner := .none } := by
  rw [dynTrees_withSent hsent htotal, buildLitTree_val hlitBuild hlitCheck, Res.bind_val, lensSlice_withSent_dist hsent htotal,
    buildDistTree_val hdistBuild hdistCheck, Res.bind_val]

theorem dynTrees_err {e : Err} (h : dynTreeError (sent.take hlit) = some e ∨
      dynTreeError (sent.take hlit) = none ∧ dynTreeError (sent.drop hlit) = some e) :
    ∃ lit dist, dynTrees (withSent hlit hdist sent s) =
      .err e { withSent hlit hdist sent s with litTree := lit, distTree := dist } := by
  rw [dynTrees_withSent hsent htotal]
  rcases h with hlitErr | ⟨hlitOk, hdistErr⟩
  · obtain ⟨lit, hlitTree⟩ := buildLitTree_err (s := withSent hlit hdist sent s) hlitErr
    exact ⟨lit, s.distTree, by rw [hlitTree]; rfl⟩
  · obtain ⟨lit, hbuild, hcheck⟩ := dynTreeError_eq_none.1 hlitOk
    obtain ⟨dist, hdistTree⟩ := buildDistTree_err (s := { withSent hlit hdist sent s with litTree := lit }) hdistErr
    refine ⟨lit, dist, ?_⟩
    rw [buildLitTree_val hbuild hcheck, Res.bind_val, lensSlice_withSent_dist hsent htotal, hdistTree]
    rfl

end

/-! ### The whole header -/

theorem exec_dynHeader {s : State} {r : Res Unit} (h : dynHeader s = r) : exec .dynHeader s = finish r := congrArg finish h

/-- A header that the stream holds, up to its trees: its code-length code is built, and the lengths of its statements are read. -/
theorem dynHeader_of_streamHas {s : State} {hlit hdist : Nat} {cl : List Nat} {prog : List Stmt} {clen : HTree}
    (hcounts : countsInRange hlit hdist cl) (hlens : s.lens.length = 320) (hclen : buildCanonicalTree (clenOf cl) = some clen)
    (hprog : clProgOk (clenOf cl) prog [] = true) (htotal : (clSent prog []).length = hlit + hdist)
    (h : s.streamHas (dynHeaderBits hlit hdist cl prog)) :
    dynHeader s = dynTrees (withSent hlit hdist (clSent prog [])
      { s.past (dynHeaderBits hlit hdist cl prog) with clenTree := clen }) := by
  obtain ⟨hfields, hsyms⟩ := streamHas_append.1 h
  obtain ⟨-, hlitMax, -, hdistMax, -, -, hcl⟩ := id hcounts
  have hroom : hlit + hdist ≤ s.lens.length := by omega
  have hdynCounts : dynCounts s =
      .val () (withSent hlit hdist [] { s.past (dynCountBits hlit hdist cl) with clenTree := clen }) := by
    rw [dynCounts_of_streamHas hcounts hfields]
    simp only [buildClenTree, hclen]
    rfl
  have hloop := lengthsLoop_of_statements (s := { s.past (dynCountBits hlit hdist cl) with clenTree := clen }) (fuel := hlit + hdist)
    (codes_clenOf hcl hclen) (length_clenOf cl) hroom hprog htotal (by simp) hsyms
  rw [dynHeader, hdynCounts, Res.bind_val, show lengthsToCome _ = hlit + hdist from rfl, hloop, Res.bind_val, dynHeaderBits,
    ← past_past]
  rfl

end Sys2Proof.Machine

namespace Sys2Proof.Proofs

open Sys2Proof.Machine

/-- Settles O22: the header is read up to its trees, and both of them build and pass their check. -/
theorem dynHeader : Obligations.DynHeader := by
  unfold Obligations.DynHeader
  intro s hlit hdist cl prog clen lit dist hcounts hlens hclen hprog htotal hlitBuild hlitCheck hdistBuild hdistCheck hstream
  have hsent : ∀ v ∈ clSent prog [], v ≤ 15 := clSent_le hprog nofun
  have hheader := dynHeader_of_streamHas hcounts hlens hclen hprog htotal hstream
  rw [dynTrees_val hsent htotal hlitBuild hlitCheck hdistBuild hdistCheck] at hheader
  refine ⟨_, exec_dynHeader hheader, ?_, ?_, ?_⟩
  · refine (lensSlice_withSent (hlit := hlit) (hdist := hdist) (start := 0) (s := s) hsent (by omega)).trans ?_
    rw [List.drop_zero, List.take_of_length_le htotal.le]
  · rw [← htotal]
    exact List.drop_left' (List.length_map _)
  · generalize dynHeaderBits hlit hdist cl prog = bits
    rfl

/-- Settles O23: the header is read up to its trees, of which one has an error. -/
theorem dynTreeErrors : Obligations.DynTreeErrors := by
  unfold Obligations.DynTreeErrors
  intro s hlit hdist cl prog clen e hcounts hlens hclen hprog htotal hstream herr
  have hheader := dynHeader_of_streamHas hcounts hlens hclen hprog htotal hstream
  obtain ⟨lit, dist, htrees⟩ := dynTrees_err (clSent_le hprog nofun) htotal herr
  refine ⟨_, exec_dynHeader (hheader.trans htrees), ?_⟩
  generalize dynHeaderBits hlit hdist cl prog = bits
  rfl

/-- Settles O24: the counts and the code-length code are read, and its tree is not built. -/
theorem clenTreeError : Obligations.ClenTreeError := by
  unfold Obligations.ClenTreeError
  intro s hlit hdist cl hcounts hclen hstream
  have hcountsRead := dynCounts_of_streamHas hcounts hstream
  have hheader : Machine.dynHeader s = .err .invalidHuffmanTree
      { s.past (dynCountBits hlit hdist cl) with clenTree := Config.freeTree s.draw } := by
    rw [Machine.dynHeader, hcountsRead]
    simp only [buildClenTree, hclen]
    rfl
  refine ⟨_, exec_dynHeader hheader, ?_⟩
  generalize dynCountBits hlit hdist cl = bits
  rfl

end Sys2Proof.Proofs
end

