-- ==== Sys2Proof/Proofs/BlockElements.lean ====
section
/-! PROOF. The block header and the stored body (O14, O15, O16, O17; 42_blocks.md R300 to R307). -/

namespace Sys2Proof.Machine

/-! ### The block header -/

/-- The three bits of a header, BFINAL and then BTYPE (42_blocks.md R300). -/
theorem headerBits_val {s : State} (h : s.hasBits 3) :
    headerBits s = .val (inBit s s.bitpos.toNat + 2 * (inBit s (s.bitpos.toNat + 1) + 2 * inBit s (s.bitpos.toNat + 2)))
      (setCursor (s.bitpos.toNat + 3) s) := by
  have hfinal : s.hasBits 1 := by omega
  have hcursor : (setCursor (s.bitpos.toNat + 1) s).bitpos.toNat = s.bitpos.toNat + 1 := setCursor_toNat hfinal
  have htype : (setCursor (s.bitpos.toNat + 1) s).hasBits 2 := by rw [State.hasBits, hcursor, setCursor_inLen]; omega
  rw [headerBits, readBits_eq_val.2 ⟨hfinal, rfl, rfl⟩, Res.bind_val, readBits_eq_val.2 ⟨htype, rfl, rfl⟩, Res.bind_val, hcursor]
  rfl

/-- BTYPE is missing: the cursor is past BFINAL (40_bit_reader.md R202). -/
theorem headerBits_no_type {s : State} (h1 : s.hasBits 1) (h3 : ¬s.hasBits 3) :
    headerBits s = .err .unexpectedEndOfInput (setCursor (s.bitpos.toNat + 1) s) := by
  have hcursor : (setCursor (s.bitpos.toNat + 1) s).bitpos.toNat = s.bitpos.toNat + 1 := setCursor_toNat h1
  have htype : ¬(setCursor (s.bitpos.toNat + 1) s).hasBits 2 := by rw [State.hasBits, hcursor, setCursor_inLen]; omega
  rw [headerBits, readBits_eq_val.2 ⟨h1, rfl, rfl⟩, Res.bind_val, readBits_eq_err.2 ⟨htype, rfl, rfl⟩, Res.bind_err]

theorem headerBits_no_final {s : State} (h : ¬s.hasBits 1) : headerBits s = .err .unexpectedEndOfInput s := by
  rw [headerBits, readBits_eq_err.2 ⟨h, rfl, rfl⟩, Res.bind_err]

/-- What a header's three bits decode to, and what that does: the phase its type gives, or `InvalidBlockType` (42_blocks.md R300,
R301). -/
theorem exec_header {f t : Nat} (hf : f < 2) (ht : t < 4) (s : State) :
    ∃ i, decode .hdr (f + 2 * t) = .ok i ∧ exec i s = .next (
      if BitVec.ofNat 2 t = 0#2 then { latchHeader (BitVec.ofNat 1 f) (BitVec.ofNat 2 t) s with phase := .stored }
      else if BitVec.ofNat 2 t = 1#2 then
        { latchHeader (BitVec.ofNat 1 f) (BitVec.ofNat 2 t) s with litSel := false, distSel := false, phase := .fixedCodes }
      else if BitVec.ofNat 2 t = 2#2 then { latchHeader (BitVec.ofNat 1 f) (BitVec.ofNat 2 t) s with phase := .dynHeader }
      else raise .invalidBlockType (latchHeader (BitVec.ofNat 1 f) (BitVec.ofNat 2 t) s)) := by
  have hbit : BitVec.ofNat 1 (f + 2 * t) = BitVec.ofNat 1 f := by
    apply BitVec.eq_of_toNat_eq
    simp only [BitVec.toNat_ofNat]
    omega
  have htype : (f + 2 * t) / 2 = t := by omega
  simp only [decode, decodeHdr, if_neg (show ¬8 ≤ f + 2 * t by omega), htype, hbit]
  interval_cases t
  · exact ⟨_, rfl, rfl⟩
  · exact ⟨_, rfl, rfl⟩
  · exact ⟨_, rfl, rfl⟩
  · exact ⟨_, rfl, rfl⟩

theorem decoded_val {f : Format} {w : Nat} {i : Instr} (hdecode : decode f w = .ok i) (s : State) :
    decoded f (.val w s) = .run i s := by
  simp only [decoded, hdecode]

/-- Between two elements of an INFLATE the core's next move is the one that `phase` gives. -/
theorem coreMove_of_inflate {s : State} (hinner : s.inner = .none) (hop : s.lastOp = some .inflate) : coreMove s = inflateMove s := by
  simp only [coreMove, hinner, hop]

theorem inflateMove_of_header {s : State} (hphase : s.phase = .header) : inflateMove s = decoded .hdr (headerBits s) := by
  simp only [inflateMove, hphase]

/-! ### The stored body's reads -/

/-- The state with the cursor at the start of byte `n` of IN. -/
def State.atByte (s : State) (n : Nat) : State := setCursor (8 * n) s

section

variable {s : State} {n : Nat}

theorem bitpos_atByte (h : n ≤ s.inLen.toNat) : (s.atByte n).bitpos.toNat = 8 * n := setCursor_toNat (by omega)

theorem readBits_atByte_val (h : n + 2 ≤ s.inLen.toNat) :
    readBits 16 (s.atByte n) = .val (bitsAt s (8 * n) 16) (s.atByte (n + 2)) := by
  have hcursor : (s.atByte n).bitpos.toNat = 8 * n := bitpos_atByte (by omega)
  refine readBits_eq_val.2 ⟨?_, ?_, ?_⟩
  · rw [State.hasBits, hcursor, State.atByte, setCursor_inLen]
    omega
  · rw [hcursor]
    exact (bitsAt_congr rfl rfl ..).symm
  · rw [hcursor]
    rfl

theorem readBits_atByte_err (hn : n ≤ s.inLen.toNat) (h : s.inLen.toNat < n + 2) :
    readBits 16 (s.atByte n) = .err .unexpectedEndOfInput (s.atByte n) := by
  refine readBits_eq_err.2 ⟨?_, rfl, rfl⟩
  rw [State.hasBits, bitpos_atByte hn, State.atByte, setCursor_inLen]
  omega

/-! ### The stored body's copy -/

theorem storedCopy_short {len : Nat} (hn : n ≤ s.inLen.toNat) (h : s.inLen.toNat < n + len) :
    storedCopy len (s.atByte n) = .err .unexpectedEndOfInput (s.atByte n) := by
  simp only [storedCopy, bitpos_atByte hn, Nat.mul_div_cancel_left n (by decide : 0 < 8)]
  exact if_pos h

theorem storedCopy_overflow {len : Nat} (hin : n + len ≤ s.inLen.toNat) (h : s.outMax.toNat < s.outLen.toNat + len) :
    storedCopy len (s.atByte n) = .err .outputOverflow (s.atByte n) := by
  simp only [storedCopy, bitpos_atByte (Nat.le_of_add_right_le hin), Nat.mul_div_cancel_left n (by decide : 0 < 8)]
  exact (if_neg (Nat.not_lt.2 hin)).trans (if_pos h)

theorem storedCopy_fits {len : Nat} (hin : n + len ≤ s.inLen.toNat) (hout : s.outLen.toNat + len ≤ s.outMax.toNat) :
    storedCopy len (s.atByte n) = .val () (setCursor (8 * (n + len)) (storedLoop len n (s.atByte n))) := by
  simp only [storedCopy, bitpos_atByte (Nat.le_of_add_right_le hin), Nat.mul_div_cancel_left n (by decide : 0 < 8), Nat.mul_add]
  exact (if_neg (Nat.not_lt.2 hin)).trans (if_neg (Nat.not_lt.2 hout))

end

section

variable {s : State} {n : Nat} (hroom : s.outLen.toNat + n ≤ s.outMax.toNat)
include hroom

/-- A stored copy of `n` bytes writes the `n` bytes of OUT from OUT_LEN on, and no other. -/
theorem byteAt_storedLoop_other {b a : Nat} (h : a < s.outLen.toNat ∨ s.outLen.toNat + n ≤ a) :
    byteAt (storedLoop n b s) .out a = byteAt s .out a := by
  induction n generalizing s b with
  | zero => rfl
  | succ n ih =>
    have hlen := outAppend_outLen_toNat (byteAt s .inp b) (s := s) (by omega)
    rw [storedLoop, ih (by rw [hlen, outAppend_outMax]; omega) (by rw [hlen]; omega), byteAt_outAppend_other _ _ (by omega)]

/-- Byte `k` of a stored copy is byte `k` of the data. -/
theorem byteAt_storedLoop_new {b k : Nat} (hk : k < n) :
    byteAt (storedLoop n b s) .out (s.outLen.toNat + k) = byteAt s .inp (b + k) := by
  induction n generalizing s b k with
  | zero => omega
  | succ n ih =>
    have hlen := outAppend_outLen_toNat (byteAt s .inp b) (s := s) (by omega)
    have hroom' : (outAppend (byteAt s .inp b) s).outLen.toNat + n ≤ (outAppend (byteAt s .inp b) s).outMax.toNat := by
      rw [hlen, outAppend_outMax]
      omega
    rw [storedLoop]
    cases k with
    | zero => exact (byteAt_storedLoop_other hroom' (.inl (by omega))).trans (byteAt_outAppend_same ..)
    | succ k =>
      have hbyte := ih hroom' (b := b + 1) (k := k) (by omega)
      rwa [hlen, byteAt_outAppend_inp, Nat.add_right_comm, Nat.add_right_comm b] at hbyte

end

/-! ### The end of a block -/

section

variable (s : State)

@[simp] theorem endOfBlock_bitpos : (endOfBlock s).bitpos = s.bitpos := by
  unfold endOfBlock
  split <;> rfl

@[simp] theorem endOfBlock_outLen : (endOfBlock s).outLen = s.outLen := by
  unfold endOfBlock
  split <;> rfl

@[simp] theorem endOfBlock_outMem : (endOfBlock s).outMem = s.outMem := by
  unfold endOfBlock
  split <;> rfl

@[simp] theorem byteAt_endOfBlock (sp : Space) (i : Nat) : byteAt (endOfBlock s) sp i = byteAt s sp i := by
  unfold endOfBlock
  split <;> rfl

end

/-- The end of a block whose body has moved the cursor and appended to OUT (42_blocks.md R302). -/
theorem endOfBlock_of_frame {s v : State} (hv : v = { s with bitpos := v.bitpos, outMem := v.outMem, outLen := v.outLen }) :
    endOfBlock v = if s.bfinal = 1#1 then
      { s with bitpos := v.bitpos, outMem := v.outMem, outLen := v.outLen, blkcnt := s.blkcnt + 1#24, phase := .done,
               ok := true, err := false, busy := false, intDone := true }
    else { s with bitpos := v.bitpos, outMem := v.outMem, outLen := v.outLen, blkcnt := s.blkcnt + 1#24, phase := .header } := by
  generalize v.bitpos = p, v.outMem = m, v.outLen = l at hv ⊢
  subst hv
  rfl

/-! ### The stored body -/

section

variable {s : State} {b : Nat} (hb : b = (s.bitpos.toNat + 7) / 8)
include hb

theorem alignToByte_eq_atByte : alignToByte s = s.atByte b := by
  rw [hb]
  rfl

/-- LEN is read at the byte boundary, and NLEN after it (42_blocks.md R303, R304). -/
theorem storedBody_eq {len nlen : Nat} (hlen : len = bitsAt s (8 * b) 16) (hnlen : nlen = bitsAt s (8 * (b + 2)) 16)
    (h : b + 4 ≤ s.inLen.toNat) :
    storedBody s =
      if len ≠ nlen ^^^ 0xFFFF then .err .invalidStoredBlockLength (s.atByte (b + 4))
      else (storedCopy len (s.atByte (b + 4))).bind fun _ s => .val () (endOfBlock s) := by
  rw [storedBody, alignToByte_eq_atByte hb, readBits_atByte_val (by omega), Res.bind_val, readBits_atByte_val (by omega), Res.bind_val, ← hlen,
    ← hnlen]

theorem storedBody_no_len (hn : b ≤ s.inLen.toNat) (h : s.inLen.toNat < b + 2) :
    storedBody s = .err .unexpectedEndOfInput (s.atByte b) := by
  rw [storedBody, alignToByte_eq_atByte hb, readBits_atByte_err hn h, Res.bind_err]

theorem storedBody_no_nlen (hn : b + 2 ≤ s.inLen.toNat) (h : s.inLen.toNat < b + 4) :
    storedBody s = .err .unexpectedEndOfInput (s.atByte (b + 2)) := by
  rw [storedBody, alignToByte_eq_atByte hb, readBits_atByte_val hn, Res.bind_val, readBits_atByte_err hn h, Res.bind_err]

end

theorem exec_storedBody {s : State} {r : Res Unit} (h : storedBody s = r) : exec .storedBody s = finish r := congrArg finish h

end Sys2Proof.Machine

namespace Sys2Proof.Proofs

open Sys2Proof.Machine

/-- Settles O15: each of the four rows writes its registers by its definition. -/
theorem blockHeaders : Obligations.BlockHeaders := by
  unfold Obligations.BlockHeaders
  exact fun f s => ⟨rfl, rfl, rfl, rfl⟩

/-- Settles O14: the three bits, as far as they are there, are read and decoded, and the header's row runs. -/
theorem headerStep : Obligations.HeaderStep := by
  unfold Obligations.HeaderStep
  intro s hturn hop hphase p ty u
  obtain ⟨-, hinner, -⟩ := id hturn
  have hmove : coreMove (tick s) = decoded .hdr (headerBits (tick s)) := by
    rw [coreMove_of_inflate (s := tick s) hinner hop, inflateMove_of_header (s := tick s) hphase]
  rw [step_of_coreTurn hturn, hmove]
  refine ⟨fun h3 => ?_, fun h1 h3 => ?_, fun h1 => ?_⟩
  · rw [headerBits_val (s := tick s) h3]
    have hfirst := inBit_lt (tick s) ((tick s).bitpos.toNat + 1)
    have hsecond := inBit_lt (tick s) ((tick s).bitpos.toNat + 2)
    obtain ⟨i, hdecode, hexec⟩ := exec_header (inBit_lt (tick s) (tick s).bitpos.toNat)
      (t := inBit (tick s) ((tick s).bitpos.toNat + 1) + 2 * inBit (tick s) ((tick s).bitpos.toNat + 2)) (by omega)
      (setCursor ((tick s).bitpos.toNat + 3) (tick s))
    rw [decoded_val hdecode]
    exact hexec
  · rw [headerBits_no_type (s := tick s) h1 h3]
    rfl
  · rw [headerBits_no_final (s := tick s) h1]
    rfl

/-- Settles O16: LEN, NLEN and the data are there and there is room, so the data are copied and the block ends. -/
theorem storedBody : Obligations.StoredBody := by
  unfold Obligations.StoredBody
  intro s b len hb hlen hcompl hin hroom
  rw [← bitsAt_two_bytes] at hlen hcompl
  rw [exec_storedBody (storedBody_eq hb hlen rfl (by omega)), if_neg (not_not.2 hcompl), storedCopy_fits hin hroom]
  have hframe := storedLoop_frame len (b + 4) (s.atByte (b + 4))
  have houtLen := storedLoop_outLen (n := len) (b := b + 4) (s := s.atByte (b + 4)) hroom
  have hnew {k : Nat} (hk : k < len) := byteAt_storedLoop_new (s := s.atByte (b + 4)) hroom (b := b + 4) hk
  have hother {a : Nat} (ha) := byteAt_storedLoop_other (s := s.atByte (b + 4)) hroom (b := b + 4) (a := a) ha
  have hinLen : (storedLoop len (b + 4) (s.atByte (b + 4))).inLen = s.inLen := by
    rw [hframe]
    rfl
  generalize storedLoop len (b + 4) (s.atByte (b + 4)) = v at *
  refine ⟨endOfBlock (setCursor (8 * (b + 4 + len)) v), rfl, ?_, ?_, fun k hk => ?_, fun a ha => ?_, ?_⟩
  · rw [endOfBlock_bitpos]
    exact setCursor_toNat (by rw [hinLen]; omega)
  · rw [endOfBlock_outLen]
    exact houtLen
  · rw [byteAt_endOfBlock]
    exact hnew hk
  · rw [byteAt_endOfBlock]
    exact hother ha
  · rw [endOfBlock_bitpos, endOfBlock_outLen, endOfBlock_outMem]
    exact endOfBlock_of_frame (s := s) (congrArg (setCursor _) hframe)

/-- Settles O17: each read and each check in its order. -/
theorem storedErrors : Obligations.StoredErrors := by
  unfold Obligations.StoredErrors
  intro s b len nlen hcursor hb hlen hnlen
  rw [← bitsAt_two_bytes] at hlen hnlen
  refine ⟨fun h => ?_, fun h h' => ?_, fun h hne => ?_, fun h heq hshort => ?_, fun heq hin hroom => ?_⟩
  · exact exec_storedBody (storedBody_no_len hb (by omega) h)
  · exact exec_storedBody (storedBody_no_nlen hb h h')
  · exact exec_storedBody ((storedBody_eq hb hlen hnlen h).trans (if_pos hne))
  · rw [exec_storedBody (storedBody_eq hb hlen hnlen h), if_neg (not_not.2 heq), storedCopy_short h hshort]
    rfl
  · rw [exec_storedBody (storedBody_eq hb hlen hnlen (by omega)), if_neg (not_not.2 heq), storedCopy_overflow hin hroom]
    rfl

end Sys2Proof.Proofs
end

