-- ==== Sys2Proof/Proofs/Answers.lean ====
section
/-! PROOF. Each part of an INFLATE element, run in its place, answers with a value or an error and moves the cursor no further back: what
O37 and O38 (Progress.lean) rest on (40_bit_reader.md R202; 42_blocks.md R332). -/

namespace Sys2Proof.Machine

/-! ### What a part of an element answers -/

/-- A part of an element answers with `V` or with an error; it does not stop. -/
inductive Res.Answers {α : Type} (V : α → State → Prop) : Res α → Prop
  | val {a : α} {t : State} (h : V a t) : Res.Answers V (.val a t)
  | err {e : Err} {t : State} : Res.Answers V (.err e t)

theorem Res.Answers.bind {α β : Type} {V : α → State → Prop} {W : β → State → Prop} {r : Res α} {k : α → State → Res β}
    (hr : r.Answers V) (hk : ∀ a t, V a t → (k a t).Answers W) : (r.bind k).Answers W := by
  cases hr with
  | val h => exact hk _ _ h
  | err => exact .err

theorem Res.Answers.imp {α : Type} {V W : α → State → Prop} {r : Res α} (hr : r.Answers V) (h : ∀ a t, V a t → W a t) :
    r.Answers W := by
  cases hr with
  | val hv => exact .val (h _ _ hv)
  | err => exact .err

/-- `t` is `s` further on in the same element: the cursor is no further back, and `phase` is the same. -/
structure State.Onto (s t : State) : Prop where
  cursor : s.bitpos.toNat ≤ t.bitpos.toNat
  phase : t.phase = s.phase

theorem State.Onto.trans {s t u : State} (h1 : s.Onto t) (h2 : t.Onto u) : s.Onto u :=
  ⟨h1.cursor.trans h2.cursor, h2.phase.trans h1.phase⟩

/-! ### Reads -/

theorem readBits_answers (n : Nat) (s : State) :
    (readBits n s).Answers fun v t =>
      v < 2 ^ n ∧ ∃ p, t = setCursor p s ∧ t.bitpos.toNat = s.bitpos.toNat + n := by
  rcases hread : readBits n s with ⟨v, t⟩ | ⟨e, t⟩ | f
  · obtain ⟨hbits, rfl, rfl⟩ := readBits_eq_val.1 hread
    exact .val ⟨bitsAt_lt .., _, rfl, setCursor_toNat hbits⟩
  · exact .err
  · exact absurd hread (readBits_ne_stop n s f)

/-- A built tree of an alphabet gives symbols of that alphabet, each of at least one bit (41_huffman.md R263). -/
theorem symbolBelow_answers {limit : Nat} {tree : HTree} (htree : tree.builtFrom limit) (s : State) :
    (symbolBelow limit tree s).Answers fun sym t =>
      sym < limit ∧ ∃ p, t = setCursor p s ∧ s.bitpos.toNat < t.bitpos.toNat := by
  obtain ⟨L, hlimit, hcodes⟩ := htree
  rcases decodeLoop_cases tree.symbol tree.count 0 0 0 s with ⟨sym, t, hval, -⟩ | ⟨e, t, herr, -⟩
  · obtain ⟨⟨hlt, hpos, hstream⟩, ht⟩ := Proofs.decodedIsCanonical L tree s t sym hcodes hval
    have hsym : sym < limit := hlt.trans_le hlimit
    have hbits : s.hasBits (L.getD sym 0) := by
      have := hstream.1
      rwa [symbolBits, length_codeBits] at this
    have hcursor : t.bitpos.toNat = s.bitpos.toNat + L.getD sym 0 := by
      rw [ht]
      exact setCursor_toNat hbits
    rw [symbolBelow, decodeSymbol, hval, Res.bind_val, if_pos hsym]
    exact .val ⟨hsym, _, ht, by omega⟩
  · rw [symbolBelow, decodeSymbol, herr, Res.bind_err]
    exact .err

/-! ### Copies -/

theorem storedCopy_answers (len : Nat) (s : State) : (storedCopy len s).Answers fun _ t => s.Onto t := by
  unfold storedCopy
  dsimp only
  split
  · exact .err
  split
  · exact .err
  · have hin := s.inLen.isLt
    refine .val ⟨?_, ?_⟩
    · rw [setCursor_bitpos, BitVec.toNat_ofNat]
      omega
    · rw [setCursor_phase, storedLoop_frame]

theorem copyMatch_answers (length distance : Nat) (s : State) : (copyMatch length distance s).Answers fun _ t => s.Onto t := by
  unfold copyMatch
  split
  · exact .err
  split
  · exact .err
  · rw [copyLoop_frame]
    exact .val ⟨le_rfl, rfl⟩

/-! ### The dynamic header -/

/-- Inside the lengths of a dynamic header, with its code-length tree built and the cursor past bit `p`. -/
structure State.AtLengths (p : Nat) (s : State) : Prop where
  inner : ∃ hlit hdist i, s.inner = .lengths hlit hdist i
  tree : s.clenTree.builtFrom 19
  cursor : p < s.bitpos.toNat

theorem State.AtLengths.setCursor {p q : Nat} {s : State} (h : s.AtLengths p) (hq : s.bitpos.toNat ≤ (setCursor q s).bitpos.toNat) :
    (setCursor q s).AtLengths p := ⟨h.inner, h.tree, h.cursor.trans_le hq⟩

section

variable {p : Nat} {s : State} (h : s.AtLengths p)
include h

theorem putLengths_answers (v : BitVec 4) (r : Nat) : (putLengths v r s).Answers fun _ t => t.AtLengths p := by
  obtain ⟨hlit, hdist, i, hinner⟩ := h.inner
  by_cases hfits : i + r ≤ hlit + hdist
  · rw [putLengths_fits hinner hfits]
    exact .val ⟨⟨_, _, _, rfl⟩, h.tree, h.cursor⟩
  · rw [putLengths_over hinner (Nat.lt_of_not_le hfits)]
    exact .err

theorem repeatRun_answers (v : BitVec 4) (base extra : Nat) : (repeatRun v base extra s).Answers fun _ t => t.AtLengths p := by
  refine (readBits_answers extra s).bind fun rep t ⟨_, q, ht, hcursor⟩ => ?_
  subst ht
  exact putLengths_answers (h.setCursor (by omega)) _ _

theorem lengthSymbol_answers (sym : Nat) : (lengthSymbol sym s).Answers fun _ t => t.AtLengths p := by
  obtain ⟨hlit, hdist, i, hinner⟩ := h.inner
  unfold lengthSymbol
  split
  · exact putLengths_answers h _ _
  split
  · by_cases hi : i = 0
    · rw [copyPrevious_first hinner hi]
      exact .err
    · rw [copyPrevious_eq_repeatRun hinner hi]
      exact repeatRun_answers h ..
  split
  · rw [zeroRun_eq_repeatRun hinner]
    exact repeatRun_answers h ..
  · rw [zeroRun_eq_repeatRun hinner]
    exact repeatRun_answers h ..

theorem lengthsLoop_answers (fuel : Nat) : (lengthsLoop fuel s).Answers fun _ t => t.AtLengths p := by
  induction fuel generalizing s with
  | zero => exact .val h
  | succ fuel ih =>
    obtain ⟨hlit, hdist, i, hinner⟩ := h.inner
    simp only [lengthsLoop, hinner]
    split
    · have hsymbol : ((clSymbol s).bind lengthSymbol).Answers fun _ t => t.AtLengths p :=
        (symbolBelow_answers h.tree s).bind fun sym t ⟨_, q, ht, hcursor⟩ => by
          subst ht
          exact lengthSymbol_answers (h.setCursor hcursor.le) sym
      exact hsymbol.bind fun _ _ => ih
    · exact .val h

end

theorem buildLitTree_answers (L : List Nat) (s : State) :
    (buildLitTree L s).Answers fun _ t => ∃ tree, t = { s with litTree := tree } := by
  cases herror : dynTreeError L with
  | none =>
    obtain ⟨tree, hbuild, hcheck⟩ := dynTreeError_eq_none.1 herror
    rw [buildLitTree_val hbuild hcheck]
    exact .val ⟨tree, rfl⟩
  | some e =>
    obtain ⟨tree, hbuild⟩ := buildLitTree_err (s := s) herror
    rw [hbuild]
    exact .err

theorem buildDistTree_answers (L : List Nat) (s : State) :
    (buildDistTree L s).Answers fun _ t => ∃ tree, t = { s with distTree := tree } := by
  cases herror : dynTreeError L with
  | none =>
    obtain ⟨tree, hbuild, hcheck⟩ := dynTreeError_eq_none.1 herror
    rw [buildDistTree_val hbuild hcheck]
    exact .val ⟨tree, rfl⟩
  | some e =>
    obtain ⟨tree, hbuild⟩ := buildDistTree_err (s := s) herror
    rw [hbuild]
    exact .err

theorem dynTrees_answers {p : Nat} {s : State} (h : s.AtLengths p) :
    (dynTrees s).Answers fun _ t => p < t.bitpos.toNat ∧ t.phase = .dynCodes := by
  obtain ⟨hlit, hdist, i, hinner⟩ := h.inner
  simp only [dynTrees, hinner]
  refine (buildLitTree_answers _ s).bind fun _ t ⟨lit, ht⟩ => ?_
  subst ht
  refine (buildDistTree_answers _ _).bind fun _ u ⟨dist, hu⟩ => ?_
  subst hu
  exact .val ⟨h.cursor, rfl⟩

/-- The code-length code lengths are of three bits each (42_blocks.md R321). -/
theorem readClen_answers {clen : List Nat} (syms : List Nat) (hclen : ∀ l ∈ clen, l ≤ 15) (s : State) :
    (readClen syms clen s).Answers fun lens t =>
      lens.length = clen.length ∧ (∀ l ∈ lens, l ≤ 15) ∧ s.bitpos.toNat ≤ t.bitpos.toNat := by
  induction syms generalizing clen s with
  | nil => exact .val ⟨rfl, hclen, le_rfl⟩
  | cons sym syms ih =>
    refine (readBits_answers 3 s).bind fun len t ⟨hlen, q, _, hcursor⟩ => ?_
    refine (ih (clen := clen.set sym len) (fun l hl => ?_) t).imp fun lens u ⟨hlength, hlens, hu⟩ => ?_
    · rcases List.mem_or_eq_of_mem_set hl with hold | rfl
      · exact hclen l hold
      · omega
    · exact ⟨hlength.trans List.length_set, hlens, by omega⟩

theorem dynCounts_answers (s : State) : (dynCounts s).Answers fun _ t => t.AtLengths s.bitpos.toNat := by
  refine (readBits_answers 5 s).bind fun hlit5 t1 ⟨_, _, _, h1⟩ => (readBits_answers 5 t1).bind fun hdist5 t2 ⟨_, _, _, h2⟩ => ?_
  refine (readBits_answers 4 t2).bind fun hclen4 t3 ⟨_, _, _, h3⟩ => ?_
  refine (readClen_answers _ (fun l hl => ?_) t3).bind fun clen t4 ⟨hlength, hclen, h4⟩ => ?_
  · rw [List.eq_of_mem_replicate hl]
    exact Nat.zero_le _
  · unfold buildClenTree
    split
    · exact .err
    · rename_i tree hbuild
      have hlen : clen.length ≤ 19 := by rw [hlength, List.length_replicate]
      exact .val ⟨⟨_, _, _, rfl⟩, ⟨clen, hlen, hclen, hbuild⟩, show s.bitpos.toNat < t4.bitpos.toNat by omega⟩

theorem dynHeader_answers (s : State) :
    (dynHeader s).Answers fun _ t => s.bitpos.toNat < t.bitpos.toNat ∧ t.phase = .dynCodes :=
  (dynCounts_answers s).bind fun _ _ h => (lengthsLoop_answers h _).bind fun _ _ h => dynTrees_answers h

/-! ### Symbols -/

theorem literal_answers (byte : Byte) (s : State) : (literal byte s).Answers fun _ t => s.Onto t := by
  unfold literal
  split
  · exact .err
  · exact .val ⟨le_rfl, rfl⟩

theorem distanceSymbol_answers {s : State} {length : Nat} (hinner : s.inner = .distance length) (dsym : Nat) :
    (distanceSymbol dsym s).Answers fun _ t => s.Onto t := by
  simp only [distanceSymbol, hinner]
  split
  · exact .err
  · refine (readBits_answers _ s).bind fun dx t ⟨_, q, ht, hcursor⟩ => ?_
    subst ht
    exact (copyMatch_answers _ _ _).imp fun _ _ => State.Onto.trans ⟨by omega, rfl⟩

/-- A back-reference answers where the distance tree in use is built (43_symbols_window.md R357). -/
theorem backReference_answers {s : State} (htree : (distTreeInUse s).builtFrom 32) (sym : Nat) :
    (backReference sym s).Answers fun _ t => s.Onto t := by
  have hlength : (lengthPart sym s).Answers fun _ t =>
      s.Onto t ∧ (distTreeInUse t).builtFrom 32 ∧ ∃ length, t.inner = .distance length := by
    refine (readBits_answers _ s).bind fun lx t ⟨_, q, ht, hcursor⟩ => ?_
    subst ht
    exact .val ⟨⟨show s.bitpos.toNat ≤ (setCursor q s).bitpos.toNat by omega, rfl⟩, htree, _, rfl⟩
  refine hlength.bind fun _ t ⟨honto, htree, length, hinner⟩ => ?_
  refine (symbolBelow_answers htree t).bind fun dsym u ⟨_, q, hu, hcursor⟩ => ?_
  subst hu
  exact (distanceSymbol_answers (s := setCursor q t) hinner dsym).imp fun _ _ =>
    State.Onto.trans (honto.trans ⟨hcursor.le, rfl⟩)

end Sys2Proof.Machine
end

