-- ==== Sys2Proof/Proofs/Progress.lean ====
section
/-! PROOF. Each element of a running INFLATE moves the cursor on or ends the command, and so every INFLATE ends (O37, O38; 42_blocks.md
R332; 60_exceptions.md R520, R521). -/

namespace Sys2Proof.Machine

/-! ### How an element ends -/

/-- The command is over, well or in error (60_exceptions.md R520, R521). -/
abbrev State.ended (s : State) : Prop :=
  s.busy = false ∧ (s.phase = .done ∧ s.ok = true ∧ s.err = false ∨ s.phase = .error ∧ s.ok = false ∧ s.err = true)

/-- The cursor is past bit `p`, and the INFLATE runs on or is over. -/
abbrev State.beyond (p : Nat) (s : State) : Prop := p < s.bitpos.toNat ∧ (s.running = true ∨ s.ended)

/-- What an element of a running INFLATE comes to: an error, or the cursor past bit `p`. -/
abbrev State.wentOn (p : Nat) (s : State) : Prop := s.ended ∧ s.err = true ∨ s.beyond p

theorem raise_wentOn (p : Nat) (e : Err) (s : State) : (raise e s).wentOn p := .inl ⟨⟨rfl, .inr ⟨rfl, rfl, rfl⟩⟩, rfl⟩

theorem State.Onto.beyond {p : Nat} {s t : State} (h : s.Onto t) (hp : p < s.bitpos.toNat) (hrun : s.running = true) :
    t.beyond p := by
  refine ⟨hp.trans_le h.cursor, .inl ?_⟩
  rw [State.running, h.phase]
  exact hrun

theorem endOfBlock_beyond {p : Nat} {s : State} (hp : p < s.bitpos.toNat) : (endOfBlock s).beyond p := by
  by_cases hfinal : s.bfinal = 1#1
  · rw [endOfBlock_final hfinal]
    exact ⟨hp, .inr ⟨rfl, .inl ⟨rfl, rfl, rfl⟩⟩⟩
  · rw [endOfBlock_more hfinal]
    exact ⟨hp, .inl rfl⟩

/-- An outcome is a next state that satisfies `P`. -/
def Yields (P : State → Prop) (o : Host.Outcome State Fault Refusal) : Prop := ∃ t, o = .next t ∧ P t

theorem finish_yields {p : Nat} {r : Res Unit} (hr : r.Answers fun _ t => t.beyond p) : Yields (State.wentOn p) (finish r) := by
  cases hr with
  | val h => exact ⟨_, rfl, .inr h⟩
  | err => exact ⟨_, rfl, raise_wentOn ..⟩

/-! ### The elements -/

theorem storedBody_answers {s : State} (hin : s.bitpos.toNat ≤ 8 * s.inLen.toNat) :
    (storedBody s).Answers fun _ t => t.beyond s.bitpos.toNat := by
  have haligned : s.bitpos.toNat ≤ (alignToByte s).bitpos.toNat := by
    rw [alignToByte_toNat hin, ceil8]
    omega
  refine (readBits_answers 16 _).bind fun len t ⟨_, _, _, ht⟩ => (readBits_answers 16 t).bind fun nlen u ⟨_, _, _, hu⟩ => ?_
  split
  · exact .err
  · exact (storedCopy_answers len u).bind fun _ v hv => .val (endOfBlock_beyond (by have := hv.cursor; omega))

/-- A literal/length symbol, run past its code. -/
theorem exec_llsym_yields {i : Instr} (hi : i.format = .llsym) {p : Nat} {s : State} (hp : p < s.bitpos.toNat)
    (hrun : s.running = true) (htree : (distTreeInUse s).builtFrom 32) : Yields (State.wentOn p) (exec i s) := by
  have element {r : Res Unit} (hr : r.Answers fun _ t => s.Onto t) : Yields (State.wentOn p) (finish r) :=
    finish_yields (hr.imp fun _ _ h => h.beyond hp hrun)
  cases i with
  | lit b => exact element (literal_answers b s)
  | eob => exact ⟨_, rfl, .inr (endOfBlock_beyond hp)⟩
  | len257 | len258 | len259 | len260 | len261 | len262 | len263 | len264 | len265 | len266 | len267 | len268 | len269 | len270
  | len271 | len272 | len273 | len274 | len275 | len276 | len277 | len278 | len279 | len280 | len281 | len282 | len283 | len284
  | len285 => exact element (backReference_answers htree _)
  | illegalLen286 | illegalLen287 => exact element .err
  | _ => cases hi

/-! ### The next element -/

/-- A move is made, or runs an instruction that answers, with a state that satisfies `P`. -/
inductive Move.Yields (P : State → Prop) : Move → Prop
  | run {i : Instr} {s : State} (h : Machine.Yields P (exec i s)) : Move.Yields P (.run i s)
  | made {s : State} (h : P s) : Move.Yields P (.made s)

/-- The next state of the core's turn is what its move yields. -/
theorem step_yields {P : State → Prop} {s : State} (hturn : s.coreTurn) (h : (coreMove (tick s)).Yields P) : Yields P (step s) := by
  rw [step_of_coreTurn hturn]
  generalize coreMove (tick s) = m at h ⊢
  cases h with
  | run h => exact h
  | made h => exact ⟨_, rfl, h⟩

theorem headerBits_yields {p : Nat} {s : State} (hp : p = s.bitpos.toNat) :
    (decoded .hdr (headerBits s)).Yields (State.wentOn p) := by
  by_cases h3 : s.hasBits 3
  case neg =>
    by_cases h1 : s.hasBits 1
    · rw [headerBits_no_type h1 h3]
      exact .made (raise_wentOn ..)
    · rw [headerBits_no_final h1]
      exact .made (raise_wentOn ..)
  have hfirst := inBit_lt s (s.bitpos.toNat + 1)
  have hsecond := inBit_lt s (s.bitpos.toNat + 2)
  have hcursor : p < (setCursor (s.bitpos.toNat + 3) s).bitpos.toNat := by
    rw [setCursor_toNat h3]
    omega
  obtain ⟨i, hdecode, hexec⟩ := exec_header (inBit_lt s s.bitpos.toNat)
    (t := inBit s (s.bitpos.toNat + 1) + 2 * inBit s (s.bitpos.toNat + 2)) (by omega) (setCursor (s.bitpos.toNat + 3) s)
  rw [headerBits_val h3, decoded_val hdecode]
  refine .run ⟨_, hexec, ?_⟩
  split_ifs
  · exact .inr ⟨hcursor, .inl rfl⟩
  · exact .inr ⟨hcursor, .inl rfl⟩
  · exact .inr ⟨hcursor, .inl rfl⟩
  · exact raise_wentOn ..

/-- Every symbol of the literal/length alphabet is an instruction (30_encoding.md R160). -/
theorem exists_decode_llsym {sym : Nat} (h : sym < 288) : ∃ i, decode .llsym sym = .ok i := by
  simp only [decode, decodeLlsym]
  split_ifs with hlit heob
  · exact ⟨_, rfl⟩
  · exact ⟨_, rfl⟩
  · have hlen : sym - 257 < lengthInstrs.length := by
      rw [show lengthInstrs.length = 31 from rfl]
      omega
    rw [List.getElem?_eq_getElem hlen]
    exact ⟨_, rfl⟩

/-- An opcode that is read and decoded, and whose instruction answers. -/
theorem decoded_yields {p : Nat} {f : Format} {r : Res Nat}
    (hr : r.Answers fun w t => ∃ i, decode f w = .ok i ∧ Yields (State.wentOn p) (exec i t)) :
    (decoded f r).Yields (State.wentOn p) := by
  cases hr with
  | val h =>
    obtain ⟨i, hdecode, hexec⟩ := h
    rw [decoded_val hdecode]
    exact .run hexec
  | err => exact .made (raise_wentOn ..)

theorem litSymbol_yields {s : State} (hrun : s.running = true) (hlit : (litTreeInUse s).builtFrom 288)
    (hdist : (distTreeInUse s).builtFrom 32) : (decoded .llsym (litSymbol s)).Yields (State.wentOn s.bitpos.toNat) := by
  refine decoded_yields ((symbolBelow_answers hlit s).imp fun sym t ⟨hsym, q, ht, hcursor⟩ => ?_)
  subst ht
  obtain ⟨i, hdecode⟩ := exists_decode_llsym hsym
  obtain ⟨hformat, -⟩ := hasOpcode_of_decode hdecode
  exact ⟨i, hdecode, exec_llsym_yields hformat hcursor hrun hdist⟩

theorem fixedLit_builtFrom : fixedLit.builtFrom 288 := by
  refine ⟨fixedLitLengths, length_fixedLitLengths.le, fun l hl => ?_, fixedLit_built.1⟩
  simp only [fixedLitLengths, List.mem_append, List.mem_replicate] at hl
  omega

theorem fixedDist_builtFrom : fixedDist.builtFrom 32 := by
  refine ⟨fixedDistLengths, ?_, fun l hl => ?_, fixedDist_built.1⟩
  · rw [fixedDistLengths, List.length_replicate]
    decide
  · rw [List.eq_of_mem_replicate hl]
    decide

/-- In a symbol loop both trees in use are built (42_blocks.md R310, R329). -/
theorem treesInUse_builtFrom {s : State} (h : s.engineOk) (hphase : s.phase = .fixedCodes ∨ s.phase = .dynCodes) :
    (litTreeInUse s).builtFrom 288 ∧ (distTreeInUse s).builtFrom 32 := by
  obtain ⟨-, hfixed, hdyn⟩ := h
  rcases hphase with hphase | hphase
  · obtain ⟨hlitSel, hdistSel⟩ := hfixed hphase
    rw [litTreeInUse, distTreeInUse, hlitSel, hdistSel]
    exact ⟨fixedLit_builtFrom, fixedDist_builtFrom⟩
  · obtain ⟨hlitSel, hdistSel, hlit, hdist⟩ := hdyn hphase
    rw [litTreeInUse, distTreeInUse, hlitSel, hdistSel]
    exact ⟨hlit, hdist⟩

/-- Each element of a running INFLATE moves the cursor on, or ends the command in error (42_blocks.md R332). -/
theorem inflateMove_yields {s : State} (h : s.Inv) (hrun : s.running = true) :
    (inflateMove s).Yields (State.wentOn s.bitpos.toNat) := by
  obtain ⟨-, -, -, -, hengine, -⟩ := id h
  cases hphase : s.phase with
  | idle | done | error => simp [State.running, hphase] at hrun
  | header =>
    rw [inflateMove_of_header hphase]
    exact headerBits_yields rfl
  | stored =>
    have hmove : inflateMove s = .run .storedBody s := by
      simp only [inflateMove, hphase]
      rfl
    obtain ⟨-, -, -, hin⟩ := (h.ready_of_phase hrun (by simp [hphase])).live
    rw [hmove]
    exact .run (finish_yields (storedBody_answers hin))
  | dynHeader =>
    have hmove : inflateMove s = .run .dynHeader s := by
      simp only [inflateMove, hphase]
      rfl
    rw [hmove]
    exact .run (finish_yields ((dynHeader_answers s).imp fun _ t ⟨hcursor, hp⟩ => ⟨hcursor, .inl (by rw [State.running, hp])⟩))
  | fixedCodes | dynCodes =>
    obtain ⟨hlit, hdist⟩ := treesInUse_builtFrom hengine (by simp [hphase])
    simp only [inflateMove, hphase]
    exact litSymbol_yields hrun hlit hdist

/-- A step of the core while an INFLATE is past its start. -/
theorem step_wentOn {s : State} (h : s.Inv) (hrun : s.running = true) (hhost : s.host = []) :
    Yields (State.wentOn s.bitpos.toNat) (step s) := by
  obtain ⟨-, -, -, -, ⟨hrunning, -, -⟩, -, hinner⟩ := id h
  obtain ⟨hbusy, hop⟩ := hrunning hrun
  refine step_yields ⟨hbusy, hinner, hhost⟩ ?_
  rw [coreMove_of_inflate (s := tick s) hinner hop]
  exact inflateMove_yields (s := tick s) h hrun

/-! ### What the elements of an INFLATE leave -/

/-- An opcode that is read in a format decodes to an instruction of that format. -/
theorem format_of_decoded {f : Format} {r : Res Nat} {i : Instr} {u : State} (h : decoded f r = .run i u) : i.format = f := by
  unfold decoded at h
  split at h
  · cases h
  · cases h
  · split at h
    · rename_i hdecode
      obtain ⟨rfl, -⟩ := Move.run.inj h
      obtain ⟨hformat, -⟩ := hasOpcode_of_decode hdecode
      exact hformat
    · cases h

/-- The core never runs RESET by itself. -/
theorem inflateMove_ne_reset {i : Instr} {s u : State} (h : inflateMove s = .run i u) : i ≠ .reset := by
  rintro rfl
  cases hphase : s.phase with
  | idle | done | error =>
    simp only [inflateMove, hphase] at h
    cases h
  | header | stored | dynHeader | fixedCodes | dynCodes =>
    simp only [inflateMove, hphase] at h
    cases format_of_decoded h

/-- An element of an INFLATE writes what is the core's to write. -/
theorem step_coreWrites {s t : State} (hturn : s.coreTurn) (hop : s.lastOp = some .inflate) (hstep : step s = .next t) :
    CoreWrites (tick s) t := by
  obtain ⟨-, hinner, -⟩ := id hturn
  have hleaves := inflateMove_leaves (coreWrites_keptByElements (tick s)) (.refl (tick s))
  rw [step_of_coreTurn hturn, coreMove_of_inflate (s := tick s) hinner hop] at hstep
  cases hmove : inflateMove (tick s) with
  | run i u =>
    rw [hmove] at hleaves hstep
    cases hleaves with
    | run hu => exact hu.trans (exec_coreWrites (inflateMove_ne_reset hmove) u t hstep)
  | made u =>
    rw [hmove] at hleaves hstep
    obtain rfl := Host.Outcome.next.inj hstep
    cases hleaves with
    | made hu => exact hu
  | fault f =>
    rw [hmove] at hstep
    cases hstep
  | refused r =>
    rw [hmove] at hstep
    cases hstep

/-! ### The whole INFLATE -/

/-- A run of one step and then `k` more. -/
theorem run_succ {s t : State} (hstep : step s = .next t) (k : Nat) :
    Host.Core.run core (k + 1) s = Host.Core.run core k t := by
  have hcore : core.step s = .next t := hstep
  simp only [Host.Core.run, hcore]

/-- The bits that the input still holds past the cursor. -/
def State.bitsLeft (s : State) : Nat := 8 * s.inLen.toNat - s.bitpos.toNat

/-- A running INFLATE has no more bits left than it had at its start (40_bit_reader.md R205). -/
theorem bitsLeft_le {s : State} (h : s.Inv) (hrun : s.running = true) :
    s.bitsLeft ≤ 8 * (s.inLen.toNat - s.inStart.toNat) := by
  obtain ⟨-, -, -, -, -, hcursor, -⟩ := h
  have hcur := hcursor hrun
  unfold State.bitsLeft
  split at hcur <;> omega

/-- After an element of a running INFLATE the command is over, or fewer bits are left. -/
theorem step_ended_or_fewer_bitsLeft {s : State} (h : s.Inv) (hrun : s.running = true) (hhost : s.host = []) :
    ∃ t, step s = .next t ∧
      (t.ended ∨ t.Inv ∧ t.running = true ∧ t.host = [] ∧ t.bitsLeft < s.bitsLeft) := by
  obtain ⟨t, hstep, ⟨hended, -⟩ | ⟨hon, hrun' | hended⟩⟩ := step_wentOn h hrun hhost
  · exact ⟨t, hstep, .inl hended⟩
  · have ht : t.Inv := Proofs.invStep s t h hstep
    obtain ⟨-, -, -, -, ⟨hrunning, -, -⟩, hcursor, hinner⟩ := id h
    obtain ⟨-, -, -, -, -, hcursor', -⟩ := id ht
    obtain ⟨hbusy, hop⟩ := hrunning hrun
    have hwrites := step_coreWrites ⟨hbusy, hinner, hhost⟩ hop hstep
    have hlen : t.inLen = s.inLen := by rw [show t = _ from hwrites]; rfl
    have hstart : t.inStart = s.inStart := by rw [show t = _ from hwrites]; rfl
    have hhost' : t.host = s.host := by rw [show t = _ from hwrites]; rfl
    refine ⟨t, hstep, .inr ⟨ht, hrun', hhost'.trans hhost, ?_⟩⟩
    have hcur := hcursor hrun
    have hcur' := hcursor' hrun'
    rw [hlen, hstart] at hcur'
    rw [State.bitsLeft, State.bitsLeft, hlen]
    split at hcur'
    · omega
    · rename_i hpast
      rw [if_neg hpast] at hcur
      omega
  · exact ⟨t, hstep, .inl hended⟩

/-- Past its start, with fewer than `m` bits left, an INFLATE is over within `m` elements. -/
theorem running_ends {m : Nat} {s : State} (h : s.Inv) (hrun : s.running = true) (hhost : s.host = []) (hm : s.bitsLeft < m) :
    ∃ k t, k ≤ m ∧ Host.Core.run core k s = .next t ∧ t.ended := by
  induction m generalizing s with
  | zero => omega
  | succ m ih =>
    obtain ⟨t, hstep, hended | ⟨ht, hrun', hhost', hfewer⟩⟩ := step_ended_or_fewer_bitsLeft h hrun hhost
    · exact ⟨1, t, by omega, run_succ hstep 0, hended⟩
    · obtain ⟨k, u, hk, hrunk, hended⟩ := ih ht hrun' hhost' (by omega)
      exact ⟨k + 1, u, by omega, (run_succ hstep k).trans hrunk, hended⟩

/-- The start element of an INFLATE just accepted: the command is over, or past its start (45_commands.md R452; 43_symbols_window.md
R367). -/
theorem step_start {s : State} (hturn : s.coreTurn) (hop : s.lastOp = some .inflate) (hidle : s.running = false) :
    ∃ t, step s = .next t ∧
      (t.ended ∨ t.running = true ∧ t.host = [] ∧ t.inLen = s.inLen ∧ t.inStart = s.inStart) := by
  obtain ⟨-, hinner, hhost⟩ := id hturn
  have hmove : inflateMove (tick s) = .run .inflate (tick s) := by
    unfold inflateMove
    cases hphase : s.phase with
    | idle | done | error => simp only [tick_phase, hphase]
    | _ => simp [State.running, hphase] at hidle
  rw [step_of_coreTurn hturn, coreMove_of_inflate (s := tick s) hinner hop, hmove]
  simp only [exec, execInflate]
  split
  · exact ⟨_, rfl, .inl ⟨rfl, .inr ⟨rfl, rfl, rfl⟩⟩⟩
  · exact ⟨_, rfl, .inr ⟨rfl, hhost, rfl, rfl⟩⟩

end Sys2Proof.Machine

namespace Sys2Proof.Proofs

open Sys2Proof.Machine

/-- Settles O37: an element that has not failed is past the bit it began at. -/
theorem progress : Obligations.Progress := by
  unfold Obligations.Progress
  intro s t h hrun hhost hstep
  obtain ⟨u, hu, hwent⟩ := step_wentOn h hrun hhost
  obtain rfl := Host.Outcome.next.inj (hstep.symm.trans hu)
  exact hwent.imp (·.2) (·.1)

/-- Settles O38: the start is one element, and each element after it leaves fewer bits or is the last. -/
theorem inflateEnds : Obligations.InflateEnds := by
  unfold Obligations.InflateEnds
  intro s h hturn hop
  obtain ⟨-, -, hhost⟩ := id hturn
  cases hrun : s.running with
  | true =>
    have hleft := bitsLeft_le h hrun
    obtain ⟨k, t, hk, hrunk, hended⟩ := running_ends h hrun hhost (Nat.lt_succ_self _)
    exact ⟨k, t, by omega, hrunk, hended⟩
  | false =>
    obtain ⟨t, hstep, hended | ⟨hrun', hhost', hlen, hstart⟩⟩ := step_start hturn hop hrun
    · exact ⟨1, t, by omega, run_succ hstep 0, hended⟩
    · have ht : t.Inv := invStep s t h hstep
      have hleft := bitsLeft_le ht hrun'
      rw [hlen, hstart] at hleft
      obtain ⟨k, u, hk, hrunk, hended⟩ := running_ends ht hrun' hhost' (Nat.lt_succ_self _)
      exact ⟨k + 1, u, by omega, (run_succ hstep k).trans hrunk, hended⟩

end Sys2Proof.Proofs
end

