-- ==== Sys2Proof/Proofs/Window.lean ====
section
/-! PROOF. What the symbols write to OUT: the literal and the overlapping copy of a back-reference, and the tables of lengths and
distances (O26, O31; 43_symbols_window.md R350, R353, R358 to R363). -/

namespace Sys2Proof.Machine

/-! ### The history -/

theorem hlen_outAppend {s : State} (b : Byte) (hroom : s.outLen.toNat + 1 ≤ s.outMax.toNat) :
    (outAppend b s).hlen = s.hlen + 1 := by
  rw [State.hlen, State.hlen, outAppend_outLen_toNat b hroom, outAppend_dictLen, Nat.add_assoc]

theorem hist_of_dict {s : State} {i : Nat} (h : i < s.dictLen.toNat) : hist s i = byteAt s .dict i := if_pos h

theorem hist_of_out {s : State} {i : Nat} (h : s.dictLen.toNat ≤ i) : hist s i = byteAt s .out (i - s.dictLen.toNat) :=
  if_neg (Nat.not_lt.2 h)

/-- An appended byte leaves the history before it. -/
theorem hist_outAppend_of_lt {s : State} {i : Nat} (b : Byte) (h : i < s.hlen) : hist (outAppend b s) i = hist s i := by
  rw [State.hlen] at h
  rcases Nat.lt_or_ge i s.dictLen.toNat with hdict | hout
  · rw [hist_of_dict hdict, hist_of_dict (s := outAppend b s) hdict, byteAt_outAppend_dict]
  · rw [hist_of_out hout, hist_of_out (s := outAppend b s) hout, outAppend_dictLen, byteAt_outAppend_other _ _ (by omega)]

/-- An appended byte is the next of the history. -/
theorem hist_outAppend_hlen (b : Byte) (s : State) : hist (outAppend b s) s.hlen = b := by
  have hout : (outAppend b s).dictLen.toNat ≤ s.hlen := Nat.le_add_right ..
  rw [hist_of_out hout, outAppend_dictLen, State.hlen, Nat.add_sub_cancel_left, byteAt_outAppend_same]

/-! ### The copy -/

section

variable {s : State} {n distance : Nat} (hroom : s.outLen.toNat + n ≤ s.outMax.toNat)
include hroom

/-- A copy of `n` bytes writes the `n` bytes of OUT from OUT_LEN on, and no other. -/
theorem byteAt_copyLoop_other {a : Nat} (h : a < s.outLen.toNat ∨ s.outLen.toNat + n ≤ a) :
    byteAt (copyLoop n distance s) .out a = byteAt s .out a := by
  induction n generalizing s with
  | zero => rfl
  | succ n ih =>
    have hlen := outAppend_outLen_toNat (hist s (s.hlen - distance)) (s := s) (by omega)
    rw [copyLoop, ih (by rw [hlen, outAppend_outMax]; omega) (by rw [hlen]; omega), byteAt_outAppend_other _ _ (by omega)]

/-- The copy repeats the `distance` bytes of history before it: each byte appended is one that a later byte may copy
(43_symbols_window.md R358). -/
theorem byteAt_copyLoop_new (hpos : 0 < distance) (hfar : distance ≤ s.hlen) {j : Nat} (hj : j < n) :
    byteAt (copyLoop n distance s) .out (s.outLen.toNat + j) = hist s (s.hlen - distance + j % distance) := by
  induction n generalizing s j with
  | zero => omega
  | succ n ih =>
    have hroom1 : s.outLen.toNat + 1 ≤ s.outMax.toNat := by omega
    rw [copyLoop]
    generalize hb : hist s (s.hlen - distance) = b
    have hlen := outAppend_outLen_toNat b hroom1
    have hroom' : (outAppend b s).outLen.toNat + n ≤ (outAppend b s).outMax.toNat := by
      rw [hlen, outAppend_outMax]
      omega
    cases j with
    | zero =>
      rw [byteAt_copyLoop_other hroom' (.inl (by omega)), Nat.add_zero, byteAt_outAppend_same, Nat.zero_mod, Nat.add_zero, hb]
    | succ j =>
      have hhlen := hlen_outAppend b hroom1
      have hbyte := ih hroom' (by omega) (j := j) (by omega)
      rw [hlen, hhlen, Nat.add_assoc, Nat.add_comm 1 j] at hbyte
      rw [hbyte, ← Nat.mod_add_mod j distance 1]
      rcases Nat.lt_or_eq_of_le (Nat.succ_le_of_lt (Nat.mod_lt j hpos)) with hwithin | hwrap
      · rw [hist_outAppend_of_lt _ (by omega), Nat.mod_eq_of_lt hwithin]
        congr 1
        omega
      · have hlast : s.hlen + 1 - distance + j % distance = s.hlen := by omega
        rw [hlast, hist_outAppend_hlen, show j % distance + 1 = distance from hwrap, Nat.mod_self, Nat.add_zero, hb]

end

/-- `t` is `s` with the copy of a back-reference made and its element over (43_symbols_window.md R358). -/
structure State.Copied (length distance : Nat) (s t : State) : Prop where
  outLen : t.outLen.toNat = s.outLen.toNat + length
  new : ∀ j, j < length → byteAt t .out (s.outLen.toNat + j) = hist s (s.hlen - distance + j % distance)
  other : ∀ a, a < s.outLen.toNat ∨ s.outLen.toNat + length ≤ a → byteAt t .out a = byteAt s .out a
  frame : t = { s with outMem := t.outMem, outLen := t.outLen, inner := .none }

section

variable {s : State} {length distance : Nat}

theorem copyMatch_tooFar (h : s.hlen < distance) : copyMatch length distance s = .err .distanceTooFar s := if_pos h

variable (hfar : distance ≤ s.hlen)
include hfar

theorem copyMatch_overflow (h : s.outMax.toNat < s.outLen.toNat + length) :
    copyMatch length distance s = .err .outputOverflow s := (if_neg (Nat.not_lt.2 hfar)).trans (if_pos h)

theorem copyMatch_fits (hpos : 0 < distance) (hroom : s.outLen.toNat + length ≤ s.outMax.toNat) :
    ∃ t, copyMatch length distance s = .val () t ∧ s.Copied length distance t := by
  refine ⟨_, (if_neg (Nat.not_lt.2 hfar)).trans (if_neg (Nat.not_lt.2 hroom)), copyLoop_outLen hroom,
    fun j hj => byteAt_copyLoop_new hroom hpos hfar hj, fun a ha => byteAt_copyLoop_other hroom ha, ?_⟩
  rw [copyLoop_frame]

end

end Sys2Proof.Machine

namespace Sys2Proof.Proofs

open Sys2Proof.Machine

/-- Settles O26: the check of a literal, then one byte appended. -/
theorem literal : Obligations.Literal := by
  unfold Obligations.Literal
  refine fun b s => ⟨fun hroom => ?_, fun hfull => congrArg finish (if_pos hfull)⟩
  exact ⟨outAppend b s, congrArg finish (if_neg (Nat.not_lt.2 hroom)), outAppend_outLen_toNat b hroom,
    byteAt_outAppend_same b s, fun a ha => byteAt_outAppend_other b s ha, rfl⟩

/-- Settles O31: the four tables are constants. -/
theorem tables : Obligations.Tables := by
  unfold Obligations.Tables
  decide

end Sys2Proof.Proofs
end

