-- ==== Sys2Proof/Proofs/BackReferences.lean ====
section
/-! PROOF. The symbols of a block as elements: the distance symbols, the back-references, the illegal symbols, the end of a block, and
the step that runs them (O18, O27, O28, O29, O30, O32; 43_symbols_window.md R352 to R360). -/

namespace Sys2Proof.Machine

/-! ### Distance symbols -/

theorem exec_of_distanceInstrs {d : Nat} {i : Instr} (hi : distanceInstrs[d]? = some i) (s : State) :
    exec i s = finish (distanceSymbol d s) := by
  obtain ⟨-, hshared⟩ := Proofs.partsAreShared s d i
  exact hshared (by simp only [decode, decodeDsym, hi])

/-- Every distance is at least 1 (43_symbols_window.md R363). -/
theorem dbase_pos {d : Nat} (hd : d < 30) : 0 < dbase.getD d 0 := by
  obtain ⟨-, -, -, -, hrange⟩ := Proofs.tables
  obtain ⟨hpos, -⟩ := hrange d hd
  exact hpos

section

variable {s : State} {d length : Nat} (hinner : s.inner = .distance length)
include hinner

/-- Symbols 30 and 31 fail before any extra bits (43_symbols_window.md R356). -/
theorem distanceSymbol_illegal (hd : 30 ≤ d) : distanceSymbol d s = .err .invalidDistanceSymbol s := by
  simp only [distanceSymbol, hinner, if_pos hd]

theorem distanceSymbol_short (hd : d < 30) (hbits : ¬s.hasBits (dext.getD d 0)) :
    distanceSymbol d s = .err .unexpectedEndOfInput s := by
  simp only [distanceSymbol, hinner, if_neg (Nat.not_le.2 hd), readBits_eq_err.2 ⟨hbits, rfl, rfl⟩, Res.bind_err]

theorem distanceSymbol_of_readBits {dx : Nat} {t : State} (hd : d < 30) (hread : readBits (dext.getD d 0) s = .val dx t) :
    distanceSymbol d s = copyMatch length (dbase.getD d 0 + dx) t := by
  simp only [distanceSymbol, hinner, if_neg (Nat.not_le.2 hd), hread, Res.bind_val]

end

/-! ### Back-references -/

theorem exec_of_lengthInstrs {k : Nat} {i : Instr} (hk : k < 29) (hi : lengthInstrs[k]? = some i) (s : State) :
    exec i s = finish (backReference (257 + k) s) := by
  interval_cases k
  all_goals
    obtain rfl := Option.some.inj hi
    rfl

/-- The bits of a back-reference after its length code, up to its distance code (43_symbols_window.md R357). -/
abbrev lengthBits (k lx : Nat) : List Bool := fieldBits (lext.getD k 0) lx

/-- The bits of a back-reference after its length code, through its distance code. -/
abbrev matchCodeBits (k lx : Nat) (L : List Nat) (d : Nat) : List Bool := lengthBits k lx ++ symbolBits L d

/-- All bits of a back-reference after its length code. -/
abbrev matchBits (k lx : Nat) (L : List Nat) (d dx : Nat) : List Bool := matchCodeBits k lx L d ++ fieldBits (dext.getD d 0) dx

/-- The state past `bits`, inside a back-reference of this length (log entry 5). -/
def State.atDistance (s : State) (bits : List Bool) (length : Nat) : State := { s.past bits with inner := .distance length }

theorem atDistance_past (s : State) (a b : List Bool) (length : Nat) :
    (s.atDistance a length).past b = s.atDistance (a ++ b) length :=
  congrArg (fun u : State => { u with inner := .distance length }) (past_past s a b)

/-- An element's own length is gone when it fails (60_exceptions.md R520). -/
theorem raise_atDistance (e : Err) (s : State) (bits : List Bool) (length : Nat) :
    raise e (s.atDistance bits length) = raise e (s.past bits) := rfl

theorem past_fieldBits (s : State) (n v : Nat) : s.past (fieldBits n v) = setCursor (s.bitpos.toNat + n) s := by
  rw [State.past, length_fieldBits]

theorem hasBits_past {s : State} {bits : List Bool} (h : s.hasBits bits.length) (n : Nat) :
    (s.past bits).hasBits n ↔ s.hasBits (bits.length + n) := by
  rw [State.hasBits, bitpos_past h, Nat.add_assoc]
  rfl

theorem distSymbol_of_decodeSymbol {s t : State} {e : Err} (h : decodeSymbol (distTreeInUse s) s = .err e t) :
    distSymbol s = .err e t := by
  rw [distSymbol, symbolBelow, h, Res.bind_err]

theorem backReference_short {s : State} {k : Nat} (hbits : ¬s.hasBits (lext.getD k 0)) :
    backReference (257 + k) s = .err .unexpectedEndOfInput s := by
  rw [backReference, lengthPart, Nat.add_sub_cancel_left, readBits_eq_err.2 ⟨hbits, rfl, rfl⟩, Res.bind_err, Res.bind_err]

section

variable {s : State} {k lx : Nat} (hlx : lx < 2 ^ lext.getD k 0)
include hlx

theorem backReference_of_length (h : s.streamHas (lengthBits k lx)) :
    backReference (257 + k) s = (distSymbol (s.atDistance (lengthBits k lx) (lbase.getD k 0 + lx))).bind distanceSymbol := by
  rw [backReference, lengthPart, Nat.add_sub_cancel_left, readBits_fieldBits hlx h]
  rfl

variable {L : List Nat} (hcodes : (distTreeInUse s).codes L)
include hcodes

/-- A length that no distance code follows (41_huffman.md R261, R266; 60_exceptions.md R510). -/
theorem backReference_no_code (h : s.streamHas (lengthBits k lx))
    (hnone : ∀ d, ¬(setCursor (s.bitpos.toNat + lext.getD k 0) s).streamCodes L d) :
    (s.hasBits (lext.getD k 0 + 15) → finish (backReference (257 + k) s) =
      .next (raise .invalidCode (setCursor (s.bitpos.toNat + (lext.getD k 0 + 15)) s))) ∧
    (¬s.hasBits (lext.getD k 0 + 15) → finish (backReference (257 + k) s) =
      .next (raise .unexpectedEndOfInput (setCursor (8 * s.inLen.toNat) s))) := by
  have hcursor : (s.past (lengthBits k lx)).bitpos.toNat = s.bitpos.toNat + lext.getD k 0 := by
    rw [bitpos_past h.1, length_fieldBits]
  have hbits := hasBits_past h.1 15
  rw [length_fieldBits] at hbits
  rw [← past_fieldBits s (lext.getD k 0) lx] at hnone
  obtain ⟨hinvalid, hshort⟩ := Proofs.noCodeFails L _ (s.atDistance (lengthBits k lx) (lbase.getD k 0 + lx)) hcodes
    ((hasBits_past h.1 0).2 h.1) hnone
  rw [backReference_of_length hlx h, ← Nat.add_assoc, ← hcursor]
  refine ⟨fun h15 => ?_, fun h15 => ?_⟩
  · rw [distSymbol_of_decodeSymbol (hinvalid (hbits.2 h15))]
    rfl
  · rw [distSymbol_of_decodeSymbol (hshort (mt hbits.1 h15))]
    rfl

variable (hL : L.length ≤ 32) {d : Nat} (hd : d < L.length) (hpos : 0 < L.getD d 0)
include hL hd hpos

theorem backReference_of_code (h : s.streamHas (matchCodeBits k lx L d)) :
    backReference (257 + k) s = distanceSymbol d (s.atDistance (matchCodeBits k lx L d) (lbase.getD k 0 + lx)) := by
  obtain ⟨hlength, hcode⟩ := streamHas_append.1 h
  have hsymbol := symbolBelow_of_streamCodes hcodes hL (sym := d)
    (s := s.atDistance (lengthBits k lx) (lbase.getD k 0 + lx)) ⟨hd, hpos, hcode⟩
  rw [atDistance_past] at hsymbol
  rw [backReference_of_length hlx hlength]
  exact congrArg (·.bind distanceSymbol) hsymbol

theorem backReference_of_fields {dx : Nat} (hd30 : d < 30) (hdx : dx < 2 ^ dext.getD d 0)
    (h : s.streamHas (matchBits k lx L d dx)) :
    backReference (257 + k) s = copyMatch (lbase.getD k 0 + lx) (dbase.getD d 0 + dx)
      (s.atDistance (matchBits k lx L d dx) (lbase.getD k 0 + lx)) := by
  obtain ⟨hcode, hextra⟩ := streamHas_append.1 h
  have hread := readBits_fieldBits (s := s.atDistance (matchCodeBits k lx L d) (lbase.getD k 0 + lx)) hdx hextra
  rw [atDistance_past] at hread
  rw [backReference_of_code hlx hcodes hL hd hpos hcode]
  exact distanceSymbol_of_readBits rfl hd30 hread

end

/-! ### The symbol element -/

theorem inflateMove_of_symbols {s : State} (hphase : s.phase = .fixedCodes ∨ s.phase = .dynCodes) :
    inflateMove s = decoded .llsym (litSymbol s) := by
  rcases hphase with hphase | hphase
  · simp only [inflateMove, hphase]
  · simp only [inflateMove, hphase]

theorem past_symbolBits (s : State) (L : List Nat) (sym : Nat) :
    s.past (symbolBits L sym) = { s with bitpos := BitVec.ofNat 28 (s.bitpos.toNat + L.getD sym 0) } := by
  rw [State.past, symbolBits, length_codeBits]
  rfl

end Sys2Proof.Machine

namespace Sys2Proof.Proofs

open Sys2Proof.Machine

/-- Settles O18: the end of block, by `final`. -/
theorem endOfBlock : Obligations.EndOfBlock := by
  unfold Obligations.EndOfBlock
  refine fun s => ⟨fun hmore => ?_, fun hfinal => ?_⟩
  · have hne : s.bfinal ≠ 1#1 := by
      rw [hmore]
      decide
    exact congrArg Host.Outcome.next (endOfBlock_more hne)
  · exact congrArg Host.Outcome.next (endOfBlock_final hfinal)

/-- Settles O29: the distance's extra bits are read, and the copy's two checks and the copy follow. -/
theorem distanceSymbols : Obligations.DistanceSymbols := by
  unfold Obligations.DistanceSymbols
  rintro s d length distance i hd hi hinner rfl u
  have hmatch (hbits : s.hasBits (dext.getD d 0)) :
      distanceSymbol d s = copyMatch length (dbase.getD d 0 + bitsAt s s.bitpos.toNat (dext.getD d 0)) u :=
    distanceSymbol_of_readBits hinner hd (readBits_eq_val.2 ⟨hbits, rfl, rfl⟩)
  rw [exec_of_distanceInstrs hi]
  refine ⟨fun hbits hfar hroom => ?_, fun hshort => ?_, fun hbits hfar => ?_, fun hbits hfar hfull => ?_⟩
  · obtain ⟨t, hcopy, houtLen, hnew, hother, hframe⟩ := copyMatch_fits (s := u) hfar (Nat.add_pos_left (dbase_pos hd) _) hroom
    rw [hmatch hbits, hcopy]
    exact ⟨t, rfl, houtLen, hnew, hother, hframe⟩
  · rw [distanceSymbol_short hinner hd hshort, finish_err]
  · rw [hmatch hbits, copyMatch_tooFar (s := u) hfar, finish_err]
  · rw [hmatch hbits, copyMatch_overflow (s := u) hfar hfull, finish_err]

/-- Settles O27: the three fields are read, and the copy they name fits. -/
theorem backReference : Obligations.BackReference := by
  unfold Obligations.BackReference
  rintro s k lx d dx length distance i L hk hi hlx hcodes hd hd30 hpos hdx hstream hL rfl rfl hfar hroom
  rw [exec_of_lengthInstrs hk hi, backReference_of_fields hlx hcodes hL hd hpos hd30 hdx hstream]
  obtain ⟨t, hcopy, houtLen, hnew, hother, hframe⟩ := copyMatch_fits
    (s := s.atDistance (matchBits k lx L d dx) (lbase.getD k 0 + lx))
    hfar (Nat.add_pos_left (dbase_pos hd30) _) hroom
  rw [hcopy]
  refine ⟨t, rfl, houtLen, hnew, hother, ?_⟩
  have hbits : (matchBits k lx L d dx).length =
      lext.getD k 0 + L.getD d 0 + dext.getD d 0 := by
    simp only [List.length_append, length_fieldBits, symbolBits, length_codeBits]
  rw [← hbits]
  exact hframe

/-- Settles O28: each field and each check in its order. -/
theorem backReferenceErrors : Obligations.BackReferenceErrors := by
  unfold Obligations.BackReferenceErrors
  intro s k lx i L hk hi hlx hcodes hL hcursor past
  rw [exec_of_lengthInstrs hk hi]
  refine ⟨fun hshort => ?_, fun hlength hnone => ?_, ?_⟩
  · rw [backReference_short hshort, finish_err]
  · exact backReference_no_code hlx hcodes hlength hnone
  · rintro d dx length distance hd hpos hdx rfl rfl code
    have hcodeOf (h : s.streamHas code) := backReference_of_code hlx hcodes hL hd hpos h
    have hcopyOf (hd30 : d < 30) (h : s.streamHas (code ++ fieldBits (dext.getD d 0) dx)) :=
      backReference_of_fields hlx hcodes hL hd hpos hd30 hdx h
    have hpast : s.past (code ++ fieldBits (dext.getD d 0) dx) = past (code.length + dext.getD d 0) := by
      rw [State.past, List.length_append, length_fieldBits]
      rfl
    refine ⟨fun hd30 h => ?_, fun hd30 h hshort => ?_, fun hd30 h hfar => ?_, fun hd30 h hfar hfull => ?_⟩
    · rw [hcodeOf h, distanceSymbol_illegal rfl hd30, finish_err]
      rfl
    · rw [hcodeOf h, distanceSymbol_short (s := s.atDistance _ _) rfl hd30 (mt (hasBits_past h.1 _).1 hshort), finish_err]
      rfl
    · rw [hcopyOf hd30 h, copyMatch_tooFar (s := s.atDistance _ _) hfar, finish_err, raise_atDistance, hpast]
    · rw [hcopyOf hd30 h, copyMatch_overflow (s := s.atDistance _ _) hfar hfull, finish_err, raise_atDistance, hpast]

/-- Settles O30: 286 and 287 fail by their definitions, 30 and 31 at the check of the distance symbol. -/
theorem illegalSymbols : Obligations.IllegalSymbols := by
  unfold Obligations.IllegalSymbols
  exact fun s => ⟨rfl, rfl, fun length hinner =>
    ⟨congrArg finish (distanceSymbol_illegal hinner (by decide)), congrArg finish (distanceSymbol_illegal hinner (by decide))⟩⟩

/-- Settles O32: the code is read as its symbol, and the symbol's instruction runs past it. -/
theorem symbolStep : Obligations.SymbolStep := by
  unfold Obligations.SymbolStep
  intro s L sym i hturn hop hphase hcodes hL hstream hdecode
  obtain ⟨-, hinner, -⟩ := id hturn
  have hsymbol : litSymbol (tick s) = .val sym ((tick s).past (symbolBits L sym)) :=
    symbolBelow_of_streamCodes (s := tick s) hcodes hL hstream
  rw [step_of_coreTurn hturn, coreMove_of_inflate (s := tick s) hinner hop, inflateMove_of_symbols (s := tick s) hphase, hsymbol,
    decoded_val hdecode, past_symbolBits]
  rfl

end Sys2Proof.Proofs
end

