-- ==== Sys2Proof/Proofs/Checksums.lean ====
section
/-! PROOF. The two checksums: their chaining, the sums of Adler-32, the check values, and the failures of a checksum command (O44, O45,
O46, O47, O49; 44_checksums.md R400 to R422). -/

namespace Sys2Proof.Machine

/-! ### Adler-32 -/

theorem adlerLoop_append (x y : List Byte) (a b : Nat) :
    adlerLoop (x ++ y) a b = adlerLoop y (adlerLoop x a b).1 (adlerLoop x a b).2 := by
  induction x generalizing a b with
  | nil => rfl
  | cons c x ih => exact ih _ _

/-- One byte added to the two sums of Adler-32, neither of them reduced (44_checksums.md R402). -/
def adlerAdd (ab : Nat × Nat) (c : Byte) : Nat × Nat := (ab.1 + c.toNat, ab.2 + (ab.1 + c.toNat))

/-- The two sums of Adler-32 modulo 65521. -/
def adlerReduce (ab : Nat × Nat) : Nat × Nat := (ab.1 % adlerMod, ab.2 % adlerMod)

/-- A byte of the loop, from reduced sums, reduces the sums it would have given unreduced. -/
theorem adlerLoop_cons_reduce (c : Byte) (x : List Byte) (ab : Nat × Nat) :
    adlerLoop (c :: x) (adlerReduce ab).1 (adlerReduce ab).2 =
      adlerLoop x (adlerReduce (adlerAdd ab c)).1 (adlerReduce (adlerAdd ab c)).2 := by
  simp [adlerLoop, adlerReduce, adlerAdd, Nat.add_mod]

/-- The loop from reduced sums ends in the unreduced sums, reduced once. -/
theorem adlerLoop_reduce (x : List Byte) (ab : Nat × Nat) :
    adlerLoop x (adlerReduce ab).1 (adlerReduce ab).2 = adlerReduce (x.foldl adlerAdd ab) := by
  induction x generalizing ab with
  | nil => rfl
  | cons c x ih => rw [adlerLoop_cons_reduce, ih, List.foldl_cons]

/-- The two halves of a seed, `a` the lower (44_checksums.md R400). -/
def adlerHalves (seed : Word) : Nat × Nat := (seed.toNat % 65536, seed.toNat / 65536)

/-- The two sums that a call of Adler-32 ends with. -/
def adlerEnd (seed : Word) (x : List Byte) : Nat × Nat := adlerReduce (x.foldl adlerAdd (adlerHalves seed))

theorem adlerLoop_halves (seed : Word) (x : List Byte) :
    adlerLoop x (seed.toNat % 65536 % adlerMod) (seed.toNat / 65536 % adlerMod) = adlerEnd seed x :=
  adlerLoop_reduce x (adlerHalves seed)

theorem adlerEnd_lt (seed : Word) (x : List Byte) : (adlerEnd seed x).1 < 65521 ∧ (adlerEnd seed x).2 < 65521 :=
  ⟨Nat.mod_lt _ (by decide), Nat.mod_lt _ (by decide)⟩

/-- The two reduced sums fit the word, so the packing loses nothing. -/
theorem adler32_toNat (seed : Word) (x : List Byte) :
    (adler32 seed x).toNat = (adlerEnd seed x).2 * 65536 + (adlerEnd seed x).1 := by
  have hlt := adlerEnd_lt seed x
  rw [adler32, adlerLoop_halves, BitVec.toNat_ofNat]
  omega

theorem adlerHalves_adler32 (seed : Word) (x : List Byte) : adlerHalves (adler32 seed x) = adlerEnd seed x := by
  have hlt := adlerEnd_lt seed x
  rw [adlerHalves, adler32_toNat]
  exact Prod.ext (by dsimp only; omega) (by dsimp only; omega)

theorem adlerReduce_adlerEnd (seed : Word) (x : List Byte) : adlerReduce (adlerEnd seed x) = adlerEnd seed x := by
  simp [adlerEnd, adlerReduce]

/-- The seed's halves are reduced at the start of a call, which leaves the halves of a previous result as they are. -/
theorem adlerEnd_adler32 (seed : Word) (x y : List Byte) : adlerEnd (adler32 seed x) y = adlerEnd seed (x ++ y) := by
  calc adlerEnd (adler32 seed x) y
    _ = adlerLoop y (adlerEnd seed x).1 (adlerEnd seed x).2 := by
      rw [adlerEnd, ← adlerLoop_reduce, adlerHalves_adler32, adlerReduce_adlerEnd]
    _ = adlerEnd seed (x ++ y) := by
      rw [← adlerLoop_halves seed x, ← adlerLoop_append, adlerLoop_halves]

/-! ### CRC-32 -/

theorem crcLoop_append (x y : List Byte) (c : Word) : crcLoop (x ++ y) c = crcLoop y (crcLoop x c) := by
  induction x generalizing c with
  | nil => rfl
  | cons b x ih => exact ih _

/-! ### The checksum region -/

/-- CK_SRC selects IN, OUT or DICT, each with its valid length (44_checksums.md R420). -/
theorem checksumSource_eq_some {s : State} {sp : Space} {valid : Nat} :
    checksumSource s = some (sp, valid) ↔
      s.ckSrc = 0#2 ∧ sp = .inp ∧ valid = s.inLen.toNat ∨ s.ckSrc = 1#2 ∧ sp = .out ∧ valid = s.outLen.toNat ∨
      s.ckSrc = 2#2 ∧ sp = .dict ∧ valid = s.dictLen.toNat := by
  unfold checksumSource
  split_ifs with hin hout hdict
  · simp [hin, eq_comm]
  · simp [hout, eq_comm]
  · simp [hdict, eq_comm]
  · simp [hin, hout, hdict]

/-- A region is not read just when the source is reserved or the region ends past the valid length (44_checksums.md R420). -/
theorem checksumRegion_eq_none {s : State} :
    checksumRegion s = none ↔
      ∀ sp valid, checksumSource s = some (sp, valid) → valid < s.ckOff.toNat + s.ckLen.toNat := by
  unfold checksumRegion
  cases checksumSource s with
  | none => simp
  | some source =>
    obtain ⟨sp, valid⟩ := source
    simp

/-- A checksum command whose region is not read fails, and CK_RESULT stays (44_checksums.md R420; 60_exceptions.md R524). -/
theorem checksumCommand_of_not_read {s : State}
    (h : ∀ sp valid, checksumSource s = some (sp, valid) → valid < s.ckOff.toNat + s.ckLen.toNat)
    (op : Command) (f : List Byte → Word) :
    checksumCommand op f s = .next (raiseCommand .checksumRange (accept op s)) := by
  have hnone : checksumRegion (accept op s) = none := checksumRegion_eq_none.2 h
  rw [checksumCommand, hnone]

end Sys2Proof.Machine

namespace Sys2Proof.Proofs

open Sys2Proof.Machine

/-- Settles O44: both sides end the loop over `x ++ y` with the same sums. -/
theorem adlerChain : Obligations.AdlerChain := by
  unfold Obligations.AdlerChain
  intro seed x y
  apply BitVec.eq_of_toNat_eq
  rw [adler32_toNat, adler32_toNat, adlerEnd_adler32]

/-- Settles O45: the loop reduces, byte by byte, the sums that `adlerAdd` leaves unreduced. -/
theorem adlerSums : Obligations.AdlerSums := by
  unfold Obligations.AdlerSums
  exact adler32_toNat

/-- Settles O46: the final XOR of the first call cancels the initial XOR of the second. -/
theorem crcChain : Obligations.CrcChain := by
  unfold Obligations.CrcChain
  intro seed x y
  rw [crc32, crc32, crc32, BitVec.xor_assoc, BitVec.xor_self, BitVec.xor_zero, crcLoop_append]

set_option maxRecDepth 20000 in
/-- Settles O47: closed values, which both functions compute. The depth is for the 72 nested rounds of the nine-byte CRC. -/
theorem checkValues : Obligations.CheckValues := by
  unfold Obligations.CheckValues
  decide

/-- Settles O49: a region is read only within the memory that CK_SRC selects, which each case excludes, so both commands fail. -/
theorem checksumRange : Obligations.ChecksumRange := by
  unfold Obligations.ChecksumRange
  intro s hrange
  have hpast : ∀ sp valid, checksumSource s = some (sp, valid) → valid < s.ckOff.toNat + s.ckLen.toNat := by
    intro sp valid hsource
    rcases checksumSource_eq_some.1 hsource with ⟨hsrc, -, rfl⟩ | ⟨hsrc, -, rfl⟩ | ⟨hsrc, -, rfl⟩
    · simpa [hsrc] using hrange
    · simpa [hsrc] using hrange
    · simpa [hsrc] using hrange
  exact ⟨checksumCommand_of_not_read hpast .adler32 _, checksumCommand_of_not_read hpast .crc32 _⟩

end Sys2Proof.Proofs
end

