-- ==== Sys2Proof/Proofs/Commands.lean ====
section
/-! PROOF. The host commands and the step's dispatch: what a write to CMD does (O55), what each command's meaning does (O48, O50, O51, O52,
O54), and which instruction the core's next move runs (O33) (45_commands.md R450 to R458). -/

namespace Sys2Proof.Machine

/-! ### The move of a step -/

section
variable {s u : State} {i : Instr}

theorem step_eq_exec (hmove : nextMove s = .run i u) : step s = exec i u := by
  rw [step, hmove]

theorem step_eq_next_of_made (hmove : nextMove s = .made u) : step s = .next u :=
  step_eq_next.2 (.inr hmove)

/-- Between two elements, where the core moves next. -/
theorem step_eq_exec_of_coreTurn (hturn : s.coreTurn) (hmove : coreMove (tick s) = .run i u) : step s = exec i u := by
  rw [step_of_coreTurn hturn, hmove]

/-- Inside an element the core moves next, whatever the host has queued (10_state.md R34). -/
theorem step_eq_exec_of_inner (hbusy : s.busy = true) (hinner : s.inner ≠ .none) (hmove : coreMove (tick s) = .run i u) :
    step s = exec i u := by
  refine step_eq_exec ?_
  rw [nextMove, if_pos ⟨hbusy, hinner⟩, hmove]

/-- The element of an INFLATE that `phase` selects. -/
theorem step_eq_exec_of_inflate (hturn : s.coreTurn) (hop : s.lastOp = some .inflate)
    (hmove : inflateMove (tick s) = .run i u) : step s = exec i u := by
  obtain ⟨-, hinner, -⟩ := id hturn
  exact step_eq_exec_of_coreTurn hturn ((coreMove_of_inflate (s := tick s) hinner hop).trans hmove)

/-- An opcode that is read and decodes is the instruction to run. -/
theorem decoded_of_read {f : Format} {r : Res Nat} {w : Nat} (hread : r = .val w u) (hdecode : decode f w = .ok i) :
    decoded f r = .run i u := by
  rw [hread, decoded_val hdecode]

theorem coreMove_of_adler32 (hinner : s.inner = .none) (hop : s.lastOp = some .adler32) : coreMove s = .run .adler32 s := by
  simp only [coreMove, hinner, hop]

theorem coreMove_of_crc32 (hinner : s.inner = .none) (hop : s.lastOp = some .crc32) : coreMove s = .run .crc32 s := by
  simp only [coreMove, hinner, hop]

theorem coreMove_of_lengths {hlit hdist k : Nat} (hinner : s.inner = .lengths hlit hdist k) (hk : k < hlit + hdist) :
    coreMove s = decoded .clsym (clSymbol s) := by
  simp only [coreMove, hinner, if_pos hk]

theorem coreMove_of_distance {length : Nat} (hinner : s.inner = .distance length) : coreMove s = decoded .dsym (distSymbol s) := by
  simp only [coreMove, hinner]

theorem inflateMove_of_stored (hphase : s.phase = .stored) : inflateMove s = .run .storedBody s := by
  simp only [inflateMove, hphase]
  exact decoded_val rfl s

theorem inflateMove_of_dynHeader (hphase : s.phase = .dynHeader) : inflateMove s = .run .dynHeader s := by
  simp only [inflateMove, hphase]
  exact decoded_val rfl s

/-- In IDLE, DONE and ERROR the element of an accepted INFLATE is its start (45_commands.md R452). -/
theorem inflateMove_of_not_running (hidle : s.running = false) : inflateMove s = .run .inflate s := by
  cases hphase : s.phase with
  | idle | done | error => simp only [inflateMove, hphase]
  | header | stored | fixedCodes | dynHeader | dynCodes => simp [State.running, hphase] at hidle

end

/-! ### A host write to CMD -/

section
variable {s : State}

/-- Between two elements, the next move of a host write to CMD is the issue of its word. -/
theorem nextMove_commandWrite {w : Word} {rest : List HostAct} (hinner : s.inner = .none)
    (hhost : s.host = .write 0#32 .b4 w :: rest) : nextMove s = issue w (tick { s with host := rest }) :=
  nextMove_hostWrite (fun _ => hinner) hhost

/-- While busy every word but RESET's is ignored (45_commands.md R450). -/
theorem issue_of_busy (hbusy : s.busy = true) {w : Word} (hw : w ≠ 0xFF#32) : issue w s = .made s := by
  rw [issue, if_pos hbusy, if_neg hw]

theorem issue_reset_of_busy (hbusy : s.busy = true) : issue 0xFF#32 s = .run .reset s := by
  rw [issue, if_pos hbusy, if_pos rfl]

theorem issue_inflate (hidle : s.busy = false) : issue 1#32 s = .made (accept .inflate s) := by
  simp [issue, hidle, decodeCmd]

theorem issue_adler32 (hidle : s.busy = false) : issue 2#32 s = .made (accept .adler32 s) := by
  simp [issue, hidle, decodeCmd]

theorem issue_crc32 (hidle : s.busy = false) : issue 3#32 s = .made (accept .crc32 s) := by
  simp [issue, hidle, decodeCmd]

/-- A word decodes to no command but its own. -/
theorem decodeCmd_ne {w : Word} {i : Instr} (h : w ≠ BitVec.ofNat 32 (encode i)) : decodeCmd w ≠ i := by
  rintro rfl
  obtain ⟨-, hencode, -⟩ := decodeCmd_hasOpcode w
  exact h (by rw [hencode, BitVec.ofNat_toNat, BitVec.setWidth_eq])

/-- While idle a word of no accepted command runs at once (45_commands.md R450). -/
theorem issue_of_not_accepted (hidle : s.busy = false) {w : Word} (h1 : w ≠ 1#32) (h2 : w ≠ 2#32) (h3 : w ≠ 3#32) :
    issue w s = .run (decodeCmd w) s := by
  have hinflate : decodeCmd w ≠ .inflate := decodeCmd_ne h1
  have hadler : decodeCmd w ≠ .adler32 := decodeCmd_ne h2
  have hcrc : decodeCmd w ≠ .crc32 := decodeCmd_ne h3
  simp [issue, hidle, hinflate, hadler, hcrc]

end

/-! ### INFLATE's start and ILLEGAL_CMD -/

section
variable {s : State}

theorem execInflate_starts (h : s.dictReq = false ∨ s.dictLen ≠ 0#17) :
    execInflate s = .next (startInflate (accept .inflate s)) := by
  have hdict : ¬(s.dictReq = true ∧ s.dictLen = 0#17) := by
    rintro ⟨hreq, hlen⟩
    simp [hreq, hlen] at h
  exact congrArg finish (if_neg hdict)

/-- A dictionary is required and none is loaded (43_symbols_window.md R367). -/
theorem execInflate_needs_dictionary (hreq : s.dictReq = true) (hlen : s.dictLen = 0#17) :
    execInflate s = .next (raise .needPresetDictionary (startInflate (accept .inflate s))) :=
  congrArg finish (if_pos (And.intro hreq hlen))

theorem execIllegalCmd_of_idle (hidle : s.busy = false) (w : Word) :
    execIllegalCmd w s = .next (raiseCommand .illegalCommand s) := by
  simp [execIllegalCmd, hidle]

theorem execIllegalCmd_of_busy (hbusy : s.busy = true) (w : Word) : execIllegalCmd w s = .next s := if_pos hbusy

end

/-! ### The checksum commands on a region they read -/

/-- The bytes of a region, each at its offset (44_checksums.md R421). -/
theorem bytesAt_eq_map_range (s : State) (sp : Space) (off n : Nat) :
    bytesAt s sp off n = (List.range n).map fun k => byteAt s sp (off + k) := by
  induction n generalizing off with
  | zero => rfl
  | succ n ih =>
    rw [bytesAt, ih, List.range_succ_eq_map, List.map_cons, List.map_map]
    simp only [Function.comp_def, Nat.add_zero, Nat.succ_eq_add_one, Nat.add_assoc, Nat.add_comm 1]

/-- A region within the valid length of its memory is read whole (44_checksums.md R420, R421). -/
theorem checksumRegion_of_fits {s : State} {sp : Space} {valid : Nat} (hsource : checksumSource s = some (sp, valid))
    (hfits : s.ckOff.toNat + s.ckLen.toNat ≤ valid) :
    checksumRegion s = some ((List.range s.ckLen.toNat).map fun k => byteAt s sp (s.ckOff.toNat + k)) := by
  simp only [checksumRegion, hsource, if_neg (Nat.not_lt.2 hfits), bytesAt_eq_map_range]

/-- A checksum command whose region is read completes with the function's value of its bytes (45_commands.md R455, R456). -/
theorem checksumCommand_of_fits {s : State} {sp : Space} {valid : Nat} (hsource : checksumSource s = some (sp, valid))
    (hfits : s.ckOff.toNat + s.ckLen.toNat ≤ valid) (op : Command) (f : List Byte → Word) :
    checksumCommand op f s = .next (complete { accept op s with
      ckResult := f ((List.range s.ckLen.toNat).map fun k => byteAt s sp (s.ckOff.toNat + k)) }) := by
  rw [checksumCommand, checksumRegion_of_fits (s := accept op s) hsource hfits]
  rfl

/-! ### The registers after a reset -/

/-- ADLER_SEED alone is not 0 after power-on, for every size of IN and OUT (70_reset_and_hazards.md R601). -/
theorem regRead_resetWith (a b : BitVec 25) (off : Nat) :
    regRead (State.resetWith a b) off = if off = 0x40 then 1#32 else 0#32 := by
  have hfixed : ∀ off < 0x4C, regRead State.reset off = if off = 0x40 then 1#32 else 0#32 := by decide
  by_cases hoff : off < 0x4C
  · exact hfixed off hoff
  · rw [regRead_reserved _ (Nat.not_lt.1 hoff), if_neg (by omega)]

/-- No register shows what RESET keeps (70_reset_and_hazards.md R600). -/
theorem regRead_resetRegisters (s : State) (off : Nat) :
    regRead (resetRegisters s) off = if off = 0x40 then 1#32 else 0#32 :=
  regRead_resetWith s.inMax s.outMax off

end Sys2Proof.Machine

namespace Sys2Proof.Proofs

open Sys2Proof.Machine

/-- Settles O48: the region is read whole, and acceptance leaves its bytes and the seed as they are. -/
theorem checksumCommands : Obligations.ChecksumCommands := by
  unfold Obligations.ChecksumCommands
  intro s sp valid hsource hfits
  have hcommand := checksumCommand_of_fits (checksumSource_eq_some.2 hsource) hfits
  exact ⟨hcommand .adler32 _, hcommand .crc32 _⟩

/-- Settles O52: the registers read as after power-on, and the rest is what RESET keeps. -/
theorem reset : Obligations.Reset := by
  unfold Obligations.Reset
  exact fun s => ⟨resetRegisters s, rfl, fun off _ => regRead_resetRegisters s off, rfl, rfl, rfl, rfl, rfl, rfl, rfl, rfl, rfl, rfl,
    rfl, rfl, rfl, rfl, rfl, rfl, rfl, rfl, rfl, rfl⟩

/-- Settles O55: the step is the issue of the word, whose cases are those of R450. -/
theorem commandWrite : Obligations.CommandWrite := by
  unfold Obligations.CommandWrite
  intro s w rest hinner hhost
  let u := tick { s with host := rest }
  have hmove : nextMove s = issue w u := nextMove_commandWrite hinner hhost
  refine ⟨?_, fun hbusy hw => ?_, ?_, ?_, ?_, fun hidle h1 h2 h3 => ⟨decodeCmd w, decode_toNat_cmd w, ?_⟩⟩
  · rintro hbusy rfl
    exact step_eq_exec (hmove.trans (issue_reset_of_busy hbusy))
  · exact step_eq_next_of_made (hmove.trans (issue_of_busy (s := u) hbusy hw))
  · rintro hidle rfl
    exact step_eq_next_of_made (hmove.trans (issue_inflate hidle))
  · rintro hidle rfl
    exact step_eq_next_of_made (hmove.trans (issue_adler32 hidle))
  · rintro hidle rfl
    exact step_eq_next_of_made (hmove.trans (issue_crc32 hidle))
  · exact step_eq_exec (hmove.trans (issue_of_not_accepted (s := u) hidle h1 h2 h3))

/-- Settles O33: the core's next move by command, phase and place inside an element, with the opcode it has read decoded. -/
theorem stepRunsDecoded : Obligations.StepRunsDecoded := by
  unfold Obligations.StepRunsDecoded
  intro s i w u
  refine ⟨fun hturn hop hphase hread hdecode => ?_, fun hturn hop hphase hread hdecode => ?_, fun hturn hop hphase => ?_,
    fun hturn hop hphase => ?_, fun hturn hop hidle => ?_, fun hturn hop => ?_, fun hturn hop => ?_,
    fun hlit hdist k hbusy hinner hk hread hdecode => ?_, fun length hbusy hinner hread hdecode => ?_⟩
  · exact step_eq_exec_of_inflate hturn hop ((inflateMove_of_header (s := tick s) hphase).trans (decoded_of_read hread hdecode))
  · exact step_eq_exec_of_inflate hturn hop ((inflateMove_of_symbols (s := tick s) hphase).trans (decoded_of_read hread hdecode))
  · exact step_eq_exec_of_inflate hturn hop (inflateMove_of_stored hphase)
  · exact step_eq_exec_of_inflate hturn hop (inflateMove_of_dynHeader hphase)
  · exact step_eq_exec_of_inflate hturn hop (inflateMove_of_not_running hidle)
  · obtain ⟨-, hinner, -⟩ := id hturn
    exact step_eq_exec_of_coreTurn hturn (coreMove_of_adler32 hinner hop)
  · obtain ⟨-, hinner, -⟩ := id hturn
    exact step_eq_exec_of_coreTurn hturn (coreMove_of_crc32 hinner hop)
  · have hmove := coreMove_of_lengths (s := tick s) hinner hk
    exact step_eq_exec_of_inner hbusy (by simp [hinner]) (hmove.trans (decoded_of_read hread hdecode))
  · have hmove := coreMove_of_distance (s := tick s) hinner
    exact step_eq_exec_of_inner hbusy (by simp [hinner]) (hmove.trans (decoded_of_read hread hdecode))

/-- Settles O50: NOP's meaning is the state itself. -/
theorem nopChangesNothing : Obligations.NopChangesNothing := by
  unfold Obligations.NopChangesNothing
  exact fun _ => rfl

/-- Settles O51: the start registers are set before the check for a dictionary. -/
theorem inflateStart : Obligations.InflateStart := by
  unfold Obligations.InflateStart
  exact fun s => ⟨execInflate_starts, execInflate_needs_dictionary⟩

/-- Settles O54: the error of a command that was not accepted leaves STATE and LASTOP. -/
theorem illegalCommand : Obligations.IllegalCommand := by
  unfold Obligations.IllegalCommand
  exact fun w s => ⟨fun hidle => execIllegalCmd_of_idle hidle w, fun hbusy => execIllegalCmd_of_busy hbusy w⟩

end Sys2Proof.Proofs
end

