-- ==== Sys2Proof/Proofs/ErrorEntry.lean ====
section
/-! PROOF. What error entry leaves (O36; 60_exceptions.md R520, R524): every check of an INFLATE element comes before its writes to OUT,
BLKINFO's count and the flags of the symbol loop, so that an error finds no more than the registers of `MidElement` written. -/

namespace Sys2Proof.Machine

/-! ### Up to the last check of an element -/

/-- `t` is `s` but for what an element can have written when one of its checks fails: the cursor, BLKINFO's header, the lengths, the
tree stores and the place inside the element (60_exceptions.md R524). -/
def MidElement (s t : State) : Prop :=
  t = { s with bitpos := t.bitpos, bfinal := t.bfinal, btype := t.btype, lens := t.lens, litTree := t.litTree,
               distTree := t.distTree, clenTree := t.clenTree, inner := t.inner }

theorem MidElement.refl (s : State) : MidElement s s := rfl

theorem MidElement.trans {s t u : State} (h1 : MidElement s t) (h2 : MidElement t u) : MidElement s u := by
  unfold MidElement at *
  rw [h2, h1]

theorem MidElement.error {s t : State} (h : MidElement s t) : t.error = s.error := by
  rw [h]

theorem midElement_of_cursorOnly {s t : State} (h : CursorOnly s t) : MidElement s t := by
  unfold CursorOnly at h
  rw [h]
  rfl

section
variable {s₀ s : State} (h : MidElement s₀ s)
include h

theorem readBits_midElement (n : Nat) : (readBits n s).Leaves (MidElement s₀) := by
  unfold readBits
  split
  · exact .err h
  · exact .val (h.trans rfl)

theorem symbolBelow_midElement (limit : Nat) (tree : HTree) : (symbolBelow limit tree s).Leaves (MidElement s₀) := by
  unfold symbolBelow decodeSymbol
  rcases decodeLoop_cases tree.symbol tree.count 0 0 0 s with ⟨v, t, hval, hcursor⟩ | ⟨e, t, herr, hcursor, -⟩
  · rw [hval, Res.bind_val]
    split
    · exact .val (h.trans (midElement_of_cursorOnly hcursor))
    · exact .stop
  · rw [herr]
    exact .err (h.trans (midElement_of_cursorOnly hcursor))

theorem putLengths_midElement (v : BitVec 4) (r : Nat) : (putLengths v r s).Leaves (MidElement s₀) := by
  unfold putLengths
  split
  · split
    · exact .err h
    · exact .val (h.trans rfl)
  · exact .stop
  · exact .stop

theorem copyPrevious_midElement : (copyPrevious s).Leaves (MidElement s₀) := by
  unfold copyPrevious
  split
  · split
    · exact .err h
    · exact (readBits_midElement h 2).bind fun _ _ h => putLengths_midElement h _ _
  · exact .stop
  · exact .stop

theorem zeroRun_midElement (base extra : Nat) : (zeroRun base extra s).Leaves (MidElement s₀) := by
  unfold zeroRun
  split
  · exact (readBits_midElement h extra).bind fun _ _ h => putLengths_midElement h _ _
  · exact .stop
  · exact .stop

theorem lengthSymbol_midElement (sym : Nat) : (lengthSymbol sym s).Leaves (MidElement s₀) := by
  unfold lengthSymbol
  split
  · exact putLengths_midElement h _ _
  split
  · exact copyPrevious_midElement h
  split
  · exact zeroRun_midElement h _ _
  · exact zeroRun_midElement h _ _

theorem lengthsLoop_midElement (fuel : Nat) : (lengthsLoop fuel s).Leaves (MidElement s₀) := by
  induction fuel generalizing s with
  | zero => exact .val h
  | succ fuel ih =>
    unfold lengthsLoop
    split
    · split
      · exact ((symbolBelow_midElement h _ _).bind fun _ _ h => lengthSymbol_midElement h _).bind fun _ _ h => ih h
      · exact .val h
    · exact .stop
    · exact .stop

theorem readClen_midElement (syms clen : List Nat) : (readClen syms clen s).Leaves (MidElement s₀) := by
  induction syms generalizing s clen with
  | nil => exact .val h
  | cons sym rest ih => exact (readBits_midElement h 3).bind fun _ _ h => ih h _

theorem buildLitTree_midElement (L : List Nat) : (buildLitTree L s).Leaves (MidElement s₀) := by
  unfold buildLitTree
  split
  · exact .err (h.trans rfl)
  · refine checkTree_leaves ?_ _
    exact h.trans rfl

theorem buildDistTree_midElement (L : List Nat) : (buildDistTree L s).Leaves (MidElement s₀) := by
  unfold buildDistTree
  split
  · exact .err (h.trans rfl)
  · refine checkTree_leaves ?_ _
    exact h.trans rfl

theorem buildClenTree_midElement (clen : List Nat) : (buildClenTree clen s).Leaves (MidElement s₀) := by
  unfold buildClenTree
  split
  · exact .err (h.trans rfl)
  · exact .val (h.trans rfl)

theorem dynCounts_midElement : (dynCounts s).Leaves (MidElement s₀) :=
  (readBits_midElement h 5).bind fun _ _ h =>
  (readBits_midElement h 5).bind fun _ _ h =>
  (readBits_midElement h 4).bind fun _ _ h =>
  (readClen_midElement h _ _).bind fun _ _ h =>
  (buildClenTree_midElement h _).bind fun _ _ h => .val (h.trans rfl)

theorem lengthPart_midElement (sym : Nat) : (lengthPart sym s).Leaves (MidElement s₀) :=
  (readBits_midElement h _).bind fun _ _ h => .val (h.trans rfl)

end

/-! ### The checks of an element come first -/

/-- The rest of an element that began in `s` makes its checks before its last writes: an error finds `MidElement` only, and an element
that ends without one raises none. -/
inductive Res.ChecksFirst (s : State) : Res Unit → Prop
  | val {u : Unit} {t : State} (h : t.error = s.error) : Res.ChecksFirst s (.val u t)
  | err {e : Err} {t : State} (h : MidElement s t) : Res.ChecksFirst s (.err e t)
  | stop {f : Fault} : Res.ChecksFirst s (.stop f)

theorem Res.Leaves.checksFirst {s : State} {r : Res Unit} (hr : r.Leaves (MidElement s)) : r.ChecksFirst s := by
  cases hr with
  | val h => exact .val h.error
  | err h => exact .err h
  | stop => exact .stop

/-- Parts that only move registers of `MidElement` may come before the checks of the rest. -/
theorem Res.Leaves.bind_checksFirst {α : Type} {s : State} {r : Res α} {k : α → State → Res Unit} (hr : r.Leaves (MidElement s))
    (hk : ∀ a t, MidElement s t → (k a t).ChecksFirst s) : (r.bind k).ChecksFirst s := by
  cases hr with
  | val h => exact hk _ _ h
  | err h => exact .err h
  | stop => exact .stop

@[simp] theorem endOfBlock_error (s : State) : (endOfBlock s).error = s.error := by
  unfold endOfBlock
  split <;> rfl

theorem Res.ChecksFirst.bind_endOfBlock {s : State} {r : Res Unit} (hr : r.ChecksFirst s) :
    (r.bind fun _ t => .val () (endOfBlock t)).ChecksFirst s := by
  cases hr with
  | val h => exact .val ((endOfBlock_error _).trans h)
  | err h => exact .err h
  | stop => exact .stop

section
variable {s₀ s : State} (h : MidElement s₀ s)
include h

theorem dynTrees_checksFirst : (dynTrees s).ChecksFirst s₀ := by
  unfold dynTrees
  split
  · exact (buildLitTree_midElement h _).bind_checksFirst fun _ _ h =>
      (buildDistTree_midElement h _).bind_checksFirst fun _ _ h => .val h.error
  · exact .stop
  · exact .stop

theorem dynHeader_checksFirst : (dynHeader s).ChecksFirst s₀ :=
  (dynCounts_midElement h).bind_checksFirst fun _ _ h =>
  (lengthsLoop_midElement h _).bind_checksFirst fun _ _ h => dynTrees_checksFirst h

theorem storedCopy_checksFirst (len : Nat) : (storedCopy len s).ChecksFirst s₀ := by
  unfold storedCopy
  dsimp only
  split
  · exact .err h
  split
  · exact .err h
  · rw [storedLoop_frame]
    exact .val h.error

theorem storedBody_checksFirst : (storedBody s).ChecksFirst s₀ := by
  have hAligned : MidElement s₀ (alignToByte s) := h.trans rfl
  refine (readBits_midElement hAligned 16).bind_checksFirst fun len _ h =>
    (readBits_midElement h 16).bind_checksFirst fun nlen _ h => ?_
  split
  · exact .err h
  · exact (storedCopy_checksFirst h len).bind_endOfBlock

theorem literal_checksFirst (byte : Byte) : (literal byte s).ChecksFirst s₀ := by
  unfold literal
  split
  · exact .err h
  · exact .val h.error

theorem copyMatch_checksFirst (length distance : Nat) : (copyMatch length distance s).ChecksFirst s₀ := by
  unfold copyMatch
  split
  · exact .err h
  split
  · exact .err h
  · rw [copyLoop_frame]
    exact .val h.error

theorem distanceSymbol_checksFirst (dsym : Nat) : (distanceSymbol dsym s).ChecksFirst s₀ := by
  unfold distanceSymbol
  split
  · split
    · exact .err h
    · exact (readBits_midElement h _).bind_checksFirst fun _ _ h => copyMatch_checksFirst h _ _
  · exact .stop
  · exact .stop

theorem backReference_checksFirst (sym : Nat) : (backReference sym s).ChecksFirst s₀ :=
  (lengthPart_midElement h sym).bind_checksFirst fun _ _ h =>
  (symbolBelow_midElement h _ _).bind_checksFirst fun _ _ h => distanceSymbol_checksFirst h _

end

/-! ### Every instruction -/

/-- An element that began in `s` ends in `t` without an error of its own, or by error entry on `MidElement` (60_exceptions.md R520). -/
def ElementEnds (s t : State) : Prop := t.error = s.error ∨ ∃ e u, MidElement s u ∧ t = raise e u

theorem finish_elementEnds {s : State} {r : Res Unit} (hr : r.ChecksFirst s) : NextSatisfies (ElementEnds s) (finish r) := by
  cases hr with
  | val h => exact nextSatisfies_next (.inl h)
  | err h => exact nextSatisfies_next (.inr ⟨_, _, h, rfl⟩)
  | stop => exact nextSatisfies_fault

theorem exec_elementEnds {i : Instr} (hi : i.format ≠ .cmd) (s : State) : NextSatisfies (ElementEnds s) (exec i s) := by
  have h := MidElement.refl s
  cases i with
  | blockStored | blockFixed | blockDynamic => exact nextSatisfies_next (.inl rfl)
  | blockReserved f => exact finish_elementEnds (.err (t := latchHeader f 3#2 s) rfl)
  | storedBody => exact finish_elementEnds (storedBody_checksFirst h)
  | dynHeader => exact finish_elementEnds (dynHeader_checksFirst h)
  | clLen | clCopyPrev | clZeroShort | clZeroLong =>
    rw [exec_clsym rfl]
    exact finish_elementEnds (lengthSymbol_midElement h _).checksFirst
  | lit b => exact finish_elementEnds (literal_checksFirst h b)
  | eob => exact nextSatisfies_next (.inl (endOfBlock_error s))
  | len257 | len258 | len259 | len260 | len261 | len262 | len263 | len264 | len265 | len266 | len267 | len268 | len269 | len270
  | len271 | len272 | len273 | len274 | len275 | len276 | len277 | len278 | len279 | len280 | len281 | len282 | len283 | len284
  | len285 => exact finish_elementEnds (backReference_checksFirst h _)
  | illegalLen286 | illegalLen287 => exact finish_elementEnds (.err h)
  | dist0 | dist1 | dist2 | dist3 | dist4 | dist5 | dist6 | dist7 | dist8 | dist9 | dist10 | dist11 | dist12 | dist13 | dist14
  | dist15 | dist16 | dist17 | dist18 | dist19 | dist20 | dist21 | dist22 | dist23 | dist24 | dist25 | dist26 | dist27 | dist28
  | dist29 | illegalDist30 | illegalDist31 =>
    rw [exec_dsym rfl]
    exact finish_elementEnds (distanceSymbol_checksFirst h _)
  | nop | inflate | adler32 | crc32 | reset | illegalCmd => exact absurd rfl hi

/-- A command issued in `s` ends in `t` without an error, or by the command's error entry, accepted (and so in LASTOP) or not
(45_commands.md R451; 60_exceptions.md R520). -/
def CommandEnds (s t : State) : Prop := t.error = none ∨ ∃ e op, t = raiseCommand e { s with lastOp := op }

theorem checksumCommand_ends (op : Command) (f : List Byte → Word) (s : State) :
    NextSatisfies (CommandEnds s) (checksumCommand op f s) := by
  unfold checksumCommand
  split
  · exact nextSatisfies_next (.inr ⟨_, some op, rfl⟩)
  · exact nextSatisfies_next (.inl rfl)

theorem execIllegalCmd_ends (w : Word) {s : State} (hnone : s.error = none) :
    NextSatisfies (CommandEnds s) (execIllegalCmd w s) := by
  unfold execIllegalCmd
  split
  · exact nextSatisfies_next (.inl hnone)
  · exact nextSatisfies_next (.inr ⟨_, s.lastOp, rfl⟩)

theorem exec_commandEnds {i : Instr} (hcmd : i.format = .cmd) (hinflate : i ≠ .inflate) {s : State} (hnone : s.error = none) :
    NextSatisfies (CommandEnds s) (exec i s) := by
  cases i with
  | nop => exact nextSatisfies_next (.inl hnone)
  | inflate => exact absurd rfl hinflate
  | adler32 | crc32 => exact checksumCommand_ends _ _ s
  | reset => exact nextSatisfies_next (.inl rfl)
  | illegalCmd w => exact execIllegalCmd_ends w hnone
  | _ => cases hcmd

end Sys2Proof.Machine

namespace Sys2Proof.Proofs

open Sys2Proof.Machine

/-- Settles O36: from a state without an error the error is the instruction's own, so that it entered it by `raise` on what its element
had written, or by `raiseCommand` on the command as issued. -/
theorem errorEntry : Obligations.ErrorEntry := by
  unfold Obligations.ErrorEntry
  intro i s t e hinflate hnone hexec herror
  by_cases hcmd : i.format = .cmd
  · obtain hended | ⟨e', op, rfl⟩ := exec_commandEnds hcmd hinflate hnone t hexec
    · cases hended.symm.trans herror
    · obtain rfl : e' = e := Option.some.inj herror
      exact ⟨rfl, absurd hcmd, fun _ => ⟨rfl, rfl, rfl, rfl, rfl, rfl, rfl, rfl⟩⟩
  · obtain hended | ⟨e', u, hmid, rfl⟩ := exec_elementEnds hcmd s t hexec
    · cases (hended.trans hnone).symm.trans herror
    · obtain rfl : e' = e := Option.some.inj herror
      unfold MidElement at hmid
      rw [hmid]
      exact ⟨rfl, fun _ => ⟨rfl, rfl⟩, fun h => absurd h hcmd⟩

end Sys2Proof.Proofs
end

