-- ==== Sys2Proof/Proofs/Noninterference.lean ====
section
/-! PROOF. What no rule gives a value is unobservable through the core (O39): from two states that agree on the valid bytes of the three
memories each part of an element reads the same, answers the same and writes the same (70_reset_and_hazards.md R601; 20_memory.md R101,
R102; 43_symbols_window.md R350). -/

namespace Sys2Proof.Machine

/-! ### States that agree on the valid bytes -/

/-- The valid length of a memory (20_memory.md R101, R102; 43_symbols_window.md R350). -/
def State.validLen (s : State) : Space → Nat
  | .inp => s.inLen.toNat
  | .out => s.outLen.toNat
  | .dict => s.dictLen.toNat

theorem State.sameValid.byteAt {s s' : State} (h : s.sameValid s') {sp : Space} {i : Nat} (hi : i < s.validLen sp) :
    byteAt s' sp i = byteAt s sp i := by
  obtain ⟨-, hin, hout, hdict⟩ := h
  cases sp with
  | inp => exact hin i hi
  | out => exact hout i hi
  | dict => exact hdict i hi

/-- Only the memories differ. -/
theorem State.sameValid.exists_contents {s s' : State} (h : s.sameValid s') :
    ∃ inp out dict epoch, s' = { s with inMem := inp, outMem := out, dictMem := dict, epoch := epoch } := by
  obtain ⟨hrest, -⟩ := h
  exact ⟨_, _, _, _, hrest⟩

/-- What is read without the memories is the same. -/
theorem State.sameValid.reads {α : Type} {s s' : State} (h : s.sameValid s') (g : State → α)
    (hg : ∀ (s : State) (inp out dict : Memory) (epoch : Nat),
      g { s with inMem := inp, outMem := out, dictMem := dict, epoch := epoch } = g s := by exact fun _ _ _ _ _ => rfl) :
    g s' = g s := by
  obtain ⟨inp, out, dict, epoch, rfl⟩ := h.exists_contents
  exact hg s inp out dict epoch

/-- `f` neither looks at what the memories hold nor changes it. -/
def IgnoresContents (f : State → State) : Prop :=
  ∀ (s : State) (inp out dict : Memory) (epoch : Nat),
    f { s with inMem := inp, outMem := out, dictMem := dict, epoch := epoch } =
      { f s with inMem := inp, outMem := out, dictMem := dict, epoch := epoch }

theorem IgnoresContents.byteAt {f : State → State} (hf : IgnoresContents f) (s : State) (sp : Space) (i : Nat) :
    byteAt (f s) sp i = byteAt s sp i := by
  have hkept : f s = { f s with inMem := s.inMem, outMem := s.outMem, dictMem := s.dictMem, epoch := s.epoch } := hf s _ _ _ _
  rw [hkept]
  cases sp with
  | inp | out | dict => rfl

/-- The same write of registers on both sides keeps the agreement, where it makes no more bytes valid. -/
theorem State.sameValid.map {s s' : State} (h : s.sameValid s') (f : State → State)
    (hf : IgnoresContents f := by exact fun _ _ _ _ _ => rfl)
    (hlen : ∀ sp, (f s).validLen sp ≤ s.validLen sp := by exact fun _ => le_rfl) : (f s).sameValid (f s') := by
  have hbyte (sp : Space) (i : Nat) (hi : i < (f s).validLen sp) : Machine.byteAt (f s') sp i = Machine.byteAt (f s) sp i := by
    rw [hf.byteAt, hf.byteAt, h.byteAt (hi.trans_le (hlen sp))]
  refine ⟨?_, hbyte .inp, hbyte .out, hbyte .dict⟩
  obtain ⟨inp, out, dict, epoch, rfl⟩ := h.exists_contents
  rw [hf]

/-! ### Two runs of a part of an element -/

/-- The two answers are alike, and leave states that agree on the valid bytes. -/
inductive Res.SameValid {α : Type} : Res α → Res α → Prop
  | val {a : α} {t t' : State} (h : t.sameValid t') : Res.SameValid (.val a t) (.val a t')
  | err {e : Err} {t t' : State} (h : t.sameValid t') : Res.SameValid (.err e t) (.err e t')
  | stop {f : Fault} : Res.SameValid (.stop f) (.stop f)

theorem Res.SameValid.bind {α β : Type} {r r' : Res α} {k : α → State → Res β} (hr : r.SameValid r')
    (hk : ∀ a t t', t.sameValid t' → (k a t).SameValid (k a t')) : (r.bind k).SameValid (r'.bind k) := by
  cases hr with
  | val h => exact hk _ _ _ h
  | err h => exact .err h
  | stop => exact .stop

/-- Where one outcome is a next state, so is the other, and the two agree on the valid bytes. -/
def SameValidNext (o o' : Host.Outcome State Fault Refusal) : Prop := ∀ t, o = .next t → ∃ t', o' = .next t' ∧ t.sameValid t'

theorem sameValidNext_next {t t' : State} (h : t.sameValid t') : SameValidNext (.next t) (.next t') := by
  rintro _ ⟨⟩
  exact ⟨t', rfl, h⟩

theorem sameValidNext_fault {f : Fault} : SameValidNext (.fault f) (.fault f) := by
  rintro _ ⟨⟩

theorem raise_sameValid {s s' : State} (h : s.sameValid s') (e : Err) : (raise e s).sameValid (raise e s') := h.map (raise e)

theorem finish_sameValid {r r' : Res Unit} (hr : r.SameValid r') : SameValidNext (finish r) (finish r') := by
  cases hr with
  | val h => exact sameValidNext_next h
  | err h => exact sameValidNext_next (raise_sameValid h _)
  | stop => exact sameValidNext_fault

section
variable {s s' : State} (h : s.sameValid s')
include h

/-! ### Reads of the stream -/

theorem bitsAt_sameValid {p n : Nat} (hn : p + n ≤ 8 * s.inLen.toNat) : bitsAt s' p n = bitsAt s p n := by
  induction n generalizing p with
  | zero => rfl
  | succ n ih =>
    have hbyte : byteAt s' .inp (p / 8) = byteAt s .inp (p / 8) := h.byteAt (show p / 8 < s.inLen.toNat by omega)
    rw [bitsAt, bitsAt, inBit, inBit, hbyte, ih (by omega)]

theorem readBits_sameValid (n : Nat) : (readBits n s).SameValid (readBits n s') := by
  unfold readBits
  rw [h.reads State.inLen, h.reads State.bitpos]
  split
  · exact .err h
  · rw [bitsAt_sameValid h (by omega)]
    exact .val (h.map (setCursor _))

theorem decodeLoop_sameValid (symbol count : List Nat) (code first index : Nat) :
    (decodeLoop symbol count code first index s).SameValid (decodeLoop symbol count code first index s') := by
  induction count generalizing code first index s s' with
  | nil => exact .err h
  | cons c cs ih =>
    refine (readBits_sameValid h 1).bind fun bit _ _ h => ?_
    split
    · exact .val h
    · exact ih h _ _ _

theorem symbolBelow_sameValid (limit : Nat) (tree : HTree) : (symbolBelow limit tree s).SameValid (symbolBelow limit tree s') := by
  refine (decodeLoop_sameValid h _ _ _ _ _).bind fun sym _ _ h => ?_
  split
  · exact .val h
  · exact .stop

theorem clSymbol_sameValid : (clSymbol s).SameValid (clSymbol s') := by
  rw [clSymbol, clSymbol, h.reads State.clenTree]
  exact symbolBelow_sameValid h _ _

theorem litSymbol_sameValid : (litSymbol s).SameValid (litSymbol s') := by
  rw [litSymbol, litSymbol, h.reads litTreeInUse]
  exact symbolBelow_sameValid h _ _

theorem distSymbol_sameValid : (distSymbol s).SameValid (distSymbol s') := by
  rw [distSymbol, distSymbol, h.reads distTreeInUse]
  exact symbolBelow_sameValid h _ _

theorem headerBits_sameValid : (headerBits s).SameValid (headerBits s') :=
  (readBits_sameValid h 1).bind fun _ _ _ h => (readBits_sameValid h 2).bind fun _ _ _ h => .val h

/-! ### Writes to OUT -/

/-- The byte that becomes valid is the one appended. -/
theorem outAppend_sameValid (b : Byte) (hroom : s.outLen.toNat + 1 ≤ s.outMax.toNat) :
    (outAppend b s).sameValid (outAppend b s') := by
  have hlen := h.reads State.outLen
  refine ⟨?_, fun i hi => h.byteAt (sp := .inp) hi, fun i hi => ?_, fun i hi => h.byteAt (sp := .dict) hi⟩
  · obtain ⟨inp, out, dict, epoch, rfl⟩ := h.exists_contents
    rfl
  · rw [outAppend_outLen_toNat b hroom] at hi
    by_cases hnew : i = s.outLen.toNat
    · subst hnew
      rw [byteAt_outAppend_same, ← hlen, byteAt_outAppend_same]
    · rw [byteAt_outAppend_other b s hnew, byteAt_outAppend_other b s' (by rwa [hlen])]
      exact h.byteAt (show i < s.outLen.toNat by omega)

theorem storedLoop_sameValid {n b : Nat} (hin : b + n ≤ s.inLen.toNat) (hroom : s.outLen.toNat + n ≤ s.outMax.toNat) :
    (storedLoop n b s).sameValid (storedLoop n b s') := by
  induction n generalizing b s s' with
  | zero => exact h
  | succ n ih =>
    have hbyte : byteAt s' .inp b = byteAt s .inp b := h.byteAt (show b < s.inLen.toNat by omega)
    rw [storedLoop, storedLoop, hbyte]
    refine ih (outAppend_sameValid h _ (by omega)) (by rw [outAppend_inLen]; omega) ?_
    rw [outAppend_outLen_toNat _ (by omega), outAppend_outMax]
    omega

theorem hist_sameValid {i : Nat} (hi : i < s.hlen) : hist s' i = hist s i := by
  have hlen := h.reads State.dictLen
  rw [State.hlen] at hi
  by_cases hdict : i < s.dictLen.toNat
  · rw [hist_of_dict hdict, hist_of_dict (by rwa [hlen])]
    exact h.byteAt (sp := .dict) hdict
  · rw [hist_of_out (Nat.le_of_not_lt hdict), hist_of_out (by rw [hlen]; omega), hlen]
    exact h.byteAt (show i - s.dictLen.toNat < s.outLen.toNat by omega)

/-- A back-reference reads within the history, which grows by the byte it appends. -/
theorem copyLoop_sameValid {n distance : Nat} (hpos : 0 < distance) (hfar : distance ≤ s.hlen)
    (hroom : s.outLen.toNat + n ≤ s.outMax.toNat) : (copyLoop n distance s).sameValid (copyLoop n distance s') := by
  induction n generalizing s s' with
  | zero => exact h
  | succ n ih =>
    rw [copyLoop, copyLoop, h.reads State.hlen, hist_sameValid h (by omega)]
    refine ih (outAppend_sameValid h _ (by omega)) ?_ ?_
    · rw [hlen_outAppend _ (by omega)]
      omega
    · rw [outAppend_outLen_toNat _ (by omega), outAppend_outMax]
      omega

/-! ### Blocks -/

theorem endOfBlock_sameValid : (endOfBlock s).sameValid (endOfBlock s') := by
  have hfinal := h.reads State.bfinal
  by_cases hlast : s.bfinal = 1#1
  · rw [endOfBlock_final hlast, endOfBlock_final (hfinal.trans hlast)]
    exact h.map fun s => complete { s with blkcnt := s.blkcnt + 1#24, phase := .done }
  · rw [endOfBlock_more hlast, endOfBlock_more (by rwa [hfinal])]
    exact h.map fun s => { s with blkcnt := s.blkcnt + 1#24, phase := .header }

theorem storedCopy_sameValid (len : Nat) : (storedCopy len s).SameValid (storedCopy len s') := by
  unfold storedCopy
  rw [h.reads State.inLen, h.reads State.bitpos, h.reads State.outLen, h.reads State.outMax]
  dsimp only
  split
  · exact .err h
  split
  · exact .err h
  · exact .val ((storedLoop_sameValid h (by omega) (by omega)).map (setCursor _))

theorem storedBody_sameValid : (storedBody s).SameValid (storedBody s') := by
  refine (readBits_sameValid (h.map alignToByte) 16).bind fun len _ _ h => (readBits_sameValid h 16).bind fun nlen _ _ h => ?_
  split
  · exact .err h
  · exact (storedCopy_sameValid h len).bind fun _ _ _ h => .val (endOfBlock_sameValid h)

/-! ### The dynamic header -/

theorem putLengths_sameValid (v : BitVec 4) (r : Nat) : (putLengths v r s).SameValid (putLengths v r s') := by
  unfold putLengths
  rw [h.reads State.inner]
  split
  · split
    · exact .err h
    · exact .val (h.map fun s => { s with lens := setRun r _ v s.lens, inner := .lengths _ _ _ })
  · exact .stop
  · exact .stop

theorem copyPrevious_sameValid : (copyPrevious s).SameValid (copyPrevious s') := by
  unfold copyPrevious
  rw [h.reads State.inner]
  split
  · split
    · exact .err h
    · refine (readBits_sameValid h 2).bind fun rep _ _ h => ?_
      rw [h.reads State.lens]
      exact putLengths_sameValid h _ _
  · exact .stop
  · exact .stop

theorem zeroRun_sameValid (base extra : Nat) : (zeroRun base extra s).SameValid (zeroRun base extra s') := by
  unfold zeroRun
  rw [h.reads State.inner]
  split
  · exact (readBits_sameValid h extra).bind fun rep _ _ h => putLengths_sameValid h _ _
  · exact .stop
  · exact .stop

theorem lengthSymbol_sameValid (sym : Nat) : (lengthSymbol sym s).SameValid (lengthSymbol sym s') := by
  unfold lengthSymbol
  split
  · exact putLengths_sameValid h _ _
  split
  · exact copyPrevious_sameValid h
  split
  · exact zeroRun_sameValid h _ _
  · exact zeroRun_sameValid h _ _

theorem lengthsLoop_sameValid (fuel : Nat) : (lengthsLoop fuel s).SameValid (lengthsLoop fuel s') := by
  induction fuel generalizing s s' with
  | zero => exact .val h
  | succ fuel ih =>
    unfold lengthsLoop
    rw [h.reads State.inner]
    split
    · split
      · exact ((clSymbol_sameValid h).bind fun sym _ _ h => lengthSymbol_sameValid h sym).bind fun _ _ _ h => ih h
      · exact .val h
    · exact .stop
    · exact .stop

theorem readClen_sameValid (syms clen : List Nat) : (readClen syms clen s).SameValid (readClen syms clen s') := by
  induction syms generalizing s s' clen with
  | nil => exact .val h
  | cons sym rest ih => exact (readBits_sameValid h 3).bind fun _ _ _ h => ih h _

theorem checkTree_sameValid (tree : HTree) : (checkTree tree s).SameValid (checkTree tree s') := by
  unfold checkTree
  split
  · exact .err h
  · exact .val h

/-- A failed build leaves the free value of the counter, which is the same. -/
theorem buildLitTree_sameValid (L : List Nat) : (buildLitTree L s).SameValid (buildLitTree L s') := by
  unfold buildLitTree
  split
  · exact .err (h.map fun s => { s with litTree := Config.freeTree s.draw })
  · exact checkTree_sameValid (h.map fun s => { s with litTree := _ }) _

theorem buildDistTree_sameValid (L : List Nat) : (buildDistTree L s).SameValid (buildDistTree L s') := by
  unfold buildDistTree
  split
  · exact .err (h.map fun s => { s with distTree := Config.freeTree s.draw })
  · exact checkTree_sameValid (h.map fun s => { s with distTree := _ }) _

theorem buildClenTree_sameValid (clen : List Nat) : (buildClenTree clen s).SameValid (buildClenTree clen s') := by
  unfold buildClenTree
  split
  · exact .err (h.map fun s => { s with clenTree := Config.freeTree s.draw })
  · exact .val (h.map fun s => { s with clenTree := _ })

theorem dynTrees_sameValid : (dynTrees s).SameValid (dynTrees s') := by
  unfold dynTrees
  rw [h.reads State.inner]
  split
  · rw [h.reads (lensSlice 0 _)]
    refine (buildLitTree_sameValid h _).bind fun _ _ _ h => ?_
    rw [h.reads (lensSlice _ _)]
    exact (buildDistTree_sameValid h _).bind fun _ _ _ h =>
      .val (h.map fun s => { s with litSel := true, distSel := true, phase := .dynCodes, inner := .none })
  · exact .stop
  · exact .stop

theorem dynCounts_sameValid : (dynCounts s).SameValid (dynCounts s') :=
  (readBits_sameValid h 5).bind fun _ _ _ h =>
  (readBits_sameValid h 5).bind fun _ _ _ h =>
  (readBits_sameValid h 4).bind fun _ _ _ h =>
  (readClen_sameValid h _ _).bind fun _ _ _ h =>
  (buildClenTree_sameValid h _).bind fun _ _ _ h => .val (h.map fun s => { s with inner := .lengths _ _ 0 })

theorem dynHeader_sameValid : (dynHeader s).SameValid (dynHeader s') := by
  refine (dynCounts_sameValid h).bind fun _ _ _ h => ?_
  rw [h.reads lengthsToCome]
  exact (lengthsLoop_sameValid h _).bind fun _ _ _ h => dynTrees_sameValid h

/-! ### Symbols -/

theorem literal_sameValid (byte : Byte) : (literal byte s).SameValid (literal byte s') := by
  unfold literal
  rw [h.reads State.outMax, h.reads State.outLen]
  split
  · exact .err h
  · exact .val (outAppend_sameValid h byte (by omega))

theorem copyMatch_sameValid {length distance : Nat} (hpos : 0 < distance) :
    (copyMatch length distance s).SameValid (copyMatch length distance s') := by
  unfold copyMatch
  rw [h.reads State.hlen, h.reads State.outMax, h.reads State.outLen]
  split
  · exact .err h
  split
  · exact .err h
  · exact .val ((copyLoop_sameValid h hpos (by omega) (by omega)).map fun s => { s with inner := .none })

theorem distanceSymbol_sameValid (dsym : Nat) : (distanceSymbol dsym s).SameValid (distanceSymbol dsym s') := by
  unfold distanceSymbol
  rw [h.reads State.inner]
  split
  · split
    · exact .err h
    · rename_i hlegal
      have hbase := dbase_pos (Nat.lt_of_not_le hlegal)
      exact (readBits_sameValid h _).bind fun dx _ _ h => copyMatch_sameValid h (by omega)
  · exact .stop
  · exact .stop

theorem lengthPart_sameValid (sym : Nat) : (lengthPart sym s).SameValid (lengthPart sym s') :=
  (readBits_sameValid h _).bind fun _ _ _ h => .val (h.map fun s => { s with inner := .distance _ })

theorem backReference_sameValid (sym : Nat) : (backReference sym s).SameValid (backReference sym s') :=
  (lengthPart_sameValid h sym).bind fun _ _ _ h =>
    (distSymbol_sameValid h).bind fun dsym _ _ h => distanceSymbol_sameValid h dsym

/-! ### Commands -/

theorem bytesAt_sameValid {sp : Space} {off n : Nat} (hn : off + n ≤ s.validLen sp) : bytesAt s' sp off n = bytesAt s sp off n := by
  induction n generalizing off with
  | zero => rfl
  | succ n ih => rw [bytesAt, bytesAt, h.byteAt (by omega), ih (by omega)]

/-- A region that is read lies within the valid length (44_checksums.md R420). -/
theorem checksumRegion_sameValid : checksumRegion s' = checksumRegion s := by
  unfold checksumRegion
  rw [h.reads checksumSource, h.reads State.ckOff, h.reads State.ckLen]
  split
  · rename_i sp valid hsource
    have hvalid : valid = s.validLen sp := by
      obtain ⟨-, rfl, rfl⟩ | ⟨-, rfl, rfl⟩ | ⟨-, rfl, rfl⟩ := checksumSource_eq_some.1 hsource
      · rfl
      · rfl
      · rfl
    split
    · rfl
    · rw [bytesAt_sameValid h (by omega)]
  · rfl

theorem checksumCommand_sameValid (op : Command) (f : List Byte → Word) :
    SameValidNext (checksumCommand op f s) (checksumCommand op f s') := by
  unfold checksumCommand
  rw [checksumRegion_sameValid (h.map (accept op))]
  split
  · exact sameValidNext_next (h.map fun s => raiseCommand .checksumRange (accept op s))
  · exact sameValidNext_next (h.map fun s => complete { accept op s with ckResult := f _ })

/-- INFLATE's start makes no byte of OUT valid. -/
theorem startInflate_sameValid : (startInflate s).sameValid (startInflate s') := by
  refine h.map startInflate (fun _ _ _ _ _ => rfl) fun sp => ?_
  cases sp with
  | inp | dict => exact le_rfl
  | out => exact Nat.zero_le _

theorem execInflate_sameValid : SameValidNext (execInflate s) (execInflate s') := by
  have hstart := startInflate_sameValid (h.map (accept .inflate))
  refine finish_sameValid ?_
  rw [hstart.reads State.dictReq, hstart.reads State.dictLen]
  split
  · exact .err hstart
  · exact .val hstart

theorem execIllegalCmd_sameValid (w : Word) : SameValidNext (execIllegalCmd w s) (execIllegalCmd w s') := by
  unfold execIllegalCmd
  rw [h.reads State.busy]
  split
  · exact sameValidNext_next h
  · exact sameValidNext_next (h.map (raiseCommand .illegalCommand))

theorem resetRegisters_sameValid : (resetRegisters s).sameValid (resetRegisters s') := by
  refine h.map resetRegisters (fun _ _ _ _ _ => rfl) fun sp => ?_
  cases sp with
  | inp | out | dict => exact Nat.zero_le _

/-! ### Every instruction, and the core's next move -/

theorem exec_sameValid (i : Instr) : SameValidNext (exec i s) (exec i s') := by
  cases i with
  | blockStored f => exact sameValidNext_next (h.map fun s => { latchHeader f 0#2 s with phase := .stored })
  | blockFixed f =>
    exact sameValidNext_next (h.map fun s => { latchHeader f 1#2 s with litSel := false, distSel := false, phase := .fixedCodes })
  | blockDynamic f => exact sameValidNext_next (h.map fun s => { latchHeader f 2#2 s with phase := .dynHeader })
  | blockReserved f => exact finish_sameValid (.err (h.map (latchHeader f 3#2)))
  | storedBody => exact finish_sameValid (storedBody_sameValid h)
  | dynHeader => exact finish_sameValid (dynHeader_sameValid h)
  | clLen | clCopyPrev | clZeroShort | clZeroLong =>
    rw [exec_clsym rfl, exec_clsym rfl]
    exact finish_sameValid (lengthSymbol_sameValid h _)
  | lit b => exact finish_sameValid (literal_sameValid h b)
  | eob => exact sameValidNext_next (endOfBlock_sameValid h)
  | len257 | len258 | len259 | len260 | len261 | len262 | len263 | len264 | len265 | len266 | len267 | len268 | len269 | len270
  | len271 | len272 | len273 | len274 | len275 | len276 | len277 | len278 | len279 | len280 | len281 | len282 | len283 | len284
  | len285 => exact finish_sameValid (backReference_sameValid h _)
  | illegalLen286 | illegalLen287 => exact finish_sameValid (.err h)
  | dist0 | dist1 | dist2 | dist3 | dist4 | dist5 | dist6 | dist7 | dist8 | dist9 | dist10 | dist11 | dist12 | dist13 | dist14
  | dist15 | dist16 | dist17 | dist18 | dist19 | dist20 | dist21 | dist22 | dist23 | dist24 | dist25 | dist26 | dist27 | dist28
  | dist29 | illegalDist30 | illegalDist31 =>
    rw [exec_dsym rfl, exec_dsym rfl]
    exact finish_sameValid (distanceSymbol_sameValid h _)
  | nop => exact sameValidNext_next h
  | inflate => exact execInflate_sameValid h
  | adler32 =>
    have hseed := h.reads State.adlerSeed
    rw [exec, exec, execAdler32, execAdler32, hseed]
    exact checksumCommand_sameValid h _ _
  | crc32 =>
    have hseed := h.reads State.crcSeed
    rw [exec, exec, execCrc32, execCrc32, hseed]
    exact checksumCommand_sameValid h _ _
  | reset => exact sameValidNext_next (resetRegisters_sameValid h)
  | illegalCmd w => exact execIllegalCmd_sameValid h w

end

/-- The two moves are alike, on states that agree on the valid bytes. -/
inductive Move.SameValid : Move → Move → Prop
  | run {i : Instr} {s s' : State} (h : s.sameValid s') : Move.SameValid (.run i s) (.run i s')
  | made {s s' : State} (h : s.sameValid s') : Move.SameValid (.made s) (.made s')
  | fault {f : Fault} : Move.SameValid (.fault f) (.fault f)

theorem decoded_sameValid (f : Format) {r r' : Res Nat} (hr : r.SameValid r') : (decoded f r).SameValid (decoded f r') := by
  unfold decoded
  cases hr with
  | val h =>
    dsimp only
    split
    · exact .run h
    · exact .fault
  | err h => exact .made (raise_sameValid h _)
  | stop => exact .fault

theorem part_sameValid {r r' : Res Unit} (hr : r.SameValid r') : (part r).SameValid (part r') := by
  cases hr with
  | val h => exact .made h
  | err h => exact .made (raise_sameValid h _)
  | stop => exact .fault

/-- Alike moves are alike steps. -/
theorem step_sameValid {s s' : State} (hmove : (nextMove s).SameValid (nextMove s')) : SameValidNext (step s) (step s') := by
  unfold step
  generalize nextMove s = m, nextMove s' = m' at hmove ⊢
  cases hmove with
  | run h => exact exec_sameValid h _
  | made h => exact sameValidNext_next h
  | fault => exact sameValidNext_fault

section
variable {s s' : State} (h : s.sameValid s')
include h

theorem inflateMove_sameValid : (inflateMove s).SameValid (inflateMove s') := by
  unfold inflateMove
  rw [h.reads State.phase]
  cases s.phase with
  | idle | done | error => exact .run h
  | header => exact decoded_sameValid _ (headerBits_sameValid h)
  | stored | dynHeader => exact decoded_sameValid _ (.val h)
  | fixedCodes | dynCodes => exact decoded_sameValid _ (litSymbol_sameValid h)

theorem coreMove_sameValid : (coreMove s).SameValid (coreMove s') := by
  unfold coreMove
  rw [h.reads State.inner, h.reads State.lastOp]
  split
  · split
    · exact decoded_sameValid _ (clSymbol_sameValid h)
    · exact part_sameValid (dynTrees_sameValid h)
  · exact decoded_sameValid _ (distSymbol_sameValid h)
  · split
    · exact inflateMove_sameValid h
    · exact .run h
    · exact .run h
    · exact .fault

theorem coreTurn_sameValid : (coreTurn s).SameValid (coreTurn s') := by
  unfold coreTurn
  rw [h.reads State.busy]
  split
  · exact coreMove_sameValid (h.map tick)
  · exact .made h

/-- With nothing queued the core moves, inside an element or between two. -/
theorem nextMove_sameValid (hhost : s.host = []) : (nextMove s).SameValid (nextMove s') := by
  unfold nextMove
  rw [h.reads State.busy, h.reads State.inner, h.reads State.host, hhost]
  split
  · exact coreMove_sameValid (h.map tick)
  · exact coreTurn_sameValid h

end

end Sys2Proof.Machine

namespace Sys2Proof.Proofs

open Sys2Proof.Machine

/-- Settles O39: the two states make alike moves, and each instruction leads to states that agree again. -/
theorem unspecifiedUnseen : Obligations.UnspecifiedUnseen := by
  unfold Obligations.UnspecifiedUnseen
  exact fun s s' t h hhost hstep => step_sameValid (nextMove_sameValid h hhost) t hstep

end Sys2Proof.Proofs
end

