-- ==== Sys2Proof/Proofs/ResetAndHazards.lean ====
section
/-! PROOF. Reset, and what a busy core does with the host's accesses: the reset state (O41, O53), host writes while busy (O58), and the one
stop of a run, a write to IN or DICT while busy (O43) (70_reset_and_hazards.md R601, R602, R620, R621; 60_exceptions.md R525). -/

namespace Sys2Proof.Machine

/-! ### Power-on reset -/

/-- The invariant holds after power-on reset, for every size that R6 allows (00_scope.md R6; 70_reset_and_hazards.md R601). -/
theorem resetWith_inv {a b : BitVec 25} (ha : 1 ≤ a.toNat) (ha' : a.toNat ≤ Config.sizeMax) (hb : 1 ≤ b.toNat)
    (hb' : b.toNat ≤ Config.sizeMax) : (State.resetWith a b).Inv := by
  have hbounds : (State.resetWith a b).boundsOk :=
    ⟨Nat.zero_le _, Nat.zero_le _, Nat.zero_le _, List.length_replicate, nofun, nofun, nofun⟩
  have hflags : (State.resetWith a b).flagsOk := ⟨nofun, fun _ hop => absurd rfl hop, nofun, rfl⟩
  exact inv_of_not_running ⟨⟨ha, ha', hb, hb'⟩, resetWith_memories_wf a b, hbounds⟩ hflags rfl rfl

/-! ### Host writes while busy -/

/-- The first byte of an access lies in IN or DICT, or a later one does. -/
theorem touchesInput_succ {s : State} {a n : Nat} :
    touchesInput s a (n + 1) = true ↔
      (∃ j, regionOf s a = .byteOf .inp j ∨ regionOf s a = .byteOf .dict j) ∨ touchesInput s (a + 1) n = true := by
  rw [touchesInput, Bool.or_eq_true]
  refine or_congr_left ?_
  split <;> simp [*]

theorem touchesInput_eq_true {s : State} {a n : Nat} :
    touchesInput s a n = true ↔
      ∃ k j, k < n ∧ (regionOf s (a + k) = .byteOf .inp j ∨ regionOf s (a + k) = .byteOf .dict j) := by
  induction n generalizing a with
  | zero => simp [touchesInput]
  | succ n ih =>
    rw [touchesInput_succ, ih]
    constructor
    · rintro (⟨j, hj⟩ | ⟨k, j, hk, hj⟩)
      · exact ⟨0, j, by omega, hj⟩
      · exact ⟨k + 1, j, by omega, by rwa [← Nat.add_assoc, Nat.add_right_comm]⟩
    · rintro ⟨k, j, hk, hj⟩
      cases k with
      | zero => exact .inl ⟨j, hj⟩
      | succ k => exact .inr ⟨k, j, by omega, by rwa [Nat.add_right_comm, Nat.add_assoc]⟩

section
variable {s : State} {a v : Word} {n : Width}

/-- An aligned 32-bit write to a register other than CMD. -/
theorem memWrite_register (hreg : a.toNat < 0x100) (ha : a.toNat ≠ 0) (halign : a.toNat % 4 = 0) :
    memWrite a .b4 v s = .made (regWrite a.toNat v s) := by
  rw [memWrite, if_pos hreg, if_pos ⟨rfl, halign⟩, if_neg ha]

/-- While busy a register other than INT_STATUS ignores a write (70_reset_and_hazards.md R620). -/
theorem regWrite_of_busy {off : Nat} (hbusy : s.busy = true) (hoff : off ≠ 0x10) : regWrite off v s = s := by
  rw [regWrite, if_neg hoff, if_pos hbusy]

/-- While busy a write that meets IN or DICT is refused (70_reset_and_hazards.md R621). -/
theorem memWrite_refused (hbusy : s.busy = true) (ha : 0x100 ≤ a.toNat) (htouch : touchesInput s a.toNat n.bytes = true) :
    memWrite a n v s = .refused .inputWriteWhileBusy := by
  rw [memWrite, if_neg (Nat.not_lt.2 ha), if_pos ⟨hbusy, htouch⟩]

/-- A write that meets neither IN nor DICT is ignored, busy or idle. -/
theorem memWrite_ignored (ha : 0x100 ≤ a.toNat) (hmiss : ¬touchesInput s a.toNat n.bytes = true) :
    memWrite a n v s = .made s := by
  have hkept : busPuts a.toNat n.bytes v.toNat s = s := by
    refine busPuts_ignored _ fun k i hk => ⟨fun h => ?_, fun h => ?_⟩
    · exact hmiss (touchesInput_eq_true.2 ⟨k, i, hk, .inl h⟩)
    · exact hmiss (touchesInput_eq_true.2 ⟨k, i, hk, .inr h⟩)
  rw [memWrite, if_neg (Nat.not_lt.2 ha), if_neg (fun h => hmiss h.2), hkept]

end

/-! ### The one stop of a run -/

/-- BUSY is 1 and the host's next access is a write outside the registers with a byte in IN or DICT (70_reset_and_hazards.md R621). -/
def State.writesInput (s : State) : Prop :=
  s.busy = true ∧ ∃ (a v : Word) (n : Width) (rest : List HostAct), s.host = .write a n v :: rest ∧ 0x100 ≤ a.toNat ∧
    ∃ k j, k < n.bytes ∧ (regionOf s (a.toNat + k) = .byteOf .inp j ∨ regionOf s (a.toNat + k) = .byteOf .dict j)

theorem step_of_writesInput {s : State} (hinner : s.inner = .none) (h : s.writesInput) :
    step s = .refused .inputWriteWhileBusy := by
  obtain ⟨hbusy, a, v, n, rest, hhost, ha, htouch⟩ := h
  have hmove := nextMove_hostWrite (fun _ => hinner) hhost
  rw [step, hmove, memWrite_refused (s := tick { s with host := rest }) hbusy ha (touchesInput_eq_true.2 htouch)]

theorem Move.Yields.imp {P Q : State → Prop} {m : Move} (hm : m.Yields P) (h : ∀ s, P s → Q s) : m.Yields Q := by
  cases hm with
  | run hexec =>
    obtain ⟨t, ht, hP⟩ := hexec
    exact .run ⟨t, ht, h t hP⟩
  | made hP => exact .made (h _ hP)

theorem step_of_yields {P : State → Prop} {s : State} (h : (nextMove s).Yields P) : Yields P (step s) := by
  unfold step
  generalize nextMove s = m at h ⊢
  cases h with
  | run h => exact h
  | made h => exact ⟨_, rfl, h⟩

/-- Every command answers, in every state. -/
theorem exec_command_yields {i : Instr} (hcmd : i.format = .cmd) (s : State) : Yields (fun _ => True) (exec i s) := by
  have hchecksum (op : Command) (f : List Byte → Word) : Yields (fun _ => True) (checksumCommand op f s) := by
    unfold checksumCommand
    split
    · exact ⟨_, rfl, trivial⟩
    · exact ⟨_, rfl, trivial⟩
  cases i with
  | nop | reset => exact ⟨_, rfl, trivial⟩
  | inflate =>
    simp only [exec, execInflate]
    split
    · exact ⟨_, rfl, trivial⟩
    · exact ⟨_, rfl, trivial⟩
  | adler32 | crc32 => exact hchecksum _ _
  | illegalCmd w =>
    simp only [exec, execIllegalCmd]
    split
    · exact ⟨_, rfl, trivial⟩
    · exact ⟨_, rfl, trivial⟩
  | _ => cases hcmd

theorem issue_yields (w : Word) (s : State) : (issue w s).Yields fun _ => True := by
  unfold issue
  dsimp only
  split_ifs
  · exact .run (exec_command_yields rfl s)
  · exact .made trivial
  · exact .made trivial
  · exact .made trivial
  · exact .made trivial
  · obtain ⟨hcmd, -, -⟩ := decodeCmd_hasOpcode w
    exact .run (exec_command_yields hcmd s)

/-- A host write is taken or ignored, but for the one that is refused. -/
theorem memWrite_yields {s : State} {a v : Word} {n : Width}
    (h : s.busy = true → 0x100 ≤ a.toNat → ¬touchesInput s a.toNat n.bytes = true) : (memWrite a n v s).Yields fun _ => True := by
  unfold memWrite
  split_ifs with hreg _ _ hrefused
  · exact issue_yields v s
  · exact .made trivial
  · exact .made trivial
  · exact absurd hrefused.2 (h hrefused.1 (Nat.le_of_not_lt hreg))
  · exact .made trivial

section
variable {s : State} (h : s.Inv)
include h

/-- A busy core has a command to run, and each of its elements answers. -/
theorem coreMove_yields (hbusy : s.busy = true) : (coreMove s).Yields fun _ => True := by
  obtain ⟨-, -, -, ⟨hflags, -⟩, -, -, hinner⟩ := id h
  obtain ⟨-, -, hcommand⟩ := hflags hbusy
  cases hop : s.lastOp with
  | none => exact absurd hop hcommand
  | some op =>
    cases op with
    | inflate =>
      rw [coreMove_of_inflate hinner hop]
      cases hrun : s.running with
      | true => exact (inflateMove_yields h hrun).imp fun _ _ => trivial
      | false =>
        rw [inflateMove_of_not_running hrun]
        exact .run (exec_command_yields rfl s)
    | adler32 =>
      rw [coreMove_of_adler32 hinner hop]
      exact .run (exec_command_yields rfl s)
    | crc32 =>
      rw [coreMove_of_crc32 hinner hop]
      exact .run (exec_command_yields rfl s)

theorem coreTurn_yields : (coreTurn s).Yields fun _ => True := by
  unfold coreTurn
  split
  · exact coreMove_yields (s := tick s) h ‹_›
  · exact .made trivial

theorem nextMove_yields (hwrite : ¬s.writesInput) : (nextMove s).Yields fun _ => True := by
  have hbetween : ¬(s.busy = true ∧ s.inner ≠ .none) := fun ⟨_, hinside⟩ => hinside h.inner
  rw [nextMove, if_neg hbetween]
  split
  · exact coreTurn_yields h
  · exact coreTurn_yields (s := { s with host := _ }) h
  · split
    · exact coreTurn_yields h
    · exact .made trivial
  · exact .made trivial
  · rename_i a n v rest hhost
    refine memWrite_yields fun hbusy ha htouch => hwrite ⟨hbusy, a, v, n, rest, hhost, ha, ?_⟩
    exact touchesInput_eq_true (s := tick { s with host := rest }).1 htouch
  · exact .made trivial

end

end Sys2Proof.Machine

namespace Sys2Proof.Proofs

open Sys2Proof.Machine

/-- Settles O43: the step refuses such a write, and from any other state of the invariant it leads to a next state. -/
theorem stopsOnlyOnInputWrite : Obligations.StopsOnlyOnInputWrite := by
  unfold Obligations.StopsOnlyOnInputWrite
  intro s h
  by_cases hwrite : s.writesInput
  · rw [step_of_writesInput h.inner hwrite]
    refine ⟨nofun, fun r => ⟨fun hr => ?_, ?_⟩⟩
    · cases hr
      exact ⟨rfl, hwrite⟩
    · rintro ⟨rfl, -⟩
      rfl
  · obtain ⟨t, hstep, -⟩ := step_of_yields (nextMove_yields h hwrite)
    rw [hstep]
    refine ⟨nofun, fun r => ⟨nofun, ?_⟩⟩
    rintro ⟨-, hwrite'⟩
    exact absurd hwrite' hwrite

/-- Settles O58: each access is the one move that `memWrite` makes of it. -/
theorem busyWrites : Obligations.BusyWrites := by
  unfold Obligations.BusyWrites
  intro s a v n rest hbusy hinner hhost
  let u := tick { s with host := rest }
  have hmove : nextMove s = memWrite a n v u := nextMove_hostWrite (fun _ => hinner) hhost
  refine ⟨fun hreg hcmd hstat => ?_, ?_, fun ha hmiss => ?_, fun k j hk ha htouch => ?_⟩
  · by_cases hpart : n = .b4 ∧ a.toNat % 4 = 0
    · obtain ⟨rfl, halign⟩ := hpart
      have hkept : regWrite a.toNat v u = u := regWrite_of_busy hbusy hstat
      exact step_eq_next_of_made (hmove.trans ((memWrite_register hreg hcmd halign).trans (congrArg _ hkept)))
    · exact step_partialRegisterWrite (fun _ => hinner) hhost hreg hpart
  · rintro rfl rfl
    exact step_eq_next_of_made hmove
  · refine step_eq_next_of_made (hmove.trans (memWrite_ignored ha fun htouch => ?_))
    obtain ⟨k, j, hk, hin | hdict⟩ := touchesInput_eq_true.1 htouch
    · exact (hmiss k j hk).1 hin
    · exact (hmiss k j hk).2 hdict
  · exact step_of_writesInput hinner ⟨hbusy, a, v, n, rest, hhost, ha, k, j, hk, htouch⟩

/-- Settles O41: 2 ^ 24 is the largest size, which `State.reset` has for both. -/
theorem invReset : Obligations.InvReset := by
  unfold Obligations.InvReset
  exact ⟨fun a b => resetWith_inv, resetWith_inv (by decide) (by decide) (by decide) (by decide)⟩

/-- Settles O53: ADLER_SEED alone is not 0, and the other fields are those that `State.resetWith` writes. -/
theorem resetState : Obligations.ResetState := by
  unfold Obligations.ResetState
  exact fun a b => ⟨fun off _ => regRead_resetWith a b off, rfl, rfl, rfl, rfl, rfl, rfl⟩

end Sys2Proof.Proofs
end
